-- ==== Sys2Proof/Word.lean ====
section
/-! DEFINITION. The word types of the core: what 00_scope.md R9 calls u8, u16 and u32 patterns, and the two
bit fields the rules name (a 2-bit colour index, 20_memory.md R62; a 4-bit draw-colour nibble, 10_state.md R35).
Everything else in a rule is an exact integer (R9, R13) and is an `Int` or a `Nat` here. -/

namespace Sys2Proof

/-- One byte of `Mem`, of the font, or of a sprite. -/
abbrev Byte := BitVec 8

/-- One register of the block, or its latched copy (10_state.md R36: "Every register is 32 bits wide"). -/
abbrev Word := BitVec 32

/-- A colour index in [0,3] (20_memory.md R62). -/
abbrev Colour := BitVec 2

/-- A role nibble of the draw-colour value (10_state.md R35). -/
abbrev Nibble := BitVec 4

/-- The 16-bit draw-colour value (10_state.md R34). -/
abbrev DrawColours := BitVec 16

/-- The nine operand words `ARG[0..8]` or their latched copy `LARG[0..8]` (10_state.md R40, R42). -/
abbrev Operands := Vector Word 9

end Sys2Proof
end

