-- ==== Sys2Proof/Config.lean ====
section
/-! DEFINITION. What is fixed while the machine runs: the named parameters of 00_scope.md R6 (R8: nothing in R6
changes while the core runs), the default configuration, and the free values the spec leaves open
(constants without a body: nothing can be proved about which value they have). -/

namespace Sys2Proof

/-- The three readings of BLIT's mirror, 43_sprite.md R205. -/
inductive FlipMirror where
  | clipRange
  | clipMax
  | full
deriving DecidableEq, Repr

/-- The implementation parameters of 00_scope.md R6. `REG_BASE` and `FONT` are OPEN there. -/
structure Config where
  /-- `WIDTH`, canvas width in pixels. -/
  width : Nat
  /-- `HEIGHT`, canvas height in pixels. -/
  height : Nat
  /-- `MEM_SIZE`, bytes of host memory. -/
  memSize : Nat
  /-- `FB_BASE`, host address of pixel storage byte 0. -/
  fbBase : Nat
  /-- `DC_ADDR`, host address of the draw-colour value's low byte. -/
  dcAddr : Nat
  /-- `REG_BASE`, host address of the register block. -/
  regBase : Nat
  /-- `FONT`, the font table. -/
  font : List Byte
  /-- `FONT_LEN`, its length in bytes. -/
  fontLen : Nat
  /-- `RECT_INSET_AFTER_CLAMP`, 42_shapes.md R157. -/
  rectInsetAfterClamp : Bool
  /-- `RECT_VEDGE_EXCLUDE_LAST`, 42_shapes.md R158. -/
  rectVedgeExcludeLast : Bool
  /-- `FLIP_MIRROR`, 43_sprite.md R205. -/
  flipMirror : FlipMirror
deriving DecidableEq, Repr

/-- `FB_BYTES = WIDTH*HEIGHT/4` (R6; exact because `WIDTH mod 4 = 0`, R7). -/
def Config.fbBytes (c : Config) : Nat := c.width * c.height / 4

/-- `GLYPH`: glyph width, glyph height and text line advance, fixed at 8 (R6). -/
def glyphSize : Nat := 8

/-- The oracle behind `draw()`: 92_eei_decisions.md D34, "a function from an evaluation index to a byte".
FREE VALUE (log 5): the byte of the k-th evaluation, unconstrained. -/
opaque Config.draw : Nat → Byte

/-- The `draw()` values that decide which bytes an abandoned BLIT or TEXT would have written
(70_reset_and_hazards.md R261), by the reset that abandons it and the evaluation index. The spec does not say which
draws those are; they are no completion's (30_encoding.md R103). FREE VALUE, DESIGN CHOICE (log 25). -/
opaque Config.abandonedDraw : Nat → Nat → Byte

/-- The other any-value bytes: those a reset leaves in the bytes of a running command (70_reset_and_hazards.md R261)
and those a forbidden host access leaves or returns (R265). FREE VALUE (log 6). -/
opaque Config.freeByte : Nat → Byte

/-- What a byte of `Mem` holds at power-up, by address: 10_state.md R49, "a model treats each byte as any value".
FREE VALUE (log 4). -/
opaque Config.powerUpByte : Nat → Byte

/-- The font's contents, "OPEN: contents not in source" (00_scope.md R6). FREE VALUE (log 3). -/
opaque Config.openFontByte : Nat → Byte

/-- `REG_BASE`, "OPEN; no default" (00_scope.md R6). FREE VALUE (log 2). -/
opaque Config.openRegBase : Nat

/-- The configuration of `State.reset`: the spec's defaults of R6 (PRESUMED where R6 marks them
[from general knowledge, not in source], log 1), the open ones free. -/
def Config.default : Config where
  width := 160
  height := 160
  memSize := 65536
  fbBase := 0xA0
  dcAddr := 0x14
  regBase := Config.openRegBase
  font := (List.range 1792).map Config.openFontByte
  fontLen := 1792
  rectInsetAfterClamp := true
  rectVedgeExcludeLast := true
  flipMirror := .clipRange

end Sys2Proof
end

