-- ==== Sys2Proof/Syntax.lean ====
section
/-! DEFINITION. The commands of the core, one constructor per row of spec/opcode_table.json (30_encoding.md R91).
A command word carries no operand but BLIT's four flag bits (R90, R92); the operands stand in `ARG[0..8]` (R94),
so they are no field of an `Instr`. -/

namespace Sys2Proof

/-- The ten commands of 30_encoding.md R91. -/
inductive Instr where
  /-- CLEAR, 40_pixel_storage.md R124. -/
  | clear
  /-- PIXW x, y, color, 40_pixel_storage.md R125. -/
  | pixw
  /-- PIXR x, y, 40_pixel_storage.md R126. -/
  | pixr
  /-- HLINE x, y, len, 42_shapes.md R153. -/
  | hline
  /-- VLINE x, y, len, 42_shapes.md R154. -/
  | vline
  /-- RECT x, y, width, height, 42_shapes.md R155. -/
  | rect
  /-- OVAL x, y, width, height, 42_shapes.md R161. -/
  | oval
  /-- LINE x1, y1, x2, y2, 42_shapes.md R166. -/
  | line
  /-- BLIT[.2BPP][.FX][.FY][.ROT] ptr, len, dstX, dstY, width, height, srcX, srcY, srcStride, 43_sprite.md R200. -/
  | blit (bpp2 flipX flipY rot : Bool)
  /-- TEXT ptr, len, x, y, 43_sprite.md R213. -/
  | text
deriving DecidableEq, Repr

/-- How an operand register is converted, 30_encoding.md R95. -/
inductive OperandType where
  | s32
  | u32
deriving DecidableEq, Repr

/-- The operand registers a command lists, `ARG[0]` first: the table of 30_encoding.md R94. -/
def Instr.operandTypes : Instr → List OperandType
  | .clear => []
  | .pixw => [.s32, .s32, .u32]
  | .pixr => [.s32, .s32]
  | .hline => [.s32, .s32, .s32]
  | .vline => [.s32, .s32, .s32]
  | .rect => [.s32, .s32, .s32, .s32]
  | .oval => [.s32, .s32, .s32, .s32]
  | .line => [.s32, .s32, .s32, .s32]
  | .blit _ _ _ _ => [.u32, .u32, .s32, .s32, .s32, .s32, .s32, .s32, .s32]
  | .text => [.u32, .u32, .s32, .s32]

end Sys2Proof
end

