-- ==== Sys2Proof/WellFormed.lean ====
section
/-! DEFINITION. The checks: which commands may be issued with which operand registers (the operand part of
30_encoding.md R96), and which configurations a model accepts (00_scope.md R7). -/

namespace Sys2Proof

/-- The operand part of `Legal(w, A)`, 30_encoding.md R96: a PIXW colour is at most 3; every other command takes
every operand value. -/
def Instr.wellFormed (i : Instr) (a : Operands) : Bool :=
  match i with
  | .clear => true
  | .pixw => decide (a[2].toNat ≤ 3)
  | .pixr => true
  | .hline => true
  | .vline => true
  | .rect => true
  | .oval => true
  | .line => true
  | .blit _ _ _ _ => true
  | .text => true

/-- The constraints of 00_scope.md R7; "A model rejects a configuration that breaks any of them". -/
def Config.wf (c : Config) : Bool :=
  decide (1 ≤ c.width) && decide (1 ≤ c.height) && decide (c.width % 4 = 0) &&
  decide (c.fbBase + c.fbBytes ≤ c.memSize) && decide (c.dcAddr + 2 ≤ c.memSize) &&
  decide (c.dcAddr + 2 ≤ c.fbBase ∨ c.fbBase + c.fbBytes ≤ c.dcAddr) &&
  decide (c.fontLen = c.font.length)

end Sys2Proof
end

