-- ==== Sys2Proof/Decode.lean ====
section
/-! DEFINITION. The command word: its decoder (30_encoding.md R90 to R93, total, rejecting by name), the encoder
written from the same tables, `Legal` of R96, and the reader the host's table check calls. -/

namespace Sys2Proof

/-- Why a command word has no command: the encoding rows of the ILL table, 60_exceptions.md R241. -/
inductive DecodeError where
  /-- Bits 31:8 are not all 0 (30_encoding.md R93). -/
  | reservedBits
  /-- OP is 0x0 or 0xB to 0xF (R91). -/
  | reservedOpcode
  /-- A flag bit 7:4 is set on a command other than BLIT (R92). -/
  | flagOnOtherCommand
deriving DecidableEq, Repr

/-- `OP`, bits 3:0 (R90). -/
def opField (w : Word) : BitVec 4 := w.extractLsb' 0 4

/-- The flag bits 7:4 (R90). -/
def flagField (w : Word) : BitVec 4 := w.extractLsb' 4 4

/-- The reserved bits 31:8 (R90). -/
def reservedField (w : Word) : BitVec 24 := w.extractLsb' 8 24

/-- A command without flags: its flag bits must be 0 (R92). -/
def withoutFlags (w : Word) (i : Instr) : Except DecodeError Instr :=
  if flagField w = 0 then .ok i else .error .flagOnOtherCommand

/-- The decoder of R90 and R91. -/
def decode (w : Word) : Except DecodeError Instr :=
  if reservedField w ≠ 0 then .error .reservedBits
  else
    match (opField w).toNat with
    | 1 => withoutFlags w .clear
    | 2 => withoutFlags w .pixw
    | 3 => withoutFlags w .pixr
    | 4 => withoutFlags w .hline
    | 5 => withoutFlags w .vline
    | 6 => withoutFlags w .rect
    | 7 => withoutFlags w .oval
    | 8 => withoutFlags w .line
    | 9 => .ok (.blit (w.getLsbD 4) (w.getLsbD 5) (w.getLsbD 6) (w.getLsbD 7))
    | 10 => withoutFlags w .text
    | _ => .error .reservedOpcode

/-- The opcode of a command, the table of R91. -/
def Instr.opcode : Instr → BitVec 4
  | .clear => 0x1
  | .pixw => 0x2
  | .pixr => 0x3
  | .hline => 0x4
  | .vline => 0x5
  | .rect => 0x6
  | .oval => 0x7
  | .line => 0x8
  | .blit _ _ _ _ => 0x9
  | .text => 0xA

/-- The flag bits 7:4 of a command, `RYXB` (R90): ROT, FLIPY, FLIPX, BPP2 from the top. -/
def Instr.flags : Instr → BitVec 4
  | .blit bpp2 flipX flipY rot =>
    BitVec.ofBool rot ++ BitVec.ofBool flipY ++ BitVec.ofBool flipX ++ BitVec.ofBool bpp2
  | .clear => 0
  | .pixw => 0
  | .pixr => 0
  | .hline => 0
  | .vline => 0
  | .rect => 0
  | .oval => 0
  | .line => 0
  | .text => 0

/-- The command word of a command: `00000000 00000000 00000000 RYXBoooo` (R90). -/
def encode (i : Instr) : Word := (0 : BitVec 24) ++ i.flags ++ i.opcode

/-- `Legal(w, A)` of R96, clause by clause. -/
def legal (w : Word) (a : Operands) : Bool :=
  decide (reservedField w = 0) &&
  decide (1 ≤ (opField w).toNat ∧ (opField w).toNat ≤ 10) &&
  decide (opField w = 9 ∨ flagField w = 0) &&
  decide (opField w ≠ 2 ∨ a[2].toNat ≤ 3)

/-- The instruction the decoder reads from a table row's word: one 32-bit command word, numbered as
spec/opcode_table.json numbers it; every bit above `nbits` is 0. -/
def decodeTableWord (nbits w : Nat) : Option Instr :=
  if w % 2 ^ nbits < 2 ^ 32 then
    match decode (BitVec.ofNat 32 (w % 2 ^ nbits)) with
    | .ok i => some i
    | .error _ => none
  else none

end Sys2Proof
end

