-- ==== Sys2Proof/Machine/State.lean ====
section
/-! DEFINITION. The machine's state as plain data: everything 10_state.md R31 names, the configuration
(00_scope.md R6, R8) and the model's own fields (INVENTORY.md, "State"), the ways a step can stop, and the state
right after reset (10_state.md R48, R49). -/

namespace Sys2Proof.Machine

/-- Host memory: the bytes that have been written, addresses strictly rising. An address that is not listed holds no
value here; reading it gives its free power-up byte (10_state.md R49; log 4). -/
abbrev Memory := List Host.Cell

/-- The canonical form of a memory: addresses strictly rising, so that no address has two entries. -/
abbrev Memory.wf (m : Memory) : Prop := m.Pairwise (fun x y => x.1 < y.1)

/-- The registers of the block, 10_state.md R36. -/
inductive Reg where
  /-- Offset 0x00. -/
  | cmd
  /-- Offset 0x04. -/
  | status
  /-- Offset 0x08. -/
  | result
  /-- Offset 0x0C: "reads 0, writes ignored". -/
  | reservedLow
  /-- Offset 0x10 + 4k. -/
  | arg (k : Fin 9)
  /-- Offset 0x34 + 4k: "reads 0, writes ignored". -/
  | reservedHigh (k : Fin 3)
deriving DecidableEq, Repr

/-- One host step: an aligned word access to the register block (10_state.md R41) or a byte access to `Mem`
(70_reset_and_hazards.md R271). -/
inductive HostAction where
  | regRead (r : Reg)
  | regWrite (r : Reg) (v : Word)
  | memRead (a : Nat)
  | memWrite (a : Nat) (v : Byte)
deriving DecidableEq, Repr

/-- Whose step comes next: the Engine (30_encoding.md R102), the Host (10_state.md R30), or a reset
(70_reset_and_hazards.md R260). MODEL (log 8). -/
inductive Turn where
  | engine
  | host (act : HostAction)
  | reset
deriving DecidableEq, Repr

/-- The whole state. -/
structure State where
  /-- The configuration; no step changes it (00_scope.md R8; log 1). -/
  config : Config
  /-- `Mem`, 10_state.md R32. -/
  mem : Memory
  /-- `CMD`, 10_state.md R37. -/
  cmd : Word
  /-- `STATUS.BUSY`, 10_state.md R38. -/
  busy : Bool
  /-- `STATUS.ILL`, 10_state.md R38. -/
  ill : Bool
  /-- `RESULT` bits 1:0, 10_state.md R39; bits 31:2 read 0 (log 21). -/
  result : Colour
  /-- `ARG[0..8]`, 10_state.md R40. -/
  args : Operands
  /-- `LCMD`, 10_state.md R42. -/
  lcmd : Word
  /-- `LARG[0..8]`, 10_state.md R42. -/
  larg : Operands
  /-- `DCL`, 10_state.md R42. -/
  dcl : DrawColours
  /-- MODEL: the environment's coming turns, the next one first (log 8). -/
  turns : List Turn
  /-- MODEL: the bytes the host has written since the issue although 70_reset_and_hazards.md R265 forbids it, as they
  stood at the issue (log 11). -/
  overwritten : Memory
  /-- MODEL: what the last host read returned (log 13). -/
  readData : Word
  /-- MODEL: how many `draw()` evaluations have been made (log 5). -/
  draws : Nat
  /-- MODEL: how many other any-value bytes have been taken (log 6). -/
  frees : Nat
  /-- MODEL: how many resets there have been since power-up (log 25). -/
  resets : Nat
deriving DecidableEq, Repr

/-- Why the machine stops with a fault. None is an event of the hardware (60_exceptions.md R240): each is a model
assertion. -/
inductive Fault where
  /-- `INTERNAL_OOB(x, y)`, 60_exceptions.md R243: raised by the point writer for a pixel off the canvas.
  Model-only and unreachable; safe. -/
  | internalOOB (x y : Int)
  /-- PIXW executed with a colour above 3, which 30_encoding.md R96 keeps from being issued (40_pixel_storage.md R120
  requires `c ∈ [0,3]`). Unreachable from a legal issue; safe (log 14). -/
  | pixwColour
  /-- The Engine is busy with a word that is no command, which R100 keeps from being latched (R101: "Only legal words
  reach this point"). Unreachable from a legal issue; safe (log 14). -/
  | latchedIllegal (e : DecodeError)
  /-- A host byte access to an address that does not exist, `a ≥ MEM_SIZE` (00_scope.md R12); safe (log 16). -/
  | noSuchAddress (a : Nat)
deriving DecidableEq, Repr

/-- Why a step is refused. -/
inductive Refusal where
  /-- An instruction that has no meaning yet, by its mnemonic; raised by `exec` only; safe. -/
  | notModelled (mnemonic : String)
  /-- The configuration breaks 00_scope.md R7, "A model rejects a configuration that breaks any of them"; raised by
  `step`; safe (log 17). -/
  | badConfiguration
deriving DecidableEq, Repr

/-- The state right after reset: 10_state.md R48 for the registers, R49 for `Mem` (nothing listed, every byte its free
power-up value); the latches, "unspecified, never observable", are 0 by choice (log 7); the model's own fields are
empty or 0 (logs 5, 6, 8, 11, 13, 25). -/
def State.reset : State where
  config := Config.default
  mem := []
  cmd := 0
  busy := false
  ill := false
  result := 0
  args := Vector.replicate 9 0
  lcmd := 0
  larg := Vector.replicate 9 0
  dcl := 0
  turns := []
  overwritten := []
  readData := 0
  draws := 0
  frees := 0
  resets := 0

end Sys2Proof.Machine
end

