-- ==== Sys2Proof/Machine/Operands.lean ====
section
/-! DEFINITION. Operand conversion (30_encoding.md R94, R95) and the draw-colour decoder (41_draw_color.md R140 to
R142): every operand form a command has. -/

namespace Sys2Proof.Machine

/-- An `s32` operand: `sext_32(LARG[k])` (30_encoding.md R95). -/
def State.s32 (s : State) (k : Fin 9) : Int := s.larg[k].toInt

/-- A `u32` operand: `zext_32(LARG[k])` (30_encoding.md R95). -/
def State.u32 (s : State) (k : Fin 9) : Nat := s.larg[k].toNat

/-- `Nibble(v, i) = (v >> (4*i)) & 0xF` (41_draw_color.md R140). -/
def nibble (v : DrawColours) (i : Nat) : Nibble := (v >>> (4 * i)).setWidth 4

/-- `Enabled(n) = (n ≠ 0)` (41_draw_color.md R141). -/
abbrev enabled (n : Nibble) : Prop := n ≠ 0

/-- `Color(n) = (n - 1) & 3` (41_draw_color.md R142); for n = 0 the formula gives 3, which only OVAL's stroke uses
(R146). -/
def colour (n : Nibble) : Colour := (n - 1).setWidth 2

end Sys2Proof.Machine
end

