-- ==== Sys2Proof/Machine/Ops.lean ====
section
/-! DEFINITION. The named operations every command and every host access is built from: bytes of memory
(00_scope.md R12), the pixel layout (20_memory.md R61), the point primitives (40_pixel_storage.md R120 to R123), source
bytes (20_memory.md R78), the any-value bytes (70_reset_and_hazards.md R261, R265), and recording ILL
(60_exceptions.md R242), which is all the core has in place of an exception entry (R246). -/

namespace Sys2Proof.Machine

/-- `[lo, hi)` in increasing order, empty when `hi ≤ lo` (00_scope.md R11). -/
def intRange (lo hi : Int) : List Int :=
  (List.range (hi - lo).toNat).map (fun i : Nat => lo + (i : Int))

/-! ### Bytes of memory -/

/-- The byte listed at an address, if one is. -/
def memGet? : Memory → Nat → Option Byte
  | [], _ => none
  | (b, v) :: m, a => if a = b then some v else memGet? m a

/-- List a byte at an address, keeping the addresses strictly rising. -/
def memSet : Memory → Nat → Byte → Memory
  | [], a, v => [(a, v)]
  | (b, w) :: m, a, v =>
    if a < b then (a, v) :: (b, w) :: m
    else if a = b then (a, v) :: m
    else (b, w) :: memSet m a v

/-- `Mem[a]`: the byte listed, or the free power-up byte of the address (10_state.md R49; log 4). -/
def memRead (m : Memory) (a : Nat) : Byte := (memGet? m a).getD (Config.powerUpByte a)

/-- `MemRead(a, 1)` of the machine (00_scope.md R12). -/
def State.readByte (s : State) (a : Nat) : Byte := memRead s.mem a

/-- `MemRead(a, 2)`, little-endian (00_scope.md R12; 10_state.md R34). -/
def State.readHalf (s : State) (a : Nat) : DrawColours := s.readByte (a + 1) ++ s.readByte a

/-- `MemWrite(a, 1, v)` of the machine (00_scope.md R12). -/
def State.writeByte (s : State) (a : Nat) (v : Byte) : State := { s with mem := memSet s.mem a v }

/-- Replace the whole memory. -/
def State.setMem (s : State) (m : Memory) : State := { s with mem := m }

/-- Memory with the listed bytes put back. -/
def restore (saved : Memory) (m : Memory) : Memory := saved.foldl (fun m x => memSet m x.1 x.2) m

/-- The machine with memory as it stood at the issue of the running command, in every byte the command reads
(30_encoding.md R103, "`Mem` at issue"): a forbidden write is taken back, and a permitted one (70_reset_and_hazards.md
R265) reaches no byte the command reads (log 11). -/
def State.atIssue (s : State) : State := s.setMem (restore s.overwritten s.mem)

/-- `DRAW_COLORS`: `Mem[DC_ADDR] | (Mem[DC_ADDR+1] << 8)` (10_state.md R34). -/
def State.drawColours (s : State) : DrawColours := s.readHalf s.config.dcAddr

/-! ### The pixel storage -/

/-- `a` is the address of a byte of the pixel storage, `[FB_BASE, FB_BASE + FB_BYTES)` (10_state.md R33). -/
abbrev inStorage (c : Config) (a : Nat) : Prop := c.fbBase ≤ a ∧ a < c.fbBase + c.fbBytes

/-- The point clipper, 40_pixel_storage.md R121. -/
abbrev inCanvas (c : Config) (x y : Int) : Prop :=
  (0 ≤ x ∧ x < c.width) ∧ (0 ≤ y ∧ y < c.height)

/-- `PixByte(x, y) = (WIDTH*y + x) >> 2` (20_memory.md R61). -/
def pixByte (c : Config) (x y : Int) : Nat := (((c.width : Int) * y + x) / 4).toNat

/-- `PixShift(x) = (x & 3) << 1` (20_memory.md R61; `x & 3 = x mod 4`, 00_scope.md R10). -/
def pixShift (x : Int) : Nat := 2 * (x % 4).toNat

/-- `(b & ~(3 << s) & 0xFF) | (c << s)` (40_pixel_storage.md R120). -/
def setPixelBits (b : Byte) (s : Nat) (c : Colour) : Byte :=
  (b &&& ~~~((3 : Byte) <<< s)) ||| (c.setWidth 8 <<< s)

/-- `(b >> s) & 3` (40_pixel_storage.md R123). -/
def getPixelBits (b : Byte) (s : Nat) : Colour := (b >>> s).setWidth 2

/-- `GetPixel(x, y)`, the raw point read (40_pixel_storage.md R123), on a memory. -/
def pixelAt (c : Config) (m : Memory) (x y : Int) : Colour :=
  getPixelBits (memRead m (c.fbBase + pixByte c x y)) (pixShift x)

/-- `GetPixel(x, y)` of the machine (40_pixel_storage.md R123). -/
def State.getPixel (s : State) (x y : Int) : Colour := pixelAt s.config s.mem x y

/-- One write of a command: the point writer's, or a whole byte `FB[i]` (40_pixel_storage.md R129: CLEAR's byte fill
and the aligned middle of a run fill). -/
inductive Write where
  | pixel (c : Colour) (x y : Int)
  | fbByte (i : Nat) (v : Byte)
deriving DecidableEq, Repr

/-- The index of the pixel storage byte a write stores to. -/
def Write.byteIndex (cfg : Config) : Write → Nat
  | .pixel _ x y => pixByte cfg x y
  | .fbByte i _ => i

/-- The address a write stores to: `FB[i]` is `Mem[FB_BASE + i]` (00_scope.md R12). -/
def Write.address (cfg : Config) (w : Write) : Nat := cfg.fbBase + w.byteIndex cfg

/-- What one write does to memory (40_pixel_storage.md R120, R124; 42_shapes.md R151). -/
def applyWrite (cfg : Config) (m : Memory) : Write → Memory
  | .pixel c x y =>
    memSet m (cfg.fbBase + pixByte cfg x y)
      (setPixelBits (memRead m (cfg.fbBase + pixByte cfg x y)) (pixShift x) c)
  | .fbByte i v => memSet m (cfg.fbBase + i) v

/-- The writes of a command, in the order made (00_scope.md R11: "the sequential composition of its writes"). -/
def applyWrites (cfg : Config) (ws : List Write) (m : Memory) : Memory := ws.foldl (applyWrite cfg) m

/-- The pixel off the canvas a write is for, if it is for one: `not InCanvas(x, y)` (40_pixel_storage.md R120). -/
def Write.offCanvas? (cfg : Config) : Write → Option (Int × Int)
  | .pixel _ x y => if inCanvas cfg x y then none else some (x, y)
  | .fbByte _ _ => none

/-- Make the writes of a command. The point writer's assertion stands before them: the first write for a pixel off the
canvas raises INTERNAL_OOB (40_pixel_storage.md R120; 60_exceptions.md R243; log 15). -/
def paint (ws : List Write) (s : State) : Host.Outcome State Fault Refusal :=
  match ws.findSome? (Write.offCanvas? s.config) with
  | some (x, y) => .fault (.internalOOB x y)
  | none => .next (s.setMem (applyWrites s.config ws s.mem))

/-- `PutPixelClipped(c, x, y)` (40_pixel_storage.md R122). -/
def putPixelClipped (cfg : Config) (c : Colour) (x y : Int) : List Write :=
  if inCanvas cfg x y then [.pixel c x y] else []

/-- The pixel storage byte indices a list of writes stores to, rising: what 70_reset_and_hazards.md R261 calls S for a
command that makes these writes. -/
def bytesWritten (cfg : Config) (ws : List Write) : List Nat :=
  (List.range cfg.fbBytes).filter (fun i => ws.any (fun w => w.byteIndex cfg == i))

/-! ### Source bytes -/

/-- Where a sampled byte comes from (20_memory.md R78). -/
inductive Source where
  /-- `len` bytes of `Mem` at `ptr` (20_memory.md R76). -/
  | mem (ptr len : Nat)
  /-- The font table. -/
  | font
deriving DecidableEq, Repr

/-- The byte `SrcByte` finds at offset k, or none where it yields `draw()` (20_memory.md R78). -/
def sourceByte? (cfg : Config) (m : Memory) (src : Source) (k : Int) : Option Byte :=
  match src with
  | .mem ptr len =>
    if 0 ≤ k ∧ k < len ∧ ptr + k.toNat < cfg.memSize ∧ ¬ inStorage cfg (ptr + k.toNat) then
      some (memRead m (ptr + k.toNat))
    else none
  | .font => if 0 ≤ k ∧ k < cfg.fontLen then cfg.font[k.toNat]? else none

/-- `SrcByte` (20_memory.md R78): the byte, and the count of `draw()` evaluations after it, for the oracle `draw` from
an evaluation index to a byte (92_eei_decisions.md D34). -/
def srcByte (draw : Nat → Byte) (cfg : Config) (m : Memory) (src : Source) (k : Int) (draws : Nat) : Byte × Nat :=
  match sourceByte? cfg m src k with
  | some b => (b, draws)
  | none => (draw draws, draws + 1)

/-! ### Any-value bytes -/

/-- Give each listed address any value (70_reset_and_hazards.md R261, R265): a fresh free byte each (log 6). -/
def freeBytes : List Nat → State → State
  | [], s => s
  | a :: as, s => freeBytes as { s.writeByte a (Config.freeByte s.frees) with frees := s.frees + 1 }

/-! ### The error indication -/

/-- Recording an ILL (60_exceptions.md R242): the sticky bit is set and nothing else changes (`CMD` has been written by
the access itself, 10_state.md R37). -/
def State.recordIll (s : State) : State := { s with ill := true }

/-- The only return the core has from it (10_state.md R38): the host writes `STATUS` with bit 1 = 1. -/
def State.clearIll (s : State) : State := { s with ill := false }

end Sys2Proof.Machine
end

