-- ==== Sys2Proof/Machine/Line.lean ====
section
/-! DEFINITION. The Bresenham line rasterizer: LINE (42_shapes.md R166 to R168). Its loop runs on fuel, the number of
points R168 counts (log 19). -/

namespace Sys2Proof.Machine

/-- The loop of 42_shapes.md R166 from `(x1, y1)`, with `E` twice the document's error (R167): the points it visits, in
order. -/
def lineLoop : Nat → (x1 y1 x2 y2 dx sx dy E : Int) → List (Int × Int)
  | 0, _, _, _, _, _, _, _, _ => []
  | fuel + 1, x1, y1, x2, y2, dx, sx, dy, E =>
    if x1 = x2 ∧ y1 = y2 then [(x1, y1)]
    else
      (x1, y1) ::
      (if E > -2 * dx then
        if E < 2 * dy then lineLoop fuel (x1 + sx) (y1 + 1) x2 y2 dx sx dy (E - 2 * dy + 2 * dx)
        else lineLoop fuel (x1 + sx) y1 x2 y2 dx sx dy (E - 2 * dy)
      else
        if E < 2 * dy then lineLoop fuel x1 (y1 + 1) x2 y2 dx sx dy (E + 2 * dx)
        else lineLoop fuel x1 y1 x2 y2 dx sx dy E)

/-- The points of a line with `y1 ≤ y2` (42_shapes.md R166), `max(|x2 - x1|, |y2 - y1|) + 1` of them (R168). -/
def linePointsDown (x1 y1 x2 y2 : Int) : List (Int × Int) :=
  let dx : Int := (x2 - x1).natAbs
  let dy : Int := y2 - y1
  lineLoop (max (x2 - x1).natAbs (y2 - y1).natAbs + 1) x1 y1 x2 y2 dx (Int.sign (x2 - x1)) dy
    (if dx > dy then dx else -dy)

/-- The points of LINE x1, y1, x2, y2 in plotting order: the endpoints are swapped when `y1 > y2` (42_shapes.md R166). -/
def linePoints (x1 y1 x2 y2 : Int) : List (Int × Int) :=
  if y1 > y2 then linePointsDown x2 y2 x1 y1 else linePointsDown x1 y1 x2 y2

/-- LINE's writes: each point through the clipped point writer, in dc0 (42_shapes.md R166). -/
def lineWrites (s : State) : List Write :=
  let n0 := nibble s.dcl 0
  if enabled n0 then
    (linePoints (s.s32 0) (s.s32 1) (s.s32 2) (s.s32 3)).flatMap
      (fun p => putPixelClipped s.config (colour n0) p.1 p.2)
  else []

/-- LINE (42_shapes.md R166). -/
def execLine (s : State) : Host.Outcome State Fault Refusal := paint (lineWrites s) s

end Sys2Proof.Machine
end

