-- ==== Sys2Proof/Machine/Shapes.lean ====
section
/-! DEFINITION. The runs (42_shapes.md R150 to R152) and the axis-parallel shapes: HLINE (R153), VLINE (R154),
RECT (R155 to R160). -/

namespace Sys2Proof.Machine

/-- `Run(c, sx, y, ex)`: the naive per-pixel loop (42_shapes.md R150). -/
def run (c : Colour) (sx y ex : Int) : List Write := (intRange sx ex).map (fun xx => .pixel c xx y)

/-- `c * 0x55`: one colour in all four pixels of a byte (42_shapes.md R151). -/
def solidByte (c : Colour) : Byte := c ++ c ++ c ++ c

/-- `RunFast(c, sx, y, ex)`: the byte-aligned run fill (42_shapes.md R151). The commands use `run`; that the two give
the same storage is a claim. `(sx + 3) & ~3` is `(sx + 3) / 4 * 4` and `ex - (ex & 3)` is `ex - ex % 4` (00_scope.md
R10). -/
def runFast (cfg : Config) (c : Colour) (sx y ex : Int) : List Write :=
  let fillEnd := ex - ex % 4
  let fillStart := min ((sx + 3) / 4 * 4) fillEnd
  if fillEnd - fillStart > 3 then
    run c sx y fillStart ++
    (intRange ((cfg.width * y + fillStart) / 4) ((cfg.width * y + fillEnd) / 4)).map
      (fun i => .fbByte i.toNat (solidByte c)) ++
    run c fillEnd y ex
  else run c sx y ex

/-- `RunClipped(c, sx, y, ex)`: the span clipper (42_shapes.md R152). -/
def runClipped (cfg : Config) (c : Colour) (sx y ex : Int) : List Write :=
  if 0 ≤ y ∧ y < cfg.height then
    if max sx 0 < min ex cfg.width then run c (max sx 0) y (min ex cfg.width) else []
  else []

/-- A column of pixels, rows `[lo, hi)` from the top (42_shapes.md R154, R155). -/
def column (c : Colour) (x lo hi : Int) : List Write := (intRange lo hi).map (fun yy => .pixel c x yy)

/-- HLINE's writes (42_shapes.md R153). -/
def hlineWrites (s : State) : List Write :=
  let n0 := nibble s.dcl 0
  if enabled n0 then runClipped s.config (colour n0) (s.s32 0) (s.s32 1) (s.s32 0 + s.s32 2) else []

/-- HLINE (42_shapes.md R153). -/
def execHline (s : State) : Host.Outcome State Fault Refusal := paint (hlineWrites s) s

/-- VLINE's writes (42_shapes.md R154). -/
def vlineWrites (s : State) : List Write :=
  let n0 := nibble s.dcl 0
  let x := s.s32 0
  let y := s.s32 1
  if enabled n0 then
    if x < 0 ∨ x ≥ s.config.width then []
    else column (colour n0) x (max 0 y) (min s.config.height (y + s.s32 2))
  else []

/-- VLINE (42_shapes.md R154). -/
def execVline (s : State) : Host.Outcome State Fault Refusal := paint (vlineWrites s) s

/-- The bounds of a RECT: the corner, the unclamped ends and the clamped box (42_shapes.md R156). -/
structure RectBounds where
  x : Int
  y : Int
  endXU : Int
  endYU : Int
  startX : Int
  startY : Int
  endX : Int
  endY : Int
deriving DecidableEq, Repr

/-- RECT's bounds from its operands (42_shapes.md R155). -/
def rectBounds (cfg : Config) (x y width height : Int) : RectBounds where
  x := x
  y := y
  endXU := x + width
  endYU := y + height
  startX := max 0 x
  startY := max 0 y
  endX := min (x + width) cfg.width
  endY := min (y + height) cfg.height

/-- The filled box `(fx0, fy0, fx1, fy1)`, inset by 1 when a stroke is requested, by either reading (42_shapes.md
R157). -/
def rectFillBox (cfg : Config) (n1 : Nibble) (b : RectBounds) : Int × Int × Int × Int :=
  let off : Int := if enabled n1 then 1 else 0
  if cfg.rectInsetAfterClamp then
    (b.startX + off, b.startY + off, b.endX - off, b.endY - off)
  else
    (max 0 (b.x + off), max 0 (b.y + off), min cfg.width (b.endXU - off), min cfg.height (b.endYU - off))

/-- RECT's fill writes, rows top to bottom (42_shapes.md R155, R157). -/
def rectFill (cfg : Config) (n0 n1 : Nibble) (b : RectBounds) : List Write :=
  if enabled n0 then
    let (fx0, fy0, fx1, fy1) := rectFillBox cfg n1 b
    (intRange fy0 fy1).flatMap (fun yy => run (colour n0) fx0 yy fx1)
  else []

/-- One past the last row of the vertical edges, by either reading (42_shapes.md R158). -/
def rectVEnd (cfg : Config) (b : RectBounds) : Int := if cfg.rectVedgeExcludeLast then b.endY - 1 else b.endY

/-- RECT's stroke writes: left, right, top, bottom edge (42_shapes.md R155, R158, R159). -/
def rectStroke (cfg : Config) (n1 : Nibble) (b : RectBounds) : List Write :=
  if enabled n1 then
    (if 0 ≤ b.x ∧ b.x < cfg.width then column (colour n1) b.x b.startY (rectVEnd cfg b) else []) ++
    (if 0 < b.endXU ∧ b.endXU ≤ cfg.width then column (colour n1) (b.endXU - 1) b.startY (rectVEnd cfg b) else []) ++
    (if 0 ≤ b.y ∧ b.y < cfg.height then run (colour n1) b.startX b.y b.endX else []) ++
    (if 0 < b.endYU ∧ b.endYU ≤ cfg.height then run (colour n1) b.startX (b.endYU - 1) b.endX else [])
  else []

/-- RECT's writes (42_shapes.md R155): none when the clamped box is empty (R156), else the fill, then the stroke
(R160). -/
def rectWrites (s : State) : List Write :=
  let n0 := nibble s.dcl 0
  let n1 := nibble s.dcl 1
  let b := rectBounds s.config (s.s32 0) (s.s32 1) (s.s32 2) (s.s32 3)
  if b.endX ≤ b.startX ∨ b.endY ≤ b.startY then []
  else rectFill s.config n0 n1 b ++ rectStroke s.config n1 b

/-- RECT (42_shapes.md R155). -/
def execRect (s : State) : Host.Outcome State Fault Refusal := paint (rectWrites s) s

end Sys2Proof.Machine
end

