-- ==== Sys2Proof/Machine/Oval.lean ====
section
/-! DEFINITION. The midpoint ellipse rasterizer: OVAL (42_shapes.md R161 to R165). The loop is the one R161 writes out
(from general knowledge, 93_implementation_defined.md I9; log 20). Its two `while` loops run on fuel that their own
bound gives (70_reset_and_hazards.md R270; log 19). -/

namespace Sys2Proof.Machine

/-- What does not change in OVAL's loops (42_shapes.md R161). -/
structure OvalShape where
  /-- `sc`, the stroke colour. -/
  stroke : Colour
  /-- `fc`, the fill colour. -/
  fill : Colour
  /-- `Enabled(n0)`. -/
  filled : Bool
  /-- The centre. -/
  x0 : Int
  y0 : Int
  /-- The semi-axes. -/
  a : Int
  b : Int
deriving DecidableEq, Repr

/-- `aa2 = 2*a*a` (42_shapes.md R161). -/
def OvalShape.aa2 (o : OvalShape) : Int := 2 * o.a * o.a

/-- `bb2 = 2*b*b` (42_shapes.md R161). -/
def OvalShape.bb2 (o : OvalShape) : Int := 2 * o.b * o.b

/-- The four mirror points of one step, in order (42_shapes.md R161, R162). -/
def ovalPoints (cfg : Config) (o : OvalShape) (X Y : Int) : List Write :=
  putPixelClipped cfg o.stroke (o.x0 + X) (o.y0 + Y) ++
  putPixelClipped cfg o.stroke (o.x0 + X) (o.y0 - Y) ++
  putPixelClipped cfg o.stroke (o.x0 - X) (o.y0 + Y) ++
  putPixelClipped cfg o.stroke (o.x0 - X) (o.y0 - Y)

/-- The two fill spans `[x0 - lo, x0 + hi)` at rows `y0 ± Y`, when filled (42_shapes.md R161). -/
def ovalSpans (cfg : Config) (o : OvalShape) (lo hi Y : Int) : List Write :=
  if o.filled then
    runClipped cfg o.fill (o.x0 - lo) (o.y0 + Y) (o.x0 + hi) ++
    runClipped cfg o.fill (o.x0 - lo) (o.y0 - Y) (o.x0 + hi)
  else []

/-- Region 1, "from (a, 0), Y advances every step" (42_shapes.md R161, R164). -/
def ovalRegion1 (cfg : Config) (o : OvalShape) :
    Nat → (X Y dx dy sx sy e : Int) → List Write
  | 0, _, _, _, _, _, _, _ => []
  | fuel + 1, X, Y, dx, dy, sx, sy, e =>
    if sx ≥ sy then
      ovalPoints cfg o X Y ++ ovalSpans cfg o (X - 1) X Y ++
      (if 2 * (e + dy) + dx > 0 then
        ovalRegion1 cfg o fuel (X - 1) (Y + 1) (dx + o.bb2) (dy + o.aa2) (sx - o.bb2) (sy + o.aa2) (e + dy + dx)
      else
        ovalRegion1 cfg o fuel X (Y + 1) dx (dy + o.aa2) sx (sy + o.aa2) (e + dy))
    else []

/-- Region 2, "from (0, b), X advances every step"; `ddx` counts the X steps since the last Y step (42_shapes.md R161,
R164). -/
def ovalRegion2 (cfg : Config) (o : OvalShape) :
    Nat → (X Y dx dy sx sy e ddx : Int) → List Write
  | 0, _, _, _, _, _, _, _, _ => []
  | fuel + 1, X, Y, dx, dy, sx, sy, e, ddx =>
    if sy ≥ sx then
      let w := (X + 1) - (ddx + 1) - 1
      ovalPoints cfg o X Y ++
      (if 2 * (e + dx) + dy > 0 then
        ovalSpans cfg o w (w + 1) Y ++
        ovalRegion2 cfg o fuel (X + 1) (Y - 1) (dx + o.bb2) (dy + o.aa2) (sx + o.bb2) (sy - o.aa2) (e + dx + dy) 0
      else
        ovalRegion2 cfg o fuel (X + 1) Y (dx + o.bb2) dy (sx + o.bb2) sy (e + dx) (ddx + 1))
    else []

/-- Fuel for region 1: `sy` grows by `aa2` every iteration from 0 and `sx` never grows above `bb2 * a`
(70_reset_and_hazards.md R270). -/
def ovalFuel1 (o : OvalShape) : Nat := (o.bb2 * o.a / o.aa2).toNat + 1

/-- Fuel for region 2: `sx` grows by `bb2` every iteration from 0 and `sy` never grows above `aa2 * b`
(70_reset_and_hazards.md R270). -/
def ovalFuel2 (o : OvalShape) : Nat := (o.aa2 * o.b / o.bb2).toNat + 1

/-- The writes of an ellipse: region 1, then region 2 (42_shapes.md R161). -/
def ellipse (cfg : Config) (o : OvalShape) : List Write :=
  ovalRegion1 cfg o (ovalFuel1 o) o.a 0 ((1 - 2 * o.a) * o.b * o.b) (o.a * o.a) (o.bb2 * o.a) 0 0 ++
  ovalRegion2 cfg o (ovalFuel2 o) 0 o.b (o.b * o.b) ((1 - 2 * o.b) * o.a * o.a) 0 (o.aa2 * o.b) 0 0

/-- The ellipse an OVAL command names: semi-axes `width >> 1` and `height >> 1` (floor, 00_scope.md R10), centre
`(x + a, y + b)`, stroke in dc1 by the bare formula, fill in dc0 (42_shapes.md R161; 41_draw_color.md R146). -/
def ovalShape (s : State) : OvalShape where
  stroke := colour (nibble s.dcl 1)
  fill := colour (nibble s.dcl 0)
  filled := decide (enabled (nibble s.dcl 0))
  x0 := s.s32 0 + s.s32 2 / 2
  y0 := s.s32 1 + s.s32 3 / 2
  a := s.s32 2 / 2
  b := s.s32 3 / 2

/-- OVAL's writes: none under the sentinel `dc1 = 0xF` or for an empty semi-axis (42_shapes.md R162). -/
def ovalWrites (s : State) : List Write :=
  if nibble s.dcl 1 = 0xF then []
  else if (ovalShape s).a ≤ 0 ∨ (ovalShape s).b ≤ 0 then []
  else ellipse s.config (ovalShape s)

/-- OVAL (42_shapes.md R161). -/
def execOval (s : State) : Host.Outcome State Fault Refusal := paint (ovalWrites s) s

end Sys2Proof.Machine
end

