-- ==== Sys2Proof/Machine/Sprite.lean ====
section
/-! DEFINITION. The sprite blitter: BLIT (43_sprite.md R200 to R212) and TEXT (R213 to R217). No source byte ever comes
from the pixel storage (20_memory.md R78) and no write leaves it, so a command's writes are a function of the memory
it starts from and of the `draw()` values it takes, an oracle `draw` of the evaluation index (30_encoding.md R103;
logs 5, 18). A command that executes takes them from `Config.draw`. -/

namespace Sys2Proof.Machine

/-- The operands and flags of one blit body (43_sprite.md R200, R215). -/
structure Blit where
  src : Source
  dstX : Int
  dstY : Int
  width : Int
  height : Int
  srcX : Int
  srcY : Int
  srcStride : Int
  bpp2 : Bool
  flipX : Bool
  flipY : Bool
  rot : Bool
deriving DecidableEq, Repr

/-- `(cxMin, cxMax)`: the local columns on the canvas (43_sprite.md R201; rotated, R202). -/
def Blit.columns (cfg : Config) (b : Blit) : Int × Int :=
  if b.rot then (max 0 b.dstY - b.dstY, min b.width (cfg.height - b.dstY))
  else (max 0 b.dstX - b.dstX, min b.width (cfg.width - b.dstX))

/-- `(cyMin, cyMax)`: the local rows on the canvas (43_sprite.md R201; rotated, R202). -/
def Blit.rows (cfg : Config) (b : Blit) : Int × Int :=
  if b.rot then (max 0 b.dstX - b.dstX, min b.height (cfg.width - b.dstX))
  else (max 0 b.dstY - b.dstY, min b.height (cfg.height - b.dstY))

/-- One mirror formula of 43_sprite.md R205: the clip range of the axis, its full size, and the coordinate. -/
def mirror (fm : FlipMirror) (cMin cMax size u : Int) : Int :=
  match fm with
  | .clipRange => cMin + cMax - 1 - u
  | .clipMax => cMax - 1 - u
  | .full => size - 1 - u

/-- The sampled column of local column u: mirrored when `fx = flipX xor rot` (43_sprite.md R203, R205). -/
def Blit.col (cfg : Config) (b : Blit) (u : Int) : Int :=
  if xor b.flipX b.rot then mirror cfg.flipMirror (b.columns cfg).1 (b.columns cfg).2 b.width u else u

/-- The sampled row of local row v: mirrored when `flipY` (43_sprite.md R205). -/
def Blit.row (cfg : Config) (b : Blit) (v : Int) : Int :=
  if b.flipY then mirror cfg.flipMirror (b.rows cfg).1 (b.rows cfg).2 b.height v else v

/-- The destination pixel of local coordinates (u, v) (43_sprite.md R204). -/
def Blit.dest (b : Blit) (u v : Int) : Int × Int :=
  (b.dstX + (if b.rot then v else u), b.dstY + (if b.rot then u else v))

/-- `p = sy * srcStride + sx`, the linear pixel index sampled for (u, v) (43_sprite.md R206). -/
def Blit.linear (cfg : Config) (b : Blit) (u v : Int) : Int :=
  (b.srcY + b.row cfg v) * b.srcStride + (b.srcX + b.col cfg u)

/-- `k`, the offset of the source byte that holds linear pixel p (43_sprite.md R206). -/
def Blit.byteOffset (b : Blit) (p : Int) : Int := if b.bpp2 then p / 4 else p / 8

/-- `(byte >> sh) & mask`: the sampled index, MSB first (43_sprite.md R206 to R208). -/
def Blit.index (b : Blit) (byte : Byte) (p : Int) : Colour :=
  if b.bpp2 then (byte >>> (6 - 2 * (p % 4).toNat)).setWidth 2
  else ((byte >>> (7 - (p % 8).toNat)).setWidth 1).setWidth 2

/-- The write of one local pixel, given its sample: none when the selected nibble is 0 (43_sprite.md R209). -/
def Blit.plot (b : Blit) (dcl : DrawColours) (idx : Colour) (u v : Int) : List Write :=
  let nib := nibble dcl idx.toNat
  if enabled nib then [.pixel (colour nib) (b.dest u v).1 (b.dest u v).2] else []

/-- The local coordinates in iteration order: rows v outside, columns u inside (43_sprite.md R200). -/
def Blit.cells (cfg : Config) (b : Blit) : List (Int × Int) :=
  (intRange (b.rows cfg).1 (b.rows cfg).2).flatMap (fun v =>
    (intRange (b.columns cfg).1 (b.columns cfg).2).map (fun u => (u, v)))

/-- The blit loop over a list of local coordinates: the writes, and the count of `draw()` evaluations after them
(43_sprite.md R200). -/
def blitLoop (draw : Nat → Byte) (cfg : Config) (m : Memory) (dcl : DrawColours) (b : Blit) :
    List (Int × Int) → Nat → List Write × Nat
  | [], d => ([], d)
  | (u, v) :: cs, d =>
    let p := b.linear cfg u v
    let byte := srcByte draw cfg m b.src (b.byteOffset p) d
    let rest := blitLoop draw cfg m dcl b cs byte.2
    (b.plot dcl (b.index byte.1 p) u v ++ rest.1, rest.2)

/-- The body of 43_sprite.md R200. -/
def blitBody (draw : Nat → Byte) (cfg : Config) (m : Memory) (dcl : DrawColours) (b : Blit) (d : Nat) :
    List Write × Nat := blitLoop draw cfg m dcl b (b.cells cfg) d

/-- The blit a BLIT command names (43_sprite.md R200; 30_encoding.md R101 for the flags). -/
def blitOf (bpp2 flipX flipY rot : Bool) (s : State) : Blit where
  src := .mem (s.u32 0) (s.u32 1)
  dstX := s.s32 2
  dstY := s.s32 3
  width := s.s32 4
  height := s.s32 5
  srcX := s.s32 6
  srcY := s.s32 7
  srcStride := s.s32 8
  bpp2 := bpp2
  flipX := flipX
  flipY := flipY
  rot := rot

/-- BLIT's writes and draws (43_sprite.md R200). -/
def blitPlan (draw : Nat → Byte) (bpp2 flipX flipY rot : Bool) (s : State) : List Write × Nat :=
  blitBody draw s.config s.mem s.dcl (blitOf bpp2 flipX flipY rot s) s.draws

/-- BLIT (43_sprite.md R200). -/
def execBlit (bpp2 flipX flipY rot : Bool) (s : State) : Host.Outcome State Fault Refusal :=
  paint (blitPlan Config.draw bpp2 flipX flipY rot s).1
    { s with draws := (blitPlan Config.draw bpp2 flipX flipY rot s).2 }

/-- `Glyph(code, cx, cy)`: the blit of an 8×8 glyph from the font (43_sprite.md R215). -/
def glyphBlit (code : Byte) (cx cy : Int) : Blit where
  src := .font
  dstX := cx
  dstY := cy
  width := glyphSize
  height := glyphSize
  srcX := 0
  srcY := ((code.toNat : Int) - 32) * 8
  srcStride := 8
  bpp2 := false
  flipX := false
  flipY := false
  rot := false

/-- The loop of TEXT (43_sprite.md R213, R214): `n` codes are left, the next is code `i` of the string, the cursor is
(cx, cy) and the starting column is x. -/
def textLoop (draw : Nat → Byte) (cfg : Config) (m : Memory) (dcl : DrawColours) (ptr len : Nat) (x : Int) :
    Nat → (i : Nat) → (cx cy : Int) → (d : Nat) → List Write × Nat
  | 0, _, _, _, d => ([], d)
  | n + 1, i, cx, cy, d =>
    let code := srcByte draw cfg m (.mem ptr len) i d
    if code.1 = 0 then ([], code.2)
    else if code.1 = 10 then textLoop draw cfg m dcl ptr len x n (i + 1) x (cy + glyphSize) code.2
    else
      let glyph := blitBody draw cfg m dcl (glyphBlit code.1 cx cy) code.2
      let rest := textLoop draw cfg m dcl ptr len x n (i + 1) (cx + glyphSize) cy glyph.2
      (glyph.1 ++ rest.1, rest.2)

/-- TEXT's writes and draws (43_sprite.md R213). -/
def textPlan (draw : Nat → Byte) (s : State) : List Write × Nat :=
  textLoop draw s.config s.mem s.dcl (s.u32 0) (s.u32 1) (s.s32 2) (s.u32 1) 0 (s.s32 2) (s.s32 3) s.draws

/-- TEXT (43_sprite.md R213). -/
def execText (s : State) : Host.Outcome State Fault Refusal :=
  paint (textPlan Config.draw s).1 { s with draws := (textPlan Config.draw s).2 }

end Sys2Proof.Machine
end

