-- ==== Sys2Proof/Machine/Storage.lean ====
section
/-! DEFINITION. The storage commands: CLEAR, PIXW, PIXR (40_pixel_storage.md R124 to R126). -/

namespace Sys2Proof.Machine

/-- CLEAR's writes: every `FB[i]` becomes 0x00 (40_pixel_storage.md R124). -/
def clearWrites (s : State) : List Write := (List.range s.config.fbBytes).map (fun i => .fbByte i 0)

/-- CLEAR (40_pixel_storage.md R124). -/
def execClear (s : State) : Host.Outcome State Fault Refusal := paint (clearWrites s) s

/-- PIXW's write: `PutPixelClipped(c, x, y)` with the colour given directly (40_pixel_storage.md R125). -/
def pixwWrites (s : State) : List Write :=
  putPixelClipped s.config (s.larg[2].setWidth 2) (s.s32 0) (s.s32 1)

/-- PIXW (40_pixel_storage.md R125). "c ∈ [0,3] guaranteed at issue" is asserted (log 14). -/
def execPixw (s : State) : Host.Outcome State Fault Refusal :=
  if s.u32 2 ≤ 3 then paint (pixwWrites s) s else .fault .pixwColour

/-- PIXR (40_pixel_storage.md R126): the pixel in RESULT, or 0 off the canvas. -/
def execPixr (s : State) : Host.Outcome State Fault Refusal :=
  .next { s with
    result := if inCanvas s.config (s.s32 0) (s.s32 1) then s.getPixel (s.s32 0) (s.s32 1) else 0 }

end Sys2Proof.Machine
end

