-- ==== Sys2Proof/Machine/Dispatch.lean ====
section
/-! DEFINITION. `Exec(LCMD, LARG, DCL)` of 30_encoding.md R101: one arm per command. -/

namespace Sys2Proof.Machine

def exec (i : Instr) (s : State) : Host.Outcome State Fault Refusal :=
  match i with
  | .clear => Sys2Proof.Machine.execClear s
  | .pixw => Sys2Proof.Machine.execPixw s
  | .pixr => Sys2Proof.Machine.execPixr s
  | .hline => Sys2Proof.Machine.execHline s
  | .vline => Sys2Proof.Machine.execVline s
  | .rect => Sys2Proof.Machine.execRect s
  | .oval => Sys2Proof.Machine.execOval s
  | .line => Sys2Proof.Machine.execLine s
  | .blit bpp2 flipX flipY rot => Sys2Proof.Machine.execBlit bpp2 flipX flipY rot s
  | .text => Sys2Proof.Machine.execText s

end Sys2Proof.Machine
end

