-- ==== Sys2Proof/Machine/Flags.lean ====
section
/-! DEFINITION. The status bits. The core has no condition codes (10_state.md R46): its only flags are `STATUS.BUSY`
and `STATUS.ILL`, read and written through the STATUS register (R38). -/

namespace Sys2Proof.Machine

/-- A read of STATUS: `BUSY` in bit 0, `ILL` in bit 1, bits 31:2 read 0 (10_state.md R38). -/
def State.statusWord (s : State) : Word :=
  (0 : BitVec 30) ++ BitVec.ofBool s.ill ++ BitVec.ofBool s.busy

/-- A write of STATUS: bit 1 = 1 clears `ILL`, bit 1 = 0 leaves it; every other bit is ignored (10_state.md R38). -/
def State.writeStatus (s : State) (v : Word) : State := if v.getLsbD 1 then s.clearIll else s

/-- An accepted issue sets BUSY (30_encoding.md R100). -/
def State.setBusy (s : State) : State := { s with busy := true }

/-- Completion clears BUSY (30_encoding.md R102); what a forbidden write overwrote is over with (log 11). -/
def State.endCommand (s : State) : State := { s with busy := false, overwritten := [] }

end Sys2Proof.Machine
end

