-- ==== Sys2Proof/Machine/Engine.lean ====
section
/-! DEFINITION. The Engine's completion step (30_encoding.md R102), the set S of bytes a command would write
(70_reset_and_hazards.md R261), and the outcome of a completion after a forbidden host access (R265). -/

namespace Sys2Proof.Machine

/-- The writes a command makes from a state, in order, with its `draw()` values from the oracle `draw`. -/
def writesWith (draw : Nat → Byte) (i : Instr) (s : State) : List Write :=
  match i with
  | .clear => clearWrites s
  | .pixw => pixwWrites s
  | .pixr => []
  | .hline => hlineWrites s
  | .vline => vlineWrites s
  | .rect => rectWrites s
  | .oval => ovalWrites s
  | .line => lineWrites s
  | .blit bpp2 flipX flipY rot => (blitPlan draw bpp2 flipX flipY rot s).1
  | .text => (textPlan draw s).1

/-- The writes a command makes when it executes, in order: what its meaning hands to the point writer. -/
abbrev writesOf (i : Instr) (s : State) : List Write := writesWith Config.draw i s

/-- The addresses a list of writes stores to, rising. For the writes a command would make "from the state at its issue"
these are the set S of 70_reset_and_hazards.md R261. -/
def addressesWritten (cfg : Config) (ws : List Write) : List Nat :=
  (bytesWritten cfg ws).map (fun i => cfg.fbBase + i)

/-- The addresses whose byte holds any value when a command completes after a forbidden write
(70_reset_and_hazards.md R265): S, with the draws this completion takes, and every byte so written (log 11). -/
def anyAtCompletion (i : Instr) (s : State) : List Nat :=
  addressesWritten s.config (writesOf i s.atIssue) ++ s.overwritten.map (fun x => x.1)

/-- Completion clears BUSY after the whole of Exec (30_encoding.md R102). After a forbidden write the bytes R265 names
hold any value and every other byte of memory stays as it is; RESULT and the draws are the command's own (R103). -/
def finish (i : Instr) (s : State) : Host.Outcome State Fault Refusal → Host.Outcome State Fault Refusal
  | .next t =>
    if s.overwritten = [] then .next t.endCommand
    else .next (freeBytes (anyAtCompletion i s) (t.setMem s.mem)).endCommand
  | .fault f => .fault f
  | .refused r => .refused r

/-- The Engine's one step while BUSY = 1 (30_encoding.md R102): the command latched in LCMD runs whole, on memory as it
stood at the issue (R103), and BUSY becomes 0. -/
def complete (s : State) : Host.Outcome State Fault Refusal :=
  match decode s.lcmd with
  | .error e => .fault (.latchedIllegal e)
  | .ok i => finish i s (exec i s.atIssue)

/-- The Engine's turn: its step while BUSY = 1; none is enabled while BUSY = 0 (30_encoding.md R102; 60_exceptions.md
R251: idle keeps all state). -/
def engineTurn (s : State) : Host.Outcome State Fault Refusal := if s.busy then complete s else .next s

end Sys2Proof.Machine
end

