-- ==== Sys2Proof/Machine/Bus.lean ====
section
/-! DEFINITION. The host's side: the register block (10_state.md R36 to R41), the issue step (30_encoding.md R100), byte
accesses to `Mem` while idle and while busy (70_reset_and_hazards.md R265, R271), and reset (R260, R261). -/

namespace Sys2Proof.Machine

/-- A register's offset in the block (10_state.md R36). -/
def Reg.offset : Reg → Nat
  | .cmd => 0x00
  | .status => 0x04
  | .result => 0x08
  | .reservedLow => 0x0C
  | .arg k => 0x10 + 4 * k.val
  | .reservedHigh k => 0x34 + 4 * k.val

/-- A register's host address, `REG_BASE + offset` (10_state.md R36). -/
def regAddress (c : Config) (r : Reg) : Nat := c.regBase + r.offset

/-- The register at an offset of the block; none for an offset that is not a whole word's (10_state.md R41). -/
def regAtOffset? (o : Nat) : Option Reg :=
  match o with
  | 0x00 => some .cmd
  | 0x04 => some .status
  | 0x08 => some .result
  | 0x0C => some .reservedLow
  | 0x10 => some (.arg 0)
  | 0x14 => some (.arg 1)
  | 0x18 => some (.arg 2)
  | 0x1C => some (.arg 3)
  | 0x20 => some (.arg 4)
  | 0x24 => some (.arg 5)
  | 0x28 => some (.arg 6)
  | 0x2C => some (.arg 7)
  | 0x30 => some (.arg 8)
  | 0x34 => some (.reservedHigh 0)
  | 0x38 => some (.reservedHigh 1)
  | 0x3C => some (.reservedHigh 2)
  | _ => none

/-- The register a host address names, if it names one (10_state.md R36, R41). -/
def regAtAddress? (c : Config) (a : Nat) : Option Reg :=
  if c.regBase ≤ a then regAtOffset? (a - c.regBase) else none

/-- What a host read of a register returns (10_state.md R36 to R41); no read has a side effect (20_memory.md R67). -/
def State.readReg (s : State) : Reg → Word
  | .cmd => s.cmd
  | .status => s.statusWord
  | .result => s.result.setWidth 32
  | .reservedLow => 0
  | .arg k => s.args[k]
  | .reservedHigh _ => 0

/-- What an accepted issue latches (10_state.md R42; 30_encoding.md R100). -/
def State.latch (s : State) (w : Word) : State :=
  { s with lcmd := w, larg := s.args, dcl := s.drawColours }

/-- The issue step: the host writes w to CMD (30_encoding.md R100). -/
def issue (w : Word) (s : State) : State :=
  let s1 : State := { s with cmd := w }
  if s.busy then s1.recordIll
  else if legal w s.args then (s1.latch w).setBusy
  else s1.recordIll

/-- A host write of a register (10_state.md R36 to R41). RESULT and the reserved offsets ignore it. -/
def State.writeReg (s : State) (r : Reg) (v : Word) : State :=
  match r with
  | .cmd => issue v s
  | .status => s.writeStatus v
  | .result => s
  | .reservedLow => s
  | .arg k => { s with args := s.args.set k v }
  | .reservedHigh _ => s

/-- `a` is in the source range `[ptr, ptr + len)` of a running BLIT or TEXT (70_reset_and_hazards.md R265). -/
def inSource (s : State) (a : Nat) : Bool :=
  match decode s.lcmd with
  | .ok (.blit _ _ _ _) => decide (s.u32 0 ≤ a ∧ a < s.u32 0 + s.u32 1)
  | .ok .text => decide (s.u32 0 ≤ a ∧ a < s.u32 0 + s.u32 1)
  | .ok _ => false
  | .error _ => false

/-- A host write of `a` that the single-owner rule forbids (70_reset_and_hazards.md R265): while BUSY = 1, a byte of
the pixel storage or of the running command's source range. -/
def forbiddenWrite (s : State) (a : Nat) : Bool := s.busy && (decide (inStorage s.config a) || inSource s a)

/-- A host read of `a` that the single-owner rule forbids (70_reset_and_hazards.md R265). -/
def forbiddenRead (s : State) (a : Nat) : Bool := s.busy && decide (inStorage s.config a)

/-- Note a forbidden write of `a` (70_reset_and_hazards.md R265): the byte as it stood at the issue is kept, the first
time `a` is written (log 11). -/
def State.noteOverwrite (s : State) (a : Nat) : State :=
  match memGet? s.overwritten a with
  | some _ => s
  | none => { s with overwritten := memSet s.overwritten a (s.readByte a) }

/-- A host write of a byte of `Mem` (70_reset_and_hazards.md R271, R265). -/
def hostMemWrite (a : Nat) (v : Byte) (s : State) : Host.Outcome State Fault Refusal :=
  if a < s.config.memSize then
    if forbiddenWrite s a then .next ((s.noteOverwrite a).writeByte a v) else .next (s.writeByte a v)
  else .fault (.noSuchAddress a)

/-- A host read of a byte of `Mem`: the byte, or any value where the read is forbidden (70_reset_and_hazards.md R265,
R271). -/
def hostMemRead (a : Nat) (s : State) : Host.Outcome State Fault Refusal :=
  if a < s.config.memSize then
    if forbiddenRead s a then
      .next { s with readData := (Config.freeByte s.frees).setWidth 32, frees := s.frees + 1 }
    else .next { s with readData := (s.readByte a).setWidth 32 }
  else .fault (.noSuchAddress a)

/-- One host step. -/
def hostTurn (act : HostAction) (s : State) : Host.Outcome State Fault Refusal :=
  match act with
  | .regRead r => .next { s with readData := s.readReg r }
  | .regWrite r v => .next (s.writeReg r v)
  | .memRead a => hostMemRead a s
  | .memWrite a v => hostMemWrite a v s

/-- S of the command a reset abandons (70_reset_and_hazards.md R261): what it would have written from the state at its
issue. Which values its `draw()` would have given is open, and no completion takes them (30_encoding.md R103), so they
are this reset's own, `Config.abandonedDraw`; `State.draws` is neither read for them nor advanced (DESIGN CHOICE,
log 25). -/
def abandoned (s : State) : List Nat :=
  if s.busy then
    match decode s.lcmd with
    | .ok i => addressesWritten s.config (writesWith (Config.abandonedDraw s.resets) i s.atIssue)
    | .error _ => []
  else []

/-- Every register and latch at its reset value (10_state.md R48; 70_reset_and_hazards.md R260), `Mem` as it is, and
one more reset counted (log 25). -/
def State.resetRegisters (s : State) : State :=
  { s with
    cmd := 0, busy := false, ill := false, result := 0, args := Vector.replicate 9 0,
    lcmd := 0, larg := Vector.replicate 9 0, dcl := 0, overwritten := [], resets := s.resets + 1 }

/-- A reset (70_reset_and_hazards.md R260, R261): the running command is abandoned, each byte of S holds any value, and
every other byte of `Mem` is unchanged, a byte that a forbidden write changed among them (log 22). -/
def resetTurn (s : State) : State := (freeBytes (abandoned s) s).resetRegisters

end Sys2Proof.Machine
end

