-- ==== Sys2Proof/Machine/Step.lean ====
section
/-! DEFINITION. One step of the machine: the next turn of the environment, or, when it has none left, the Engine's own
(log 8), and how a command word is placed so that the very next step runs it (log 9). -/

namespace Sys2Proof.Machine

/-- The turn is being taken. -/
def State.takeTurn (s : State) (ts : List Turn) : State := { s with turns := ts }

/-- One turn (10_state.md R30; 70_reset_and_hazards.md R260). -/
def runTurn (t : Turn) (s : State) : Host.Outcome State Fault Refusal :=
  match t with
  | .engine => engineTurn s
  | .host act => hostTurn act s
  | .reset => .next (resetTurn s)

/-- One step. A configuration that breaks 00_scope.md R7 is rejected. With no turn left the Engine completes what it
runs (70_reset_and_hazards.md R269: "The completion step is eventually taken"); idle with no turn left, nothing
happens (60_exceptions.md R251). -/
def step (s : State) : Host.Outcome State Fault Refusal :=
  if s.config.wf then
    match s.turns with
    | [] => engineTurn s
    | t :: ts => runTurn t (s.takeTurn ts)
  else .refused .badConfiguration

/-- `s` with the command word w accepted and about to run: it stands in LCMD, BUSY is 1, no forbidden write has been
made, and the Engine's turn is next, so `step` runs exactly it, on the operands and draw colours latched in `s` (log 9). -/
def State.withFetchWord (s : State) (nbits w : Nat) : State :=
  { s with
    lcmd := BitVec.ofNat 32 (w % 2 ^ nbits), busy := true, overwritten := [], turns := .engine :: s.turns }

end Sys2Proof.Machine
end

