-- ==== Sys2Proof/Machine/HostProgram.lean ====
section
/-! DEFINITION. The spec's host notation as turns of the environment: the assembler lines of 30_encoding.md R98 and the
pseudo-instructions of R99. -/

namespace Sys2Proof.Machine

/-- `SETDC v` (R99): the two bytes of DRAW_COLORS, low byte first. -/
def setDc (c : Config) (v : DrawColours) : List Turn :=
  [.host (.memWrite c.dcAddr (v.setWidth 8)), .host (.memWrite (c.dcAddr + 1) ((v >>> 8).setWidth 8))]

/-- `POKE a, v` (R99). -/
def poke (a : Nat) (v : Byte) : List Turn := [.host (.memWrite a v)]

/-- `WAIT` (R99): the host polls STATUS until bit 0 is 0. Seen from the machine, the Engine takes its step and the last
poll reads BUSY = 0 (log 23). -/
def waitIdle : List Turn := [.engine, .host (.regRead .status)]

/-- `CLRILL` (R99). -/
def clrIll : List Turn := [.host (.regWrite .status 0x00000002)]

/-- `ISSUE w` (R99). -/
def issueWord (w : Word) : List Turn := [.host (.regWrite .cmd w)]

/-- The operand writes of a command line: `ARG[0]`, `ARG[1]`, … in order (R98). -/
def writeOperands (vs : List Int) : List Turn :=
  (vs.zip (List.finRange 9)).map (fun p => .host (.regWrite (.arg p.2) (BitVec.ofInt 32 p.1)))

/-- A command line of R98 as a host statement: the operands, the command word, WAIT. -/
def commandLine (i : Instr) (vs : List Int) : List Turn :=
  writeOperands vs ++ issueWord (encode i) ++ waitIdle

end Sys2Proof.Machine
end

