-- ==== Sys2Proof/Safety.lean ====
section
/-! DEFINITION. What a safe run is: the invariant of the machine, and which turns the environment may hand it. -/

namespace Sys2Proof.Machine

/-- Every listed address exists (00_scope.md R12: `0 ≤ a < MEM_SIZE`). -/
abbrev Memory.within (m : Memory) (n : Nat) : Prop := ∀ x ∈ m, x.1 < n

/-- The machine's invariant: an accepted configuration (00_scope.md R7); memory in canonical form and inside
`MEM_SIZE` (R12); while BUSY = 1 the latched word is legal with the latched operands (30_encoding.md R100, R101); the
overwritten bytes are listed in canonical form, exist, and there are none while the Engine is idle (log 11). -/
structure Inv (s : State) : Prop where
  config : s.config.wf = true
  canonical : Memory.wf s.mem
  within : Memory.within s.mem s.config.memSize
  latched : s.busy = true → legal s.lcmd s.larg = true
  overwrittenCanonical : Memory.wf s.overwritten
  overwrittenWithin : Memory.within s.overwritten s.config.memSize
  overwrittenIdle : s.busy = false → s.overwritten = []

/-- A turn that names only addresses that exist (00_scope.md R12). -/
def Turn.addressExists (c : Config) : Turn → Prop
  | .engine => True
  | .reset => True
  | .host (.regRead _) => True
  | .host (.regWrite _ _) => True
  | .host (.memRead a) => a < c.memSize
  | .host (.memWrite a _) => a < c.memSize

/-- The next turn, if there is one, names only addresses that exist. -/
def State.nextTurnExists (s : State) : Prop := ∀ t ∈ s.turns.head?, t.addressExists s.config

/-- A state from which the next step goes on: no fault and no refusal. -/
def Goes (s : State) : Prop := ∃ t, step s = .next t

/-- A safe run: every step of it goes on. -/
def SafeFor : Nat → State → Prop
  | 0, _ => True
  | n + 1, s => ∃ t, step s = .next t ∧ SafeFor n t

end Sys2Proof.Machine
end

