-- ==== Sys2Proof/Certificates/Slice0/Obligations.lean ====
section
/-! DEFINITION. The statements for the provers. Each docstring names the rule of spec/ it formalises; a statement that
rests on a choice of the model names the log entry. -/

open Sys2Proof Sys2Proof.Machine

/-! ### The command word (30_encoding.md) -/

/-- R90, R91, R92: words written out from the opcode table and the flag bits, and the reserved opcodes. -/
def Obligations.OpcodeTableWordsDecode : Prop :=
  decode 0x00000001 = .ok .clear ∧ decode 0x00000002 = .ok .pixw ∧ decode 0x00000003 = .ok .pixr ∧
  decode 0x00000004 = .ok .hline ∧ decode 0x00000005 = .ok .vline ∧ decode 0x00000006 = .ok .rect ∧
  decode 0x00000007 = .ok .oval ∧ decode 0x00000008 = .ok .line ∧
  decode 0x00000009 = .ok (.blit false false false false) ∧ decode 0x0000000A = .ok .text ∧
  decode 0x00000019 = .ok (.blit true false false false) ∧ decode 0x00000029 = .ok (.blit false true false false) ∧
  decode 0x00000049 = .ok (.blit false false true false) ∧ decode 0x00000089 = .ok (.blit false false false true) ∧
  decode 0x00000000 = .error .reservedOpcode ∧ decode 0x0000000B = .error .reservedOpcode ∧
  decode 0x0000000F = .error .reservedOpcode ∧ decode 0x00000014 = .error .flagOnOtherCommand ∧
  decode 0x80000001 = .error .reservedBits

/-- R90, R91: the decoder reads a command from exactly one word, the one the encoder writes, flags included. -/
def Obligations.DecodeAndEncodeAgree : Prop :=
  ∀ (w : Word) (i : Instr), decode w = .ok i ↔ w = encode i

/-- R96: the legal words, in plain arithmetic on the word, and what an illegal issue does. -/
def Obligations.LegalWordsExactly : Prop :=
  (∀ (w : Word) (a : Operands), legal w a = true ↔
    (w.toNat / 256 = 0 ∧ 1 ≤ w.toNat % 16 ∧ w.toNat % 16 ≤ 10 ∧
      (w.toNat % 16 = 9 ∨ w.toNat / 16 % 16 = 0) ∧ (w.toNat % 16 ≠ 2 ∨ a[2].toNat ≤ 3))) ∧
  (∀ (s : State) (w : Word), s.busy = false → legal w s.args = false →
    hostTurn (.regWrite .cmd w) s = .next { s with cmd := w, ill := true })

/-- R96, R101: a word is legal exactly when it decodes to a command that is well-formed with the operands. -/
def Obligations.LegalMeansDecodesWellFormed : Prop :=
  ∀ (w : Word) (a : Operands), legal w a = true ↔ ∃ i, decode w = .ok i ∧ i.wellFormed a = true

/-! ### Issue and the register block (10_state.md, 30_encoding.md, 60_exceptions.md) -/

/-- R100: the issue step, all three cases. -/
def Obligations.CmdWriteIssues : Prop :=
  ∀ (s : State) (w : Word), hostTurn (.regWrite .cmd w) s = .next
    (if s.busy then { s with cmd := w, ill := true }
     else if legal w s.args then
       { s with
         cmd := w, lcmd := w, larg := s.args,
         dcl := s.readByte (s.config.dcAddr + 1) ++ s.readByte s.config.dcAddr, busy := true }
     else { s with cmd := w, ill := true })

/-- R241: the rows of the ILL table, and that no command raises ILL during execution. -/
def Obligations.IllIsSetExactlyWhen : Prop :=
  (∀ (s : State) (w : Word), s.ill = false → ∃ t, hostTurn (.regWrite .cmd w) s = .next t ∧
    (t.ill = true ↔
      (s.busy = true ∨ (w.toNat % 16 = 0 ∨ 11 ≤ w.toNat % 16) ∨ w.toNat / 256 ≠ 0 ∨
       (w.toNat % 16 ≠ 9 ∧ w.toNat / 16 % 16 ≠ 0) ∨ (w.toNat % 16 = 2 ∧ 3 < s.args[2].toNat)))) ∧
  (∀ (i : Instr) (s t : State), exec i s = .next t → t.ill = s.ill)

/-- R242: a rejected issue changes CMD and ILL and nothing else, and ILL stays until a STATUS write with bit 1 = 1 or a
reset. -/
def Obligations.IllIsStickyAndChangesNothingElse : Prop :=
  (∀ (s : State) (w : Word), (s.busy = true ∨ legal w s.args = false) →
    hostTurn (.regWrite .cmd w) s = .next { s with cmd := w, ill := true }) ∧
  (∀ s t : State, step s = .next t → s.ill = true → t.ill = false →
    ∃ ts, s.turns = .reset :: ts ∨ ∃ v : Word, v.getLsbD 1 = true ∧ s.turns = .host (.regWrite .status v) :: ts)

/-- R38 (the STATUS fields): a read shows BUSY in bit 0, ILL in bit 1 and 0 above; a write clears ILL exactly when its
bit 1 is 1 and does nothing else; completing a command clears BUSY and never ILL. -/
def Obligations.StatusReadsAndWrites : Prop :=
  (∀ s : State, ∃ t, hostTurn (.regRead .status) s = .next t ∧ t = { s with readData := t.readData } ∧
    t.readData.getLsbD 0 = s.busy ∧ t.readData.getLsbD 1 = s.ill ∧ ∀ k, 2 ≤ k → t.readData.getLsbD k = false) ∧
  (∀ (s : State) (v : Word), hostTurn (.regWrite .status v) s = .next { s with ill := s.ill && !v.getLsbD 1 }) ∧
  (∀ s t : State, complete s = .next t → t.busy = false ∧ t.ill = s.ill)

/-- R36, R37, R39, R40: what a read of each register returns; no read has another effect (20_memory.md R67). -/
def Obligations.RegisterReadsReturn : Prop :=
  ∀ (s : State) (r : Reg), ∃ t, hostTurn (.regRead r) s = .next t ∧ t = { s with readData := t.readData } ∧
    (r = .cmd → t.readData = s.cmd) ∧
    (r = .result → t.readData.toNat = s.result.toNat) ∧
    (∀ k, r = .arg k → t.readData = s.args[k]) ∧
    ((r = .reservedLow ∨ ∃ k, r = .reservedHigh k) → t.readData = 0)

/-- R41: every access is an aligned word of the 64-byte block, and the reserved offsets read 0 and ignore writes. -/
def Obligations.ReservedOffsetsAreInert : Prop :=
  (∀ r : Reg, r.offset % 4 = 0 ∧ r.offset < 64) ∧
  (∀ o : Nat, (o = 0x0C ∨ o = 0x34 ∨ o = 0x38 ∨ o = 0x3C) → ∃ r, regAtOffset? o = some r ∧
    ∀ (s : State) (v : Word), hostTurn (.regWrite r v) s = .next s ∧
      hostTurn (.regRead r) s = .next { s with readData := 0 })

/-- R40: an ARG write stores the word in that register alone, a RESULT write stores nothing (R36). -/
def Obligations.ArgWriteStoresOneRegister : Prop :=
  (∀ (s : State) (k : Fin 9) (v : Word), ∃ t, hostTurn (.regWrite (.arg k) v) s = .next t ∧
    t = { s with args := t.args } ∧ t.args[k] = v ∧ ∀ j : Fin 9, j ≠ k → t.args[j] = s.args[j]) ∧
  (∀ (s : State) (v : Word), hostTurn (.regWrite .result v) s = .next s)

/-- R36: the offsets of the register table, and a host address names a register exactly when it is REG_BASE plus that
register's offset. -/
def Obligations.RegisterAddressesAreExact : Prop :=
  ∀ c : Config, (∀ (a : Nat) (r : Reg), regAtAddress? c a = some r ↔ a = regAddress c r) ∧
    regAddress c .cmd = c.regBase + 0x00 ∧ regAddress c .status = c.regBase + 0x04 ∧
    regAddress c .result = c.regBase + 0x08 ∧ regAddress c .reservedLow = c.regBase + 0x0C ∧
    (∀ k : Fin 9, regAddress c (.arg k) = c.regBase + 0x10 + 4 * k.val) ∧
    (∀ k : Fin 3, regAddress c (.reservedHigh k) = c.regBase + 0x34 + 4 * k.val)

/-! ### Draw colours and pixels (41_draw_color.md, 20_memory.md, 40_pixel_storage.md) -/

/-- R140, R142: a role nibble is `(v >> (4*i)) & 0xF`, its colour `(n - 1) & 3`, wrapping for 5 to 15, and the formula
gives 3 for the nibble 0. -/
def Obligations.DrawColourDecode : Prop :=
  (∀ (v : DrawColours) (i : Nat), i < 4 → (nibble v i).toNat = v.toNat / 16 ^ i % 16) ∧
  (∀ n : Nibble, n ≠ 0 → (colour n).toNat = (n.toNat - 1) % 4) ∧ colour 0 = 3

/-- R127: point write round trip. -/
def Obligations.PointWriteRoundTrip : Prop :=
  ∀ (cfg : Config) (m : Memory) (c : Colour) (x y : Int), cfg.wf = true → inCanvas cfg x y →
    pixelAt cfg (applyWrite cfg m (.pixel c x y)) x y = c ∧
    (∀ x' y' : Int, inCanvas cfg x' y' → ¬ (x' = x ∧ y' = y) →
      pixelAt cfg (applyWrite cfg m (.pixel c x y)) x' y' = pixelAt cfg m x' y') ∧
    (∀ a : Nat, a ≠ cfg.fbBase + pixByte cfg x y → memRead (applyWrite cfg m (.pixel c x y)) a = memRead m a)

/-! ### The storage commands (40_pixel_storage.md) -/

/-- R124, R128: CLEAR's word is 0x00000001 and no other word with its opcode is legal; CLEAR completes, zero-fills the
pixel storage, and touches nothing else. -/
def Obligations.ClearZeroFillsStorage : Prop :=
  decode 0x00000001 = .ok .clear ∧
  (∀ (w : Word) (a : Operands), w.toNat % 16 = 1 → w.toNat / 16 ≠ 0 → legal w a = false) ∧
  ∀ s : State, s.config.wf = true → ∃ t, exec .clear s = .next t ∧ t = { s with mem := t.mem } ∧
    (∀ a, t.readByte a = if inStorage s.config a then 0 else s.readByte a) ∧
    (∀ x y : Int, inCanvas s.config x y → t.getPixel x y = 0)

/-- R125: PIXW's word is 0x00000002, and with a colour above 3 it is not legal; with a colour at most 3 it completes; on
the canvas it sets that pixel and no other and stores to that pixel's byte alone; off the canvas nothing changes. -/
def Obligations.PixwSetsOnePixel : Prop :=
  decode 0x00000002 = .ok .pixw ∧ (∀ a : Operands, 3 < a[2].toNat → legal 0x00000002 a = false) ∧
  ∀ s : State, s.config.wf = true → s.larg[2].toNat ≤ 3 →
    ∃ t, exec .pixw s = .next t ∧ t = { s with mem := t.mem } ∧
      (¬ inCanvas s.config s.larg[0].toInt s.larg[1].toInt → t = s) ∧
      (inCanvas s.config s.larg[0].toInt s.larg[1].toInt →
        (t.getPixel s.larg[0].toInt s.larg[1].toInt).toNat = s.larg[2].toNat ∧
        (∀ px py : Int, inCanvas s.config px py → ¬ (px = s.larg[0].toInt ∧ py = s.larg[1].toInt) →
          t.getPixel px py = s.getPixel px py) ∧
        (∀ a, a ≠ s.config.fbBase + pixByte s.config s.larg[0].toInt s.larg[1].toInt →
          t.readByte a = s.readByte a))

/-- The model's choice, log 14 (R96 keeps such a word from being issued): PIXW with a colour above 3 in the latch stops
by name. -/
def Obligations.PixwColourAboveThreeStops : Prop :=
  ∀ s : State, 3 < s.larg[2].toNat → exec .pixw s = .fault .pixwColour

/-- R126: PIXR's word is 0x00000003; it completes and puts the pixel, or 0 off the canvas, in RESULT; nothing else
changes. -/
def Obligations.PixrReadsOnePixel : Prop :=
  decode 0x00000003 = .ok .pixr ∧ ∀ s : State, ∃ t, exec .pixr s = .next t ∧ t = { s with result := t.result } ∧
    (inCanvas s.config s.larg[0].toInt s.larg[1].toInt →
      t.result = s.getPixel s.larg[0].toInt s.larg[1].toInt) ∧
    (¬ inCanvas s.config s.larg[0].toInt s.larg[1].toInt → t.result = 0)

/-! ### The shapes (42_shapes.md) -/

/-- R151: the byte-aligned run fill gives the same storage as the naive loop, for every argument that meets R150's
precondition. -/
def Obligations.RunFastEqualsRun : Prop :=
  ∀ (cfg : Config) (m : Memory) (c : Colour) (sx y ex : Int), cfg.wf = true →
    (sx < ex → 0 ≤ y ∧ y < cfg.height ∧ 0 ≤ sx ∧ ex ≤ cfg.width) →
    ∀ a, memRead (applyWrites cfg (runFast cfg c sx y ex) m) a = memRead (applyWrites cfg (run c sx y ex) m) a

/-- R153: HLINE's word is 0x00000004; it completes; the pixels of the clipped span take dc0's colour, every other pixel
and byte keeps its value; dc0 = 0 draws nothing. -/
def Obligations.HlineDrawsClippedSpan : Prop :=
  decode 0x00000004 = .ok .hline ∧ ∀ s : State, s.config.wf = true → ∃ t, exec .hline s = .next t ∧ t = { s with mem := t.mem } ∧
    (∀ a, ¬ inStorage s.config a → t.readByte a = s.readByte a) ∧
    ∀ px py : Int, inCanvas s.config px py → t.getPixel px py =
      if nibble s.dcl 0 ≠ 0 ∧ py = s.larg[1].toInt ∧ s.larg[0].toInt ≤ px ∧
          px < s.larg[0].toInt + s.larg[2].toInt
      then colour (nibble s.dcl 0) else s.getPixel px py

/-- R154: VLINE's word is 0x00000005; it completes; the pixels of the clipped column take dc0's colour, every other
pixel and byte keeps its value; dc0 = 0 draws nothing. -/
def Obligations.VlineDrawsClippedColumn : Prop :=
  decode 0x00000005 = .ok .vline ∧ ∀ s : State, s.config.wf = true → ∃ t, exec .vline s = .next t ∧ t = { s with mem := t.mem } ∧
    (∀ a, ¬ inStorage s.config a → t.readByte a = s.readByte a) ∧
    ∀ px py : Int, inCanvas s.config px py → t.getPixel px py =
      if nibble s.dcl 0 ≠ 0 ∧ px = s.larg[0].toInt ∧ s.larg[1].toInt ≤ py ∧
          py < s.larg[1].toInt + s.larg[2].toInt
      then colour (nibble s.dcl 0) else s.getPixel px py

/-- R155, R157 to R159: RECT's word is 0x00000006; it completes; under both values of both parameters each canvas pixel
is stroke, else fill, else unchanged, by the plain description of edges and filled box. -/
def Obligations.RectDrawsFillAndStroke : Prop :=
  decode 0x00000006 = .ok .rect ∧ ∀ s : State, s.config.wf = true →
    ∃ t, exec .rect s = .next t ∧ t = { s with mem := t.mem } ∧
    (∀ a, ¬ inStorage s.config a → t.readByte a = s.readByte a) ∧
    ∀ px py x y x1 y1 off vEnd : Int, inCanvas s.config px py →
      x = s.larg[0].toInt → y = s.larg[1].toInt →
      x1 = x + s.larg[2].toInt → y1 = y + s.larg[3].toInt →
      off = (if nibble s.dcl 1 ≠ 0 then 1 else 0) →
      vEnd = (if s.config.rectVedgeExcludeLast then min y1 s.config.height - 1 else min y1 s.config.height) →
      t.getPixel px py =
        if nibble s.dcl 1 ≠ 0 ∧ x < x1 ∧ y < y1 ∧ x ≤ px ∧ px < x1 ∧ y ≤ py ∧ py < y1 ∧
            (((px = x ∨ px = x1 - 1) ∧ py < vEnd) ∨ py = y ∨ py = y1 - 1)
        then colour (nibble s.dcl 1)
        else if nibble s.dcl 0 ≠ 0 ∧ x < x1 ∧ y < y1 ∧
            (if s.config.rectInsetAfterClamp then
              max 0 x + off ≤ px ∧ px < min x1 s.config.width - off ∧
              max 0 y + off ≤ py ∧ py < min y1 s.config.height - off
             else x + off ≤ px ∧ px < x1 - off ∧ y + off ≤ py ∧ py < y1 - off)
        then colour (nibble s.dcl 0)
        else s.getPixel px py

/-- R160: no pixel gets both a fill write and a stroke write. -/
def Obligations.RectFillAndStrokeAreDisjoint : Prop :=
  ∀ (cfg : Config) (n0 n1 : Nibble) (x y width height px py : Int) (c c' : Colour),
    Write.pixel c px py ∈ rectFill cfg n0 n1 (rectBounds cfg x y width height) →
    Write.pixel c' px py ∉ rectStroke cfg n1 (rectBounds cfg x y width height)

/-- R161, R162, R163: OVAL changes nothing under the sentinel dc1 = 0xF or when a semi-axis is not positive; otherwise it
completes with the writes of the two-region ellipse of R161, all on the canvas, in
order; semi-axes `width >> 1` and `height >> 1`, centre (x + a, y + b), stroke from dc1 by the bare formula (dc1 = 0
strokes colour 3, R146), fill from dc0. -/
def Obligations.OvalDrawsEllipse : Prop :=
  (∀ s : State, (nibble s.dcl 1 = 0xF ∨ s.larg[2].toInt < 2 ∨ s.larg[3].toInt < 2) → exec .oval s = .next s) ∧
  ∀ (s : State) (o : OvalShape), nibble s.dcl 1 ≠ 0xF → 2 ≤ s.larg[2].toInt → 2 ≤ s.larg[3].toInt →
    o = { stroke := colour (nibble s.dcl 1), fill := colour (nibble s.dcl 0), filled := decide (nibble s.dcl 0 ≠ 0),
          x0 := s.larg[0].toInt + s.larg[2].toInt / 2, y0 := s.larg[1].toInt + s.larg[3].toInt / 2,
          a := s.larg[2].toInt / 2, b := s.larg[3].toInt / 2 } →
    (∀ w ∈ ellipse s.config o, ∃ c px py, w = .pixel c px py ∧ inCanvas s.config px py) ∧
    exec .oval s = .next { s with mem := applyWrites s.config (ellipse s.config o) s.mem }

/-- R161 (its worked images, wherever they are placed), R165 (1): OVAL x, y, 4, 4 with both roles drawn is the 5 × 5 disc,
its outline dc1's colour, its 3 × 3 interior dc0's, the four corners untouched; OVAL x, y, 6, 4 is the 7 × 5 ellipse,
where the pixels two columns left and right of the centre in the rows beside it, filled first and stroked later, keep the
stroke. Everything else is untouched. Rests on the ellipse loop of log 20. -/
def Obligations.OvalOfFourIsTheDisc : Prop :=
  ∀ s : State, s.config.wf = true → nibble s.dcl 1 ≠ 0xF → nibble s.dcl 0 ≠ 0 →
    (s.larg[2] = 4 → s.larg[3] = 4 →
      ∃ t, exec .oval s = .next t ∧ t = { s with mem := t.mem } ∧
        ∀ px py i j : Int, inCanvas s.config px py → i = px - s.larg[0].toInt - 2 → j = py - s.larg[1].toInt - 2 →
          t.getPixel px py =
            if -2 ≤ i ∧ i ≤ 2 ∧ -2 ≤ j ∧ j ≤ 2 ∧ ¬ ((i = 2 ∨ i = -2) ∧ (j = 2 ∨ j = -2)) then
              if i = 2 ∨ i = -2 ∨ j = 2 ∨ j = -2 then colour (nibble s.dcl 1) else colour (nibble s.dcl 0)
            else s.getPixel px py) ∧
    (s.larg[2] = 6 → s.larg[3] = 4 →
      ∃ t, exec .oval s = .next t ∧ t = { s with mem := t.mem } ∧
        ∀ px py i j : Int, inCanvas s.config px py → i = px - s.larg[0].toInt - 3 → j = py - s.larg[1].toInt - 2 →
          t.getPixel px py =
            if ((j = 2 ∨ j = -2) ∧ -1 ≤ i ∧ i ≤ 1) ∨ ((j = 1 ∨ j = -1) ∧ (i = 2 ∨ i = 3 ∨ i = -2 ∨ i = -3)) ∨
                (j = 0 ∧ (i = 3 ∨ i = -3)) then colour (nibble s.dcl 1)
            else if ((j = 1 ∨ j = -1) ∧ -1 ≤ i ∧ i ≤ 1) ∨ (j = 0 ∧ -2 ≤ i ∧ i ≤ 2) then colour (nibble s.dcl 0)
            else s.getPixel px py)

/-- R165 (2): the image of an OVAL is symmetric about its centre column and about its centre row: two canvas pixels that
mirror each other and held the same colour before hold the same colour after. -/
def Obligations.OvalIsSymmetric : Prop :=
  ∀ s t : State, s.config.wf = true → exec .oval s = .next t →
    ∀ px py qx qy : Int, inCanvas s.config px py → inCanvas s.config qx qy →
      ((qx = 2 * (s.larg[0].toInt + s.larg[2].toInt / 2) - px ∧ qy = py) ∨
       (qx = px ∧ qy = 2 * (s.larg[1].toInt + s.larg[3].toInt / 2) - py)) →
      s.getPixel px py = s.getPixel qx qy → t.getPixel px py = t.getPixel qx qy

/-- R270: both OVAL loops end within the model's fuel (log 19): any more fuel gives the same writes. -/
def Obligations.OvalLoopsEnd : Prop :=
  ∀ (cfg : Config) (o : OvalShape) (k : Nat), 0 < o.a → 0 < o.b →
    ovalRegion1 cfg o (ovalFuel1 o + k) o.a 0 ((1 - 2 * o.a) * o.b * o.b) (o.a * o.a) (o.bb2 * o.a) 0 0 =
      ovalRegion1 cfg o (ovalFuel1 o) o.a 0 ((1 - 2 * o.a) * o.b * o.b) (o.a * o.a) (o.bb2 * o.a) 0 0 ∧
    ovalRegion2 cfg o (ovalFuel2 o + k) 0 o.b (o.b * o.b) ((1 - 2 * o.b) * o.a * o.a) 0 (o.aa2 * o.b) 0 0 =
      ovalRegion2 cfg o (ovalFuel2 o) 0 o.b (o.b * o.b) ((1 - 2 * o.b) * o.a * o.a) 0 (o.aa2 * o.b) 0 0

/-- R166, R168 (1, 2), R270: LINE's loop visits exactly `max(|x2 - x1|, |y2 - y1|) + 1` points, all distinct, from the upper
endpoint (xa, ya) to the lower one (xb, yb), and each step moves x by at most 1 and y by 0 or +1. The k-th point is the
one R166's error rule picks: with dx = |xb - xa|, dy = yb - ya, its error `E = E₀ - 2*dy*(x steps) + 2*dx*(y steps)`
stays in `[0, 2*dx)` from `E₀ = dx` when dx > dy, where every step moves x, and in `(-2*dy, 0]` from `E₀ = -dy` when not,
where every step moves y. -/
def Obligations.LineWalksBetweenEndpoints : Prop :=
  ∀ x1 y1 x2 y2 xa ya xb yb dx dy sx : Int,
    ((y1 ≤ y2 ∧ xa = x1 ∧ ya = y1 ∧ xb = x2 ∧ yb = y2) ∨ (y2 < y1 ∧ xa = x2 ∧ ya = y2 ∧ xb = x1 ∧ yb = y1)) →
    dx = |xb - xa| → dy = yb - ya → sx = (xb - xa).sign →
    (∀ (k : Nat) (p q : Int × Int),
      (linePoints x1 y1 x2 y2)[k]? = some p → (linePoints x1 y1 x2 y2)[k + 1]? = some q →
      (q.1 - p.1).natAbs ≤ 1 ∧ (q.2 = p.2 ∨ q.2 = p.2 + 1)) ∧
    (linePoints x1 y1 x2 y2).length = max (x2 - x1).natAbs (y2 - y1).natAbs + 1 ∧
    (linePoints x1 y1 x2 y2).Nodup ∧
    (linePoints x1 y1 x2 y2).head? = some (xa, ya) ∧ (linePoints x1 y1 x2 y2).getLast? = some (xb, yb) ∧
    (∀ (k : Nat) (x y : Int), (linePoints x1 y1 x2 y2)[k]? = some (x, y) →
      (dy < dx → x = xa + sx * k ∧ 0 ≤ dx - 2 * dy * k + 2 * dx * (y - ya) ∧
        dx - 2 * dy * k + 2 * dx * (y - ya) < 2 * dx) ∧
      (dx ≤ dy → y = ya + k ∧ ∃ m : Nat, x = xa + sx * m ∧
        (0 < dy → -(2 * dy) < -dy - 2 * dy * m + 2 * dx * k ∧ -dy - 2 * dy * m + 2 * dx * k ≤ 0)))

/-- R166: LINE completes; a canvas pixel takes dc0's colour exactly when the loop visits it, and every other pixel and
byte keeps its value. -/
def Obligations.LineDrawsItsPoints : Prop :=
  ∀ s : State, s.config.wf = true → ∃ t, exec .line s = .next t ∧ t = { s with mem := t.mem } ∧
    (∀ a, ¬ inStorage s.config a → t.readByte a = s.readByte a) ∧
    ∀ px py : Int, inCanvas s.config px py → t.getPixel px py =
      if nibble s.dcl 0 ≠ 0 ∧
          (px, py) ∈ linePoints s.larg[0].toInt s.larg[1].toInt s.larg[2].toInt s.larg[3].toInt
      then colour (nibble s.dcl 0) else s.getPixel px py

/-! ### The sprite blitter (43_sprite.md) -/

/-- R200 to R210, written out: BLIT completes, changes nothing but the pixel storage and the count of draw() evaluations,
and leaves every canvas pixel outside the destination rectangle alone. At each canvas pixel of that rectangle, for local
coordinates (u, v): the clip bounds (R201, R202), the mirrored column and row under each reading (R203, R205), the linear
index `p = sy*srcStride + sx` and its byte (R206), the sample MSB first (R207, R208), and the colour of the nibble it
selects, or the pixel kept when that nibble is 0 (R209), wherever the source byte is read from memory (R78). -/
def Obligations.BlitSamplesTheSprite : Prop :=
  ∀ (bpp2 flipX flipY rot : Bool) (s : State) (ptr len : Nat) (dstX dstY width height srcX srcY srcStride : Int),
    s.config.wf = true → ptr = s.larg[0].toNat → len = s.larg[1].toNat → dstX = s.larg[2].toInt →
    dstY = s.larg[3].toInt → width = s.larg[4].toInt → height = s.larg[5].toInt → srcX = s.larg[6].toInt →
    srcY = s.larg[7].toInt → srcStride = s.larg[8].toInt →
    ∃ t, exec (.blit bpp2 flipX flipY rot) s = .next t ∧ t = { s with mem := t.mem, draws := t.draws } ∧
      (∀ a, ¬ inStorage s.config a → t.readByte a = s.readByte a) ∧
      (∀ px py : Int, inCanvas s.config px py →
        ¬ (dstX ≤ px ∧ px < dstX + (if rot then height else width) ∧
           dstY ≤ py ∧ py < dstY + (if rot then width else height)) →
        t.getPixel px py = s.getPixel px py) ∧
      (∀ (u v tx ty cxMin cxMax cyMin cyMax col row p k : Int) (byte : Byte) (idx nib : Nat),
        0 ≤ u → u < width → 0 ≤ v → v < height →
        tx = dstX + (if rot then v else u) → ty = dstY + (if rot then u else v) → inCanvas s.config tx ty →
        cxMin = (if rot then max 0 dstY - dstY else max 0 dstX - dstX) →
        cxMax = (if rot then min width (s.config.height - dstY) else min width (s.config.width - dstX)) →
        cyMin = (if rot then max 0 dstX - dstX else max 0 dstY - dstY) →
        cyMax = (if rot then min height (s.config.width - dstX) else min height (s.config.height - dstY)) →
        col = (if flipX = rot then u else match s.config.flipMirror with
          | .clipRange => cxMin + cxMax - 1 - u
          | .clipMax => cxMax - 1 - u
          | .full => width - 1 - u) →
        row = (if flipY then match s.config.flipMirror with
          | .clipRange => cyMin + cyMax - 1 - v
          | .clipMax => cyMax - 1 - v
          | .full => height - 1 - v
          else v) →
        p = (srcY + row) * srcStride + (srcX + col) →
        k = (if bpp2 then p / 4 else p / 8) →
        0 ≤ k → k < len → ptr + k < s.config.memSize →
        ¬ (s.config.fbBase ≤ ptr + k ∧ ptr + k < s.config.fbBase + s.config.fbBytes) →
        byte = s.readByte (ptr + k.toNat) →
        idx = (if bpp2 then byte.toNat / 4 ^ (3 - (p % 4).toNat) % 4 else byte.toNat / 2 ^ (7 - (p % 8).toNat) % 2) →
        nib = s.dcl.toNat / 16 ^ idx % 16 →
        (nib = 0 → t.getPixel tx ty = s.getPixel tx ty) ∧
        (nib ≠ 0 → (t.getPixel tx ty).toNat = (nib - 1) % 4))

/-- R201, R202: the cells of a BLIT are exactly the local coordinates of the sprite's rectangle whose destination is on
the canvas. -/
def Obligations.BlitClipsToTheCanvas : Prop :=
  ∀ (cfg : Config) (b : Blit) (u v : Int),
    (u, v) ∈ b.cells cfg ↔
      (0 ≤ u ∧ u < b.width ∧ 0 ≤ v ∧ v < b.height ∧ inCanvas cfg (b.dest u v).1 (b.dest u v).2)

/-- R206 to R208: the sampled index, MSB first: sample `p mod 4` of byte `p >> 2` (two bits), or bit `7 - p mod 8` of
byte `p >> 3`. -/
def Obligations.SamplesAreMsbFirst : Prop :=
  ∀ (b : Blit) (byte : Byte) (p : Int),
    (b.bpp2 = true → b.byteOffset p = p / 4 ∧
      (b.index byte p).toNat = byte.toNat / 4 ^ (3 - (p % 4).toNat) % 4) ∧
    (b.bpp2 = false → b.byteOffset p = p / 8 ∧
      (b.index byte p).toNat = byte.toNat / 2 ^ (7 - (p % 8).toNat) % 2)

/-- R211: a BLIT writes each destination pixel at most once, whatever its draw() values. -/
def Obligations.BlitWritesEachPixelOnce : Prop :=
  ∀ (draw : Nat → Byte) (cfg : Config) (m : Memory) (dcl : DrawColours) (b : Blit) (d : Nat),
    ((blitBody draw cfg m dcl b d).1.map (fun w => match w with
      | .pixel _ x y => (x, y)
      | .fbByte i _ => ((i : Int), -1))).Nodup

/-- R212: with rot = 1, flipY = 0 and an unclipped destination, under every reading of the mirror, sprite pixel (c, r)
goes to (dstX + r, dstY + width - 1 - c), and with flipX to its transpose (dstX + r, dstY + c). -/
def Obligations.RotationGeometry : Prop :=
  ∀ (cfg : Config) (b : Blit) (c r : Int), b.rot = true → b.flipY = false →
    0 ≤ c → c < b.width → 0 ≤ r → r < b.height →
    0 ≤ b.dstX → b.dstX + b.height ≤ cfg.width → 0 ≤ b.dstY → b.dstY + b.width ≤ cfg.height →
    (b.flipX = false → ∃ u v, (u, v) ∈ b.cells cfg ∧ b.col cfg u = c ∧ b.row cfg v = r ∧
      b.dest u v = (b.dstX + r, b.dstY + b.width - 1 - c)) ∧
    (b.flipX = true → ∃ u v, (u, v) ∈ b.cells cfg ∧ b.col cfg u = c ∧ b.row cfg v = r ∧
      b.dest u v = (b.dstX + r, b.dstY + c))

/-- R213, R215: TEXT with codes that are all in the string, in the font and neither 0 nor 10 completes with one row of
glyphs: pixel column c of row r of glyph k is bit 7 - c of font byte 8*(code - 32) + r, drawn at (x + 8k + c, y + r) in
dc0 for a 0 bit and dc1 for a 1 bit; every other pixel is unchanged and no draw() is evaluated. -/
def Obligations.TextDrawsRowOfGlyphs : Prop :=
  ∀ (s : State) (codes : List Byte), s.config.wf = true → codes.length = s.larg[1].toNat →
    (∀ (k : Nat) (code : Byte), codes[k]? = some code →
      sourceByte? s.config s.mem (.mem s.larg[0].toNat s.larg[1].toNat) k = some code ∧
      code ≠ 0 ∧ code ≠ 10 ∧ 32 ≤ code.toNat ∧ 8 * (code.toNat - 32) + 8 ≤ s.config.fontLen) →
    ∃ t, exec .text s = .next t ∧ t = { s with mem := t.mem } ∧
      (∀ a, ¬ inStorage s.config a → t.readByte a = s.readByte a) ∧
      (∀ (px py : Int), inCanvas s.config px py →
        (¬ (s.larg[2].toInt ≤ px ∧ px < s.larg[2].toInt + 8 * codes.length ∧
            s.larg[3].toInt ≤ py ∧ py < s.larg[3].toInt + 8) → t.getPixel px py = s.getPixel px py) ∧
        (∀ (k c r : Nat) (code row : Byte) (n : Nibble), codes[k]? = some code → c < 8 → r < 8 →
          px = s.larg[2].toInt + 8 * k + c → py = s.larg[3].toInt + r →
          s.config.font[8 * (code.toNat - 32) + r]? = some row →
          n = nibble s.dcl (if row.getLsbD (7 - c) then 1 else 0) →
          t.getPixel px py = if n ≠ 0 then colour n else s.getPixel px py))

/-- R214: code 0 ends the string: codes from it on are ignored. -/
def Obligations.TextStopsAtZero : Prop :=
  ∀ (s s' : State) (j : Nat), j < s.larg[1].toNat →
    sourceByte? s.config s.mem (.mem s.larg[0].toNat s.larg[1].toNat) j = some 0 →
    s' = { s with larg := s.larg.set 1 (BitVec.ofNat 32 j) } →
    ∃ t t', exec .text s = .next t ∧ exec .text s' = .next t' ∧ t = { t' with larg := s.larg }

/-- R214: code 10 at index j, after j codes that are neither 0 nor 10, draws nothing and puts the cursor back at the
starting column, one glyph height lower: TEXT of the whole string is TEXT of the first j codes from (x, y), and then TEXT
of the codes after the newline from (x, y + 8). -/
def Obligations.TextNewlineStartsNextLine : Prop :=
  ∀ (s s1 s2 : State) (j : Nat), s.config.wf = true → j < s.larg[1].toNat →
    (∀ k : Nat, k < j → ∃ code, sourceByte? s.config s.mem (.mem s.larg[0].toNat s.larg[1].toNat) k = some code ∧
      code ≠ 0 ∧ code ≠ 10) →
    sourceByte? s.config s.mem (.mem s.larg[0].toNat s.larg[1].toNat) j = some 10 →
    s1 = { s with larg := s.larg.set 1 (BitVec.ofNat 32 j) } →
    ∃ t1, exec .text s1 = .next t1 ∧
      (s2 = { t1 with larg := s2.larg } → s2.larg[0].toNat = s.larg[0].toNat + j + 1 →
        s2.larg[1].toNat + j + 1 = s.larg[1].toNat → s2.larg[2] = s.larg[2] →
        s2.larg[3].toInt = s.larg[3].toInt + 8 →
        ∃ t2, exec .text s2 = .next t2 ∧ exec .text s = .next { t2 with larg := s.larg })

/-- R78: a source byte outside its sequence, past MEM_SIZE or inside the pixel storage, or outside the font, is draw(), a
fresh evaluation of the oracle; any other is the byte of memory or of the font and takes no evaluation. -/
def Obligations.SourceBytesOutsideAreDrawn : Prop :=
  ∀ (draw : Nat → Byte) (cfg : Config) (m : Memory) (ptr len : Nat) (k : Int) (d : Nat),
    ((k < 0 ∨ (len : Int) ≤ k ∨ (cfg.memSize : Int) ≤ ptr + k ∨
      ((cfg.fbBase : Int) ≤ ptr + k ∧ (ptr + k : Int) < cfg.fbBase + cfg.fbBytes)) →
      srcByte draw cfg m (.mem ptr len) k d = (draw d, d + 1)) ∧
    (0 ≤ k → k < len → (ptr + k : Int) < cfg.memSize →
      ¬ ((cfg.fbBase : Int) ≤ ptr + k ∧ (ptr + k : Int) < cfg.fbBase + cfg.fbBytes) →
      srcByte draw cfg m (.mem ptr len) k d = (memRead m (ptr + k.toNat), d)) ∧
    ((k < 0 ∨ (cfg.fontLen : Int) ≤ k) → srcByte draw cfg m .font k d = (draw d, d + 1)) ∧
    (∀ b, 0 ≤ k → k < cfg.fontLen → cfg.font[k.toNat]? = some b → srcByte draw cfg m .font k d = (b, d))

/-! ### Every command -/

/-- R240: every command with operands it may be issued with completes: its writes are made, RESULT changes only by PIXR,
the draw() count only by BLIT and TEXT, and every other register, latch, status bit and parameter is unchanged. -/
def Obligations.EveryCommandCompletes : Prop :=
  ∀ (i : Instr) (s : State), i.wellFormed s.larg = true → ∃ t, exec i s = .next t ∧
    t = { s with mem := applyWrites s.config (writesOf i s) s.mem, result := t.result, draws := t.draws } ∧
    (i ≠ .pixr → t.result = s.result) ∧
    ((∀ a b c d, i ≠ .blit a b c d) → i ≠ .text → t.draws = s.draws)

/-- R129, R130: whatever its operands, every write a command makes is for a byte of the pixel storage, and, but for
CLEAR's, for a canvas pixel; when the command goes on, every byte of memory that is none of its writes' reads as before. -/
def Obligations.CommandsWriteOnlyTheirBytes : Prop :=
  ∀ (i : Instr) (s : State), s.config.wf = true →
    (∀ w ∈ writesOf i s, inStorage s.config (w.address s.config) ∧
      (i ≠ .clear → ∃ c px py, w = .pixel c px py ∧ inCanvas s.config px py)) ∧
    (∀ t, exec i s = .next t → ∀ a, (∀ w ∈ writesOf i s, a ≠ w.address s.config) → t.readByte a = s.readByte a)

/-- R103: a command's result is a function of its latches, the memory, the configuration and the draws: what else the
state holds does not matter. Its draws are taken by its completion step and by no other step: the count of draw()
evaluations changes only when a busy Engine completes a BLIT or a TEXT. -/
def Obligations.CommandsDependOnLatchesAndMemory : Prop :=
  (∀ (i : Instr) (s s' t : State), s'.config = s.config → s'.larg = s.larg → s'.dcl = s.dcl → s'.mem = s.mem →
    s'.draws = s.draws → exec i s = .next t →
    ∃ t', exec i s' = .next t' ∧ t'.mem = t.mem ∧ t'.draws = t.draws ∧ (i = .pixr → t'.result = t.result)) ∧
  (∀ s t : State, step s = .next t → t.draws ≠ s.draws →
    s.busy = true ∧ t.busy = false ∧ (s.turns = [] ∨ ∃ ts, s.turns = .engine :: ts) ∧
    (decode s.lcmd = .ok .text ∨ ∃ a b c d, decode s.lcmd = .ok (.blit a b c d)))

/-! ### Steps -/

/-- R102: a step of a busy Engine runs the decoded command whole and clears BUSY, whether its turn is written down or no
turn is left; a fault of the command is the step's. -/
def Obligations.StepRunsTheLatchedCommand : Prop :=
  ∀ (s : State) (ts : List Turn) (i : Instr), s.config.wf = true → s.busy = true → s.overwritten = [] →
    decode s.lcmd = .ok i → (s.turns = .engine :: ts ∨ (s.turns = [] ∧ ts = [])) →
    step s = match exec i { s with turns := ts } with
      | .next t => .next { t with busy := false, overwritten := [] }
      | .fault f => .fault f
      | .refused r => .refused r

/-- R100, R102, R42: a legal CMD write to an idle Engine and then the Engine's turn run the command on ARG and
DRAW_COLORS as they stood at the write. -/
def Obligations.IssuedCommandRuns : Prop :=
  ∀ (s : State) (w : Word) (i : Instr) (ts : List Turn), s.config.wf = true → s.busy = false → s.overwritten = [] →
    s.turns = .host (.regWrite .cmd w) :: .engine :: ts → legal w s.args = true → decode w = .ok i →
    ∃ s1 t, step s = .next s1 ∧ step s1 = .next { t with busy := false, overwritten := [] } ∧
      exec i { s with cmd := w, lcmd := w, larg := s.args, dcl := s.drawColours, busy := true, turns := ts } = .next t

/-- R251: idle keeps all state: with no turn left nothing changes, and an Engine turn passes. -/
def Obligations.IdleKeepsAllState : Prop :=
  ∀ s : State, s.config.wf = true → s.busy = false →
    (s.turns = [] → step s = .next s) ∧
    (∀ ts, s.turns = .engine :: ts → step s = .next { s with turns := ts })

/-- R264: a host write to ARG while a command runs does not affect that command. -/
def Obligations.ArgWritesDoNotReachRunningCommand : Prop :=
  ∀ (s t : State) (k : Fin 9) (v : Word), s.busy = true → complete s = .next t →
    ∃ s1, hostTurn (.regWrite (.arg k) v) s = .next s1 ∧ complete s1 = .next { t with args := s1.args } ∧
      s1.args[k] = v

/-- R263, R271: a permitted host write to memory while a command runs (DRAW_COLORS among them) does not affect that
command: the completed state differs in that byte alone. -/
def Obligations.PermittedWritesDoNotReachRunningCommand : Prop :=
  ∀ (s t : State) (a : Nat) (v : Byte), s.busy = true → s.overwritten = [] → s.config.wf = true →
    a < s.config.memSize → forbiddenWrite s a = false → complete s = .next t →
    ∃ s1 t', hostTurn (.memWrite a v) s = .next s1 ∧ complete s1 = .next t' ∧ t' = { t with mem := t'.mem } ∧
      ∀ b, t'.readByte b = if b = a then v else t.readByte b

/-- R265, R103: a forbidden host write while a command runs stores its byte; when the command completes, each byte it
would have written from the state at its issue and the written byte hold any value (a free byte), every other byte of
memory is unchanged, and everything else is as it is without that write. -/
def Obligations.ForbiddenWriteLeavesAnyValue : Prop :=
  ∀ (s t0 : State) (i : Instr) (a : Nat) (v : Byte), Inv s → s.busy = true → s.overwritten = [] →
    decode s.lcmd = .ok i → a < s.config.memSize → forbiddenWrite s a = true → complete s = .next t0 →
    ∃ s1 t, hostTurn (.memWrite a v) s = .next s1 ∧ complete s1 = .next t ∧
      (∀ b, s1.readByte b = if b = a then v else s.readByte b) ∧ (∀ b, s1.atIssue.readByte b = s.readByte b) ∧
      t = { t0 with mem := t.mem, frees := t.frees } ∧
      ∀ b, (((∃ w ∈ writesOf i s, b = w.address s.config) ∨ b = a) → ∃ k, t.readByte b = Config.freeByte k) ∧
        (¬ ((∃ w ∈ writesOf i s, b = w.address s.config) ∨ b = a) → t.readByte b = s.readByte b)

/-- R271, R265, R12: the host's byte accesses to memory. A permitted read returns the byte and changes nothing else; a
read of the pixel storage while BUSY = 1 returns any value (a free byte) and changes nothing else but the model's count
of those; an idle, or otherwise permitted, write stores the byte and changes nothing else; exactly the writes R265 names
are not permitted; an access to an address that does not exist stops by name (the model's choice, log 16). -/
def Obligations.HostByteAccesses : Prop :=
  ∀ (s : State) (a : Nat) (v : Byte),
    (a < s.config.memSize → ¬ (s.busy = true ∧ s.config.fbBase ≤ a ∧ a < s.config.fbBase + s.config.fbBytes) →
      ∃ t, hostTurn (.memRead a) s = .next t ∧ t = { s with readData := t.readData } ∧
        t.readData.toNat = (s.readByte a).toNat) ∧
    (a < s.config.memSize → s.busy = true → s.config.fbBase ≤ a → a < s.config.fbBase + s.config.fbBytes →
      ∃ t k, hostTurn (.memRead a) s = .next t ∧ t = { s with readData := t.readData, frees := s.frees + 1 } ∧
        t.readData.toNat = (Config.freeByte k).toNat) ∧
    (a < s.config.memSize → forbiddenWrite s a = false →
      ∃ t, hostTurn (.memWrite a v) s = .next t ∧ t = { s with mem := t.mem } ∧
        ∀ b, t.readByte b = if b = a then v else s.readByte b) ∧
    (forbiddenWrite s a = true ↔ s.busy = true ∧
      ((s.config.fbBase ≤ a ∧ a < s.config.fbBase + s.config.fbBytes) ∨
       ((decode s.lcmd = .ok .text ∨ ∃ b c d e, decode s.lcmd = .ok (.blit b c d e)) ∧
        s.larg[0].toNat ≤ a ∧ a < s.larg[0].toNat + s.larg[1].toNat))) ∧
    (s.config.memSize ≤ a →
      hostTurn (.memRead a) s = .fault (.noSuchAddress a) ∧ hostTurn (.memWrite a v) s = .fault (.noSuchAddress a))

/-! ### Reset (70_reset_and_hazards.md) -/

/-- R48, R49: the machine right after reset: every register 0, idle, nothing written in memory; the latches and the
model's own fields are not part of this statement. -/
def Obligations.ResetStateRegisters : Prop :=
  State.reset.cmd = 0 ∧ State.reset.busy = false ∧ State.reset.ill = false ∧ State.reset.result = 0 ∧
  (∀ k : Fin 9, State.reset.args[k] = 0) ∧ ∀ a, State.reset.readByte a = Config.powerUpByte a

/-- R260: a reset at any moment sets every register, and in an idle core changes no byte of memory; it takes the place
of any issue or completion at that moment. -/
def Obligations.ResetClearsRegisters : Prop :=
  ∀ (s : State) (ts : List Turn), s.config.wf = true → s.turns = .reset :: ts →
    ∃ t, step s = .next t ∧ t.cmd = 0 ∧ t.busy = false ∧ t.ill = false ∧ t.result = 0 ∧
      (∀ k : Fin 9, t.args[k] = 0) ∧ t.config = s.config ∧ t.turns = ts ∧ (s.busy = false → t.mem = s.mem)

/-- R261, R103: a reset of a running command: each byte the command would have written from the state at its issue holds
any value (a free byte), every other byte is unchanged, a byte that a forbidden write changed among them, RESULT is 0,
and no draw() of a completion is taken. For a BLIT or TEXT which draw() values decide what it would have written is the
model's choice, log 25: the reset's own; no other command takes any. -/
def Obligations.ResetAbandonsRunningCommand : Prop :=
  ∀ (s : State) (i : Instr) (ws : List Write), s.config.wf = true → s.busy = true → decode s.lcmd = .ok i →
    ws = writesWith (Config.abandonedDraw s.resets) i s.atIssue →
    (s.overwritten = [] → s.atIssue = s) ∧
    ((∀ a b c d, i ≠ .blit a b c d) → i ≠ .text → ws = writesOf i s.atIssue) ∧
    ∃ t, runTurn .reset s = .next t ∧ t.busy = false ∧ t.result = 0 ∧ t.draws = s.draws ∧
      ∀ b, ((∃ w ∈ ws, b = w.address s.config) → ∃ k, t.readByte b = Config.freeByte k) ∧
        ((∀ w ∈ ws, b ≠ w.address s.config) → t.readByte b = s.readByte b)

/-! ### Whole-machine rules and the invariant -/

/-- R8: nothing of the configuration changes while the core runs. -/
def Obligations.ConfigurationNeverChanges : Prop :=
  ∀ s t : State, step s = .next t → t.config = s.config

/-- R39: RESULT changes only when a PIXR completes or at a reset. -/
def Obligations.ResultChangesOnlyByPixr : Prop :=
  ∀ s t : State, step s = .next t → t.result ≠ s.result →
    (s.busy = true ∧ decode s.lcmd = .ok .pixr ∧ t.busy = false) ∨ ∃ ts, s.turns = .reset :: ts

/-- R38, R100: the Engine becomes busy only by a legal CMD write, and then the latches hold that word and ARG. -/
def Obligations.OnlyLegalIssueStartsCommand : Prop :=
  ∀ s t : State, step s = .next t → s.busy = false → t.busy = true →
    ∃ w ts, s.turns = .host (.regWrite .cmd w) :: ts ∧ legal w s.args = true ∧
      t.lcmd = w ∧ t.larg = s.args ∧ t.dcl = s.drawColours

/-- R33, R49, R129: a byte of memory outside the pixel storage changes only by a host write of that byte, and while the
Engine is idle so does every byte. -/
def Obligations.OnlyTheHostWritesOtherMemory : Prop :=
  ∀ (s t : State) (a : Nat), Inv s → s.overwritten = [] → step s = .next t → t.readByte a ≠ s.readByte a →
    (¬ inStorage s.config a ∨ s.busy = false) → ∃ v ts, s.turns = .host (.memWrite a v) :: ts

/-- R42: the latches are never observable while the Engine is idle: two idle states that differ only in them step to
states that differ only in them, and to equal states when a command starts. -/
def Obligations.LatchesUnobservableWhenIdle : Prop :=
  ∀ (s t : State) (lc : Word) (la : Operands) (d : DrawColours), s.busy = false → step s = .next t →
    ∃ t', step { s with lcmd := lc, larg := la, dcl := d } = .next t' ∧
      t' = { t with lcmd := t'.lcmd, larg := t'.larg, dcl := t'.dcl } ∧ (t.busy = true → t' = t)

/-- The invariant holds at reset. -/
def Obligations.ResetMeetsInv : Prop := Inv State.reset

/-- The invariant is kept by every step: configuration accepted, memory in canonical form and inside MEM_SIZE, the
running word legal, the overwritten bytes noted in canonical form and none while idle. -/
def Obligations.EveryStepKeepsInv : Prop :=
  ∀ s t : State, Inv s → step s = .next t → Inv t

/-- R240, R243: from every state that meets the invariant the machine goes on, INTERNAL_OOB and the other model
assertions never raised, for a run of every length, when every coming turn names only addresses that exist (log 16). -/
def Obligations.RunsNeverStop : Prop :=
  ∀ (n : Nat) (s : State), Inv s → (∀ u ∈ s.turns, u.addressExists s.config) → SafeFor n s

/-- 00_scope.md R7: a configuration that breaks a constraint is rejected, whatever the turn. -/
def Obligations.BadConfigurationIsRejected : Prop :=
  ∀ s : State, (s.config.width = 0 ∨ s.config.height = 0 ∨ s.config.width % 4 ≠ 0 ∨
      s.config.memSize < s.config.fbBase + s.config.fbBytes ∨ s.config.memSize < s.config.dcAddr + 2 ∨
      (s.config.fbBase < s.config.dcAddr + 2 ∧ s.config.dcAddr < s.config.fbBase + s.config.fbBytes) ∨
      s.config.fontLen ≠ s.config.font.length) →
    step s = .refused .badConfiguration
end

