-- ==== Sys2Proof/Laws/Decode.lean ====
section
/-! SUPPORT. The fields of a command word as arithmetic, and what legality gives (30_encoding.md R90, R96). -/

namespace Sys2Proof

theorem opField_toNat (w : Word) : (opField w).toNat = w.toNat % 16 := by simp [opField]

theorem flagField_toNat (w : Word) : (flagField w).toNat = w.toNat / 16 % 16 := by
  simp [flagField, Nat.shiftRight_eq_div_pow]

theorem reservedField_toNat (w : Word) : (reservedField w).toNat = w.toNat / 256 := by
  simp [reservedField, Nat.shiftRight_eq_div_pow]; omega

/-- A legal word decodes to a command whose operands are well-formed (30_encoding.md R101: "Only legal words reach
this point"). -/
theorem wellFormed_of_legal {w : Word} {a : Operands} {i : Instr} (h : legal w a = true) (hi : decode w = .ok i) :
    i.wellFormed a = true := by
  cases i with
  | pixw =>
    simp only [legal, Bool.and_eq_true, decide_eq_true_eq] at h
    simp only [Instr.wellFormed, decide_eq_true_eq]
    refine h.2.resolve_left (fun hne => hne ?_)
    unfold decode at hi
    split at hi
    · cases hi
    · split at hi <;> (try simp [withoutFlags] at hi) <;> try (split at hi <;> cases hi)
      rename_i h2
      apply BitVec.eq_of_toNat_eq; simpa using h2
  | _ => rfl

/-- A legal word decodes. -/
theorem decode_of_legal {w : Word} {a : Operands} (h : legal w a = true) : ∃ i, decode w = .ok i ∧
    i.wellFormed a = true := by
    have hl := h
    simp only [legal, Bool.and_eq_true, decide_eq_true_eq] at h
    obtain ⟨⟨⟨hr, h1, h10⟩, hf⟩, hp⟩ := h
    suffices ∃ i, decode w = .ok i by obtain ⟨i, hi⟩ := this; exact ⟨i, hi, wellFormed_of_legal hl hi⟩
    unfold decode
    rw [if_neg (by simpa using hr)]
    have hop : ∀ n : Nat, n < 16 → (opField w).toNat = n → opField w = BitVec.ofNat 4 n := by
        intro n hn h; apply BitVec.eq_of_toNat_eq; simp [h, Nat.mod_eq_of_lt hn]
    generalize hn : (opField w).toNat = n at *
    have := hop n (by omega) rfl
    interval_cases n <;> simp_all [withoutFlags]

end Sys2Proof
end

