-- ==== Sys2Proof/Laws/Memory.lean ====
section
/-! SUPPORT. The laws of the byte memory: read after write, the canonical form kept, and equal memories being equal
data. -/

namespace Sys2Proof.Machine

@[simp] theorem memGet?_nil (a : Nat) : memGet? [] a = none := rfl

theorem memGet?_memSet (m : Memory) (a b : Nat) (v : Byte) :
    memGet? (memSet m a v) b = if b = a then some v else memGet? m b := by
  induction m with
  | nil => simp [memSet, memGet?]
  | cons x m ih =>
    obtain ⟨c, w⟩ := x
    simp only [memSet]
    split
    · simp [memGet?]
    · split
      · rename_i h; subst h
        by_cases hb : b = a <;> simp [memGet?, hb]
      · simp only [memGet?, ih]
        by_cases hc : b = c
        · subst hc
          have : ¬ b = a := fun h => by simp_all
          simp [this]
        · simp [hc]

@[simp] theorem memRead_memSet_self (m : Memory) (a : Nat) (v : Byte) : memRead (memSet m a v) a = v := by
  simp [memRead, memGet?_memSet]

theorem memRead_memSet_ne (m : Memory) {a b : Nat} (v : Byte) (h : b ≠ a) :
    memRead (memSet m a v) b = memRead m b := by
  simp [memRead, memGet?_memSet, h]

theorem memRead_memSet (m : Memory) (a b : Nat) (v : Byte) :
    memRead (memSet m a v) b = if b = a then v else memRead m b := by
  by_cases h : b = a
  · subst h; simp
  · simp [memRead_memSet_ne, h]

/-- What is listed after a write: the byte written, or what was listed before. -/
theorem mem_memSet {m : Memory} {a : Nat} {v : Byte} {x : Host.Cell} (h : x ∈ memSet m a v) :
    x = (a, v) ∨ x ∈ m := by
  induction m with
  | nil => simpa [memSet] using h
  | cons y m ih =>
    obtain ⟨c, w⟩ := y
    simp only [memSet] at h
    split at h
    · simpa using h
    · split at h
      · rcases List.mem_cons.1 h with h | h
        · exact .inl h
        · exact .inr (List.mem_cons_of_mem _ h)
      · rcases List.mem_cons.1 h with h | h
        · exact .inr (h ▸ List.mem_cons_self)
        · exact (ih h).imp_right (List.mem_cons_of_mem _)

/-- A write keeps the canonical form. -/
theorem memSet_wf {m : Memory} (a : Nat) (v : Byte) (h : Memory.wf m) : Memory.wf (memSet m a v) := by
  induction m with
  | nil => simp [memSet, Memory.wf]
  | cons y m ih =>
    obtain ⟨c, w⟩ := y
    have h' := List.pairwise_cons.1 h
    simp only [memSet]
    split
    · rename_i hac
      refine List.pairwise_cons.2 ⟨fun x hx => ?_, h⟩
      rcases List.mem_cons.1 hx with hx | hx
      · subst hx; exact hac
      · exact lt_trans hac (h'.1 x hx)
    · split
      · rename_i hac; subst hac
        exact List.pairwise_cons.2 ⟨fun x hx => h'.1 x hx, h'.2⟩
      · refine List.pairwise_cons.2 ⟨fun x hx => ?_, ih h'.2⟩
        rcases mem_memSet hx with hx | hx
        · subst hx; simp only; omega
        · exact h'.1 x hx

/-- A write of an address that exists keeps every listed address existing. -/
theorem memSet_within {m : Memory} {n a : Nat} (v : Byte) (ha : a < n) (h : Memory.within m n) :
    Memory.within (memSet m a v) n := by
  intro x hx
  rcases mem_memSet hx with hx | hx
  · subst hx; exact ha
  · exact h x hx

theorem memGet?_eq_none_of_lt {m : Memory} {a : Nat} (h : ∀ x ∈ m, a < x.1) : memGet? m a = none := by
  induction m with
  | nil => rfl
  | cons y m ih =>
    obtain ⟨c, w⟩ := y
    have hc : a < c := h (c, w) List.mem_cons_self
    simp only [memGet?, if_neg (Nat.ne_of_lt hc)]
    exact ih (fun x hx => h x (List.mem_cons_of_mem _ hx))

/-- Memories in canonical form that list the same bytes are the same data. -/
theorem Memory.ext_of_wf {m n : Memory} (hm : Memory.wf m) (hn : Memory.wf n)
    (h : ∀ a, memGet? m a = memGet? n a) : m = n := by
  induction m generalizing n with
  | nil =>
    cases n with
    | nil => rfl
    | cons y n => obtain ⟨c, w⟩ := y; simpa [memGet?] using h c
  | cons x m ih =>
    obtain ⟨b, v⟩ := x
    have hm' := List.pairwise_cons.1 hm
    cases n with
    | nil => simpa [memGet?] using h b
    | cons y n =>
      obtain ⟨c, w⟩ := y
      have hn' := List.pairwise_cons.1 hn
      have hbc : b = c := by
        rcases Nat.lt_trichotomy b c with hlt | heq | hgt
        · have := h b
          rw [memGet?_eq_none_of_lt (m := (c, w) :: n)] at this
          · simp [memGet?] at this
          · intro x hx
            rcases List.mem_cons.1 hx with hx | hx
            · subst hx; exact hlt
            · exact lt_trans hlt (hn'.1 x hx)
        · exact heq
        · have := h c
          rw [memGet?_eq_none_of_lt (m := (b, v) :: m)] at this
          · simp [memGet?] at this
          · intro x hx
            rcases List.mem_cons.1 hx with hx | hx
            · subst hx; exact hgt
            · exact lt_trans hgt (hm'.1 x hx)
      subst hbc
      have hv : v = w := by simpa [memGet?] using h b
      subst hv
      rw [ih hm'.2 hn'.2]
      intro a
      by_cases ha : a = b
      · subst ha
        rw [memGet?_eq_none_of_lt hm'.1, memGet?_eq_none_of_lt hn'.1]
      · simpa [memGet?, ha] using h a

/-! ### Reading and writing the machine's bytes -/

theorem State.readByte_writeByte (s : State) (a b : Nat) (v : Byte) :
    (s.writeByte a v).readByte b = if b = a then v else s.readByte b :=
  memRead_memSet s.mem a b v

/-! ### Putting bytes back -/

@[simp] theorem restore_nil (m : Memory) : restore [] m = m := rfl

/-- Memory with the listed bytes put back reads the listed bytes, and the rest as before. -/
theorem memRead_restore {saved : Memory} (h : Memory.wf saved) (m : Memory) (a : Nat) :
    memRead (restore saved m) a = (memGet? saved a).getD (memRead m a) := by
  induction saved generalizing m with
  | nil => rfl
  | cons x saved ih =>
    obtain ⟨b, v⟩ := x
    have h' := List.pairwise_cons.1 h
    show memRead (restore saved (memSet m b v)) a = _
    rw [ih h'.2, memRead_memSet, memGet?]
    split
    · rename_i hab
      rw [hab, memGet?_eq_none_of_lt h'.1]; rfl
    · rfl

/-- Putting bytes back keeps the canonical form. -/
theorem restore_wf (saved : Memory) {m : Memory} (h : Memory.wf m) : Memory.wf (restore saved m) := by
  induction saved generalizing m with
  | nil => exact h
  | cons x saved ih => exact ih (memSet_wf _ _ h)

/-- Putting back bytes that exist keeps every listed address existing. -/
theorem restore_within {saved m : Memory} {n : Nat} (hs : Memory.within saved n) (h : Memory.within m n) :
    Memory.within (restore saved m) n := by
  induction saved generalizing m with
  | nil => exact h
  | cons x saved ih =>
    exact ih (fun y hy => hs y (List.mem_cons_of_mem _ hy)) (memSet_within _ (hs x List.mem_cons_self) h)

/-- With nothing overwritten, memory at the issue is the present memory. -/
theorem State.atIssue_of_nil {s : State} (h : s.overwritten = []) : s.atIssue = s := by
  rw [State.atIssue, h]; rfl

@[simp] theorem State.atIssue_config (s : State) : s.atIssue.config = s.config := rfl
@[simp] theorem State.atIssue_larg (s : State) : s.atIssue.larg = s.larg := rfl

/-! ### Lists of writes -/

@[simp] theorem applyWrites_nil (cfg : Config) (m : Memory) : applyWrites cfg [] m = m := rfl

@[simp] theorem applyWrites_cons (cfg : Config) (w : Write) (ws : List Write) (m : Memory) :
    applyWrites cfg (w :: ws) m = applyWrites cfg ws (applyWrite cfg m w) := rfl

theorem applyWrites_append (cfg : Config) (ws vs : List Write) (m : Memory) :
    applyWrites cfg (ws ++ vs) m = applyWrites cfg vs (applyWrites cfg ws m) := by
  simp [applyWrites, List.foldl_append]

/-- One write stores one byte, at its address. -/
theorem applyWrite_eq_memSet (cfg : Config) (m : Memory) (w : Write) :
    ∃ v, applyWrite cfg m w = memSet m (w.address cfg) v := by
  cases w with
  | pixel c x y => exact ⟨_, rfl⟩
  | fbByte i v => exact ⟨v, rfl⟩

/-- A list of writes leaves every byte alone that is at none of their addresses. -/
theorem memRead_applyWrites_of_ne (cfg : Config) {ws : List Write} {m : Memory} {a : Nat}
    (h : ∀ w ∈ ws, a ≠ w.address cfg) : memRead (applyWrites cfg ws m) a = memRead m a := by
  induction ws generalizing m with
  | nil => rfl
  | cons w ws ih =>
    rw [applyWrites_cons, ih (fun v hv => h v (List.mem_cons_of_mem _ hv))]
    obtain ⟨v, hv⟩ := applyWrite_eq_memSet cfg m w
    rw [hv, memRead_memSet_ne _ _ (h w List.mem_cons_self)]

/-- A list of writes keeps the canonical form. -/
theorem applyWrites_wf (cfg : Config) {ws : List Write} {m : Memory} (h : Memory.wf m) :
    Memory.wf (applyWrites cfg ws m) := by
  induction ws generalizing m with
  | nil => exact h
  | cons w ws ih =>
    obtain ⟨v, hv⟩ := applyWrite_eq_memSet cfg m w
    rw [applyWrites_cons, hv]
    exact ih (memSet_wf _ _ h)

/-- A list of writes to addresses that exist keeps every listed address existing. -/
theorem applyWrites_within (cfg : Config) {ws : List Write} {m : Memory} {n : Nat}
    (hw : ∀ w ∈ ws, w.address cfg < n) (h : Memory.within m n) : Memory.within (applyWrites cfg ws m) n := by
  induction ws generalizing m with
  | nil => exact h
  | cons w ws ih =>
    obtain ⟨v, hv⟩ := applyWrite_eq_memSet cfg m w
    rw [applyWrites_cons, hv]
    exact ih (fun w' hw' => hw w' (List.mem_cons_of_mem _ hw'))
      (memSet_within _ (hw w List.mem_cons_self) h)

end Sys2Proof.Machine
end

