-- ==== Sys2Proof/Laws/Pixel.lean ====
section
/-! SUPPORT. The laws of the pixel layout and the point primitives (20_memory.md R61; 40_pixel_storage.md R120 to R123):
where a pixel lies, that two pixels never share their bits, and what a pixel holds after one write and after a list of
writes of one colour. -/

namespace Sys2Proof.Machine

@[simp] theorem mem_intRange {lo hi v : Int} : v ∈ intRange lo hi ↔ lo ≤ v ∧ v < hi := by
  simp only [intRange, List.mem_map, List.mem_range]
  constructor
  · rintro ⟨i, hi', rfl⟩; omega
  · rintro ⟨h1, h2⟩; exact ⟨(v - lo).toNat, by omega, by omega⟩

theorem intRange_eq_nil {lo hi : Int} (h : hi ≤ lo) : intRange lo hi = [] := by
  have : (hi - lo).toNat = 0 := by omega
  simp [intRange, this]

theorem intRange_eq_cons {lo hi : Int} (h : lo < hi) : intRange lo hi = lo :: intRange (lo + 1) hi := by
  have h1 : (hi - lo).toNat = (hi - (lo + 1)).toNat + 1 := by omega
  simp only [intRange, h1, List.range_succ_eq_map, List.map_cons, List.map_map]
  congr 1
  · simp
  · apply List.map_congr_left
    intro i _
    simp only [Function.comp, Nat.succ_eq_add_one]; omega

theorem nodup_intRange (lo hi : Int) : (intRange lo hi).Nodup :=
  List.Nodup.map (fun a b h => by simpa using h) List.nodup_range

/-! ### What an accepted configuration says -/

theorem Config.wf_iff (c : Config) : c.wf = true ↔
    1 ≤ c.width ∧ 1 ≤ c.height ∧ c.width % 4 = 0 ∧ c.fbBase + c.fbBytes ≤ c.memSize ∧ c.dcAddr + 2 ≤ c.memSize ∧
    (c.dcAddr + 2 ≤ c.fbBase ∨ c.fbBase + c.fbBytes ≤ c.dcAddr) ∧ c.fontLen = c.font.length := by
  simp only [Config.wf, Bool.and_eq_true, decide_eq_true_eq]
  tauto

theorem Config.wf_width_mod {c : Config} (h : c.wf = true) : c.width % 4 = 0 := (Config.wf_iff c |>.1 h).2.2.1

theorem Config.wf_storage {c : Config} (h : c.wf = true) : c.fbBase + c.fbBytes ≤ c.memSize :=
  (Config.wf_iff c |>.1 h).2.2.2.1

/-- The index of a canvas pixel is below the pixel count. -/
theorem pixelIndex_bounds {c : Config} {x y : Int} (h : inCanvas c x y) :
    0 ≤ (c.width : Int) * y + x ∧ (c.width : Int) * y + x < c.width * c.height := by
  obtain ⟨⟨hx0, hx1⟩, hy0, hy1⟩ := h
  have h1 : 0 ≤ (c.width : Int) * y := by positivity
  have h2 : (c.width : Int) * y ≤ c.width * (c.height - 1) :=
    mul_le_mul_of_nonneg_left (by omega) (by omega)
  have h3 : (c.width : Int) * (c.height - 1) = c.width * c.height - c.width := by ring
  constructor <;> omega

/-- A canvas pixel lies in the pixel storage (20_memory.md R61). -/
theorem pixByte_lt {c : Config} (hc : c.wf = true) {x y : Int} (h : inCanvas c x y) :
    pixByte c x y < c.fbBytes := by
  have hb := pixelIndex_bounds h
  have hm := Config.wf_width_mod hc
  obtain ⟨k, hk⟩ : 4 ∣ c.width * c.height := Dvd.dvd.mul_right (Nat.dvd_of_mod_eq_zero hm) _
  have hk' : (c.width : Int) * c.height = 4 * k := by exact_mod_cast hk
  simp only [pixByte, Config.fbBytes]
  omega

/-- Two canvas pixels in the same byte with the same shift are the same pixel (20_memory.md R61). -/
theorem pixel_eq_of_same_place {c : Config} (hc : c.wf = true) {x y x' y' : Int}
    (h : inCanvas c x y) (h' : inCanvas c x' y') (hb : pixByte c x y = pixByte c x' y')
    (hs : x % 4 = x' % 4) : x = x' ∧ y = y' := by
  have hm := Config.wf_width_mod hc
  have hn := (pixelIndex_bounds h).1
  have hn' := (pixelIndex_bounds h').1
  obtain ⟨k, hk⟩ : 4 ∣ c.width := Nat.dvd_of_mod_eq_zero hm
  have hkz : (c.width : Int) = 4 * k := by exact_mod_cast hk
  have e1 : (c.width : Int) * y = 4 * (k * y) := by rw [hkz]; ring
  have e2 : (c.width : Int) * y' = 4 * (k * y') := by rw [hkz]; ring
  simp only [pixByte] at hb
  have hsum : (c.width : Int) * y + x = c.width * y' + x' := by
    generalize (c.width : Int) * y = A at *
    generalize (c.width : Int) * y' = B at *
    omega
  obtain ⟨⟨hx0, hx1⟩, hy0, hy1⟩ := h
  obtain ⟨⟨hx0', hx1'⟩, hy0', hy1'⟩ := h'
  have hyy : y = y' := by
    by_contra hne
    rcases lt_or_gt_of_ne hne with hlt | hgt
    · have : (c.width : Int) * (y + 1) ≤ c.width * y' := mul_le_mul_of_nonneg_left (by omega) (by omega)
      have : (c.width : Int) * (y + 1) = c.width * y + c.width := by ring
      omega
    · have : (c.width : Int) * (y' + 1) ≤ c.width * y := mul_le_mul_of_nonneg_left (by omega) (by omega)
      have : (c.width : Int) * (y' + 1) = c.width * y' + c.width := by ring
      omega
  subst hyy
  exact ⟨by omega, rfl⟩

/-! ### The bits of one byte -/

theorem getPixelBits_setPixelBits_self (b : Byte) (c : Colour) (x : Int) :
    getPixelBits (setPixelBits b (pixShift x) c) (pixShift x) = c := by
  have h4 : (x % 4).toNat < 4 := by omega
  simp only [pixShift]
  generalize (x % 4).toNat = n at h4
  apply BitVec.eq_of_getLsbD_eq
  intro i hi
  interval_cases n <;> interval_cases i <;>
    simp [getPixelBits, setPixelBits]

theorem getPixelBits_setPixelBits_ne (b : Byte) (c : Colour) {x x' : Int} (h : x % 4 ≠ x' % 4) :
    getPixelBits (setPixelBits b (pixShift x) c) (pixShift x') = getPixelBits b (pixShift x') := by
  have h4 : (x % 4).toNat < 4 := by omega
  have h4' : (x' % 4).toNat < 4 := by omega
  have hne : (x % 4).toNat ≠ (x' % 4).toNat := by omega
  simp only [pixShift]
  generalize (x % 4).toNat = n at h4 hne
  generalize (x' % 4).toNat = n' at h4' hne
  apply BitVec.eq_of_getLsbD_eq
  intro i hi
  interval_cases n <;> interval_cases n' <;> first | omega | skip
  all_goals
    interval_cases i <;>
    simp [getPixelBits, setPixelBits]

/-! ### Bytes from pixels -/

/-- A byte is its four pixels (20_memory.md R61). -/
theorem byte_ext {b b' : Byte} (h : ∀ n, n < 4 → getPixelBits b (2 * n) = getPixelBits b' (2 * n)) : b = b' := by
  apply BitVec.eq_of_getLsbD_eq
  intro i hi
  have key : ∀ b : Byte, b.getLsbD i = (getPixelBits b (2 * (i / 2))).getLsbD (i % 2) := by
    intro b
    simp only [getPixelBits]
    interval_cases i <;> simp
  rw [key b, key b', h _ (by omega)]

/-- Every byte of the storage holds four pixels of one row (20_memory.md R61). -/
theorem storage_pixels {c : Config} (hc : c.wf = true) {i : Nat} (hi : i < c.fbBytes) :
    ∃ x y : Int, x % 4 = 0 ∧ ∀ n : Nat, n < 4 → inCanvas c (x + n) y ∧ pixByte c (x + n) y = i ∧
        pixShift (x + n) = 2 * n := by
  have hw := (Config.wf_iff c |>.1 hc)
  obtain ⟨k, hk⟩ : 4 ∣ c.width := Nat.dvd_of_mod_eq_zero hw.2.2.1
  have hkpos : 0 < k := by omega
  have hb : c.fbBytes = k * c.height := by
    unfold Config.fbBytes; rw [hk, Nat.mul_assoc, Nat.mul_div_cancel_left _ (by decide)]
  have hdiv := Nat.div_add_mod i k
  have hmod := Nat.mod_lt i hkpos
  have hq : i / k < c.height := by
    rw [Nat.div_lt_iff_lt_mul hkpos]; rw [hb] at hi; rw [Nat.mul_comm]; exact hi
  generalize i / k = q at *
  generalize i % k = r at *
  refine ⟨4 * (r : Int), (q : Int), by omega, fun n hn => ⟨⟨by omega, by omega⟩, ?_, ?_⟩⟩
  · simp only [pixByte]
    have e : (c.width : Int) * (q : Int) = 4 * ((k * q : Nat) : Int) := by rw [hk]; push_cast; ring
    rw [e]
    generalize k * q = A at *
    omega
  · simp only [pixShift]; omega

/-- Memories with the same pixels and the same other bytes read the same everywhere. -/
theorem read_ext {c : Config} (hc : c.wf = true) {m m' : Memory}
   (h : ∀ x y, inCanvas c x y → pixelAt c m x y = pixelAt c m' x y)
   (h' : ∀ a, ¬ inStorage c a → memRead m a = memRead m' a) (a : Nat) : memRead m a = memRead m' a := by
  by_cases ha : inStorage c a
  · obtain ⟨x, y, hx, hp⟩ := storage_pixels hc (i := a - c.fbBase) (by omega)
    apply byte_ext
    intro n hn
    obtain ⟨h1, h2, h3⟩ := hp n hn
    have := h _ _ h1
    simp only [pixelAt, h2, h3] at this
    rw [show c.fbBase + (a - c.fbBase) = a by omega] at this
    exact this
  · exact h' a ha

/-! ### One point write -/

/-- The pixel written reads back (40_pixel_storage.md R127). -/
theorem pixelAt_applyWrite_self (cfg : Config) (m : Memory) (c : Colour) (x y : Int) :
    pixelAt cfg (applyWrite cfg m (.pixel c x y)) x y = c := by
  simp [pixelAt, applyWrite, getPixelBits_setPixelBits_self]

/-- Every other canvas pixel reads as before (40_pixel_storage.md R127). -/
theorem pixelAt_applyWrite_ne {cfg : Config} (hc : cfg.wf = true) (m : Memory) (c : Colour) {x y x' y' : Int}
    (h : inCanvas cfg x y) (h' : inCanvas cfg x' y') (hne : ¬ (x = x' ∧ y = y')) :
    pixelAt cfg (applyWrite cfg m (.pixel c x y)) x' y' = pixelAt cfg m x' y' := by
  by_cases hb : pixByte cfg x' y' = pixByte cfg x y
  · have hs : x % 4 ≠ x' % 4 := fun hs => hne (pixel_eq_of_same_place hc h h' hb.symm hs)
    simp only [pixelAt, applyWrite, hb, memRead_memSet_self]
    exact getPixelBits_setPixelBits_ne _ _ hs
  · have : cfg.fbBase + pixByte cfg x' y' ≠ cfg.fbBase + pixByte cfg x y := by omega
    simp [pixelAt, applyWrite, memRead_memSet_ne _ _ this]

theorem pixelAt_applyWrite {cfg : Config} (hc : cfg.wf = true) (m : Memory) (c : Colour) {x y x' y' : Int}
    (h : inCanvas cfg x y) (h' : inCanvas cfg x' y') :
    pixelAt cfg (applyWrite cfg m (.pixel c x y)) x' y' =
      if x = x' ∧ y = y' then c else pixelAt cfg m x' y' := by
  split
  · rename_i he; obtain ⟨rfl, rfl⟩ := he; exact pixelAt_applyWrite_self cfg m c x y
  · rename_i he; exact pixelAt_applyWrite_ne hc m c h h' he

/-! ### Lists of point writes -/

/-- Every write of the list is the point writer's, for a pixel of the canvas. -/
def AllOnCanvas (cfg : Config) (ws : List Write) : Prop :=
  ∀ w ∈ ws, ∃ c x y, w = .pixel c x y ∧ inCanvas cfg x y

theorem AllOnCanvas.nil (cfg : Config) : AllOnCanvas cfg [] := fun _ h => absurd h List.not_mem_nil

theorem AllOnCanvas.append {cfg : Config} {ws vs : List Write} (h : AllOnCanvas cfg ws) (h' : AllOnCanvas cfg vs) :
    AllOnCanvas cfg (ws ++ vs) := fun w hw => (List.mem_append.1 hw).elim (h w) (h' w)

/-- What a canvas pixel holds after point writes: the colour of the last write to it, or what it held. -/
def lastColour (ws : List Write) (px py : Int) (old : Colour) : Colour :=
  ws.foldl (fun acc w => match w with
    | .pixel c x y => if x = px ∧ y = py then c else acc
    | .fbByte _ _ => acc) old

theorem pixelAt_applyWrites {cfg : Config} (hc : cfg.wf = true) {ws : List Write} (hw : AllOnCanvas cfg ws)
    (m : Memory) {px py : Int} (hp : inCanvas cfg px py) :
    pixelAt cfg (applyWrites cfg ws m) px py = lastColour ws px py (pixelAt cfg m px py) := by
  induction ws generalizing m with
  | nil => rfl
  | cons w ws ih =>
    obtain ⟨c, x, y, rfl, hxy⟩ := hw w List.mem_cons_self
    rw [applyWrites_cons, ih (fun v hv => hw v (List.mem_cons_of_mem _ hv)),
      pixelAt_applyWrite hc m c hxy hp]
    rfl

theorem lastColour_append (ws vs : List Write) (px py : Int) (old : Colour) :
    lastColour (ws ++ vs) px py old = lastColour vs px py (lastColour ws px py old) := by
  simp [lastColour, List.foldl_append]

/-- A pixel no write is for keeps its colour. -/
theorem lastColour_of_not_hit {ws : List Write} {px py : Int} {old : Colour}
    (h : ∀ c, Write.pixel c px py ∉ ws) : lastColour ws px py old = old := by
  induction ws generalizing old with
  | nil => rfl
  | cons w ws ih =>
    have ih' := fun o => ih (old := o) (fun c hc => h c (List.mem_cons_of_mem _ hc))
    cases w with
    | fbByte i v => exact ih' _
    | pixel c x y =>
      have hne : ¬ (x = px ∧ y = py) := fun ⟨hx, hy⟩ => h c (by subst hx hy; exact List.mem_cons_self)
      simpa [lastColour, hne] using ih' old

/-- A pixel that is written, always with one colour, holds that colour. -/
theorem lastColour_of_uniform {ws : List Write} {px py : Int} {old c : Colour}
    (hit : Write.pixel c px py ∈ ws) (uni : ∀ c', Write.pixel c' px py ∈ ws → c' = c) :
    lastColour ws px py old = c := by
  induction ws generalizing old with
  | nil => simp at hit
  | cons w ws ih =>
    have uni' : ∀ c', Write.pixel c' px py ∈ ws → c' = c := fun c' hc' => uni c' (List.mem_cons_of_mem _ hc')
    by_cases hin : Write.pixel c px py ∈ ws
    · exact ih hin uni'
    · have hno : ∀ c', Write.pixel c' px py ∉ ws := fun c' hc' => hin (by rw [uni' c' hc'] at hc'; exact hc')
      have hw : w = .pixel c px py := by
        rcases List.mem_cons.1 hit with h | h
        · exact h.symm
        · exact absurd h hin
      subst hw
      show lastColour ws px py _ = c
      rw [lastColour_of_not_hit hno]
      simp

/-- After point writes of one colour, a canvas pixel holds it if one of them is for it, and its old colour if none is. -/
theorem pixelAt_applyWrites_uniform {cfg : Config} (hc : cfg.wf = true) {ws : List Write} (hw : AllOnCanvas cfg ws)
    (m : Memory) {px py : Int} (hp : inCanvas cfg px py) {c : Colour}
    (uni : ∀ c' x y, Write.pixel c' x y ∈ ws → c' = c) :
    pixelAt cfg (applyWrites cfg ws m) px py =
      if Write.pixel c px py ∈ ws then c else pixelAt cfg m px py := by
  rw [pixelAt_applyWrites hc hw m hp]
  split
  · rename_i h; exact lastColour_of_uniform h (fun c' hc' => uni c' px py hc')
  · rename_i h
    exact lastColour_of_not_hit (fun c' hc' => h (by rw [uni c' px py hc'] at hc'; exact hc'))

end Sys2Proof.Machine
end

