-- ==== Sys2Proof/Laws/Paint.lean ====
section
/-! SUPPORT. Every write of every drawing command is for a canvas pixel (40_pixel_storage.md R130), so the point
writer's assertion never fails, and what executing a command does, said once per command. -/

namespace Sys2Proof.Machine

/-! ### The point writer -/

/-- What `paint` does when it goes on: the writes, and nothing else. -/
theorem eq_of_paint_eq_next {ws : List Write} {s t : State} (h : paint ws s = .next t) :
    t = s.setMem (applyWrites s.config ws s.mem) := by
  unfold paint at h
  split at h
  · cases h
  · cases h; rfl

theorem paint_eq_next {ws : List Write} {s : State} (h : ∀ w ∈ ws, w.offCanvas? s.config = none) :
    paint ws s = .next (s.setMem (applyWrites s.config ws s.mem)) := by
  have : ws.findSome? (Write.offCanvas? s.config) = none := List.findSome?_eq_none_iff.2 h
  simp [paint, this]

theorem AllOnCanvas.paint_eq {ws : List Write} {s : State} (h : AllOnCanvas s.config ws) :
    paint ws s = .next (s.setMem (applyWrites s.config ws s.mem)) := by
  refine paint_eq_next fun w hw => ?_
  obtain ⟨c, x, y, rfl, hxy⟩ := h w hw
  simp [Write.offCanvas?, hxy]

/-- Point writes on the canvas store inside the pixel storage. -/
theorem AllOnCanvas.inStorage {cfg : Config} (hc : cfg.wf = true) {ws : List Write} (h : AllOnCanvas cfg ws)
    {w : Write} (hw : w ∈ ws) : inStorage cfg (w.address cfg) := by
  obtain ⟨c, x, y, rfl, hxy⟩ := h w hw
  have := pixByte_lt hc hxy
  simp only [Machine.inStorage, Write.address, Write.byteIndex]
  omega

/-! ### The primitives -/

@[simp] theorem mem_putPixelClipped {cfg : Config} {c : Colour} {x y : Int} {w : Write} :
    w ∈ putPixelClipped cfg c x y ↔ inCanvas cfg x y ∧ w = .pixel c x y := by
  unfold putPixelClipped
  split <;> rename_i h
  · rw [List.mem_singleton]; exact ⟨fun e => ⟨h, e⟩, fun e => e.2⟩
  · exact ⟨fun e => absurd e List.not_mem_nil, fun e => absurd e.1 h⟩

theorem mem_run {c : Colour} {sx y ex : Int} {w : Write} :
    w ∈ run c sx y ex ↔ ∃ xx, (sx ≤ xx ∧ xx < ex) ∧ w = .pixel c xx y := by
  simp [run, eq_comm]

theorem mem_column {c : Colour} {x lo hi : Int} {w : Write} :
    w ∈ column c x lo hi ↔ ∃ yy, (lo ≤ yy ∧ yy < hi) ∧ w = .pixel c x yy := by
  simp [column, eq_comm]

theorem mem_runClipped {cfg : Config} {c : Colour} {sx y ex : Int} {w : Write} :
    w ∈ runClipped cfg c sx y ex ↔ ∃ xx, (sx ≤ xx ∧ xx < ex) ∧ inCanvas cfg xx y ∧ w = .pixel c xx y := by
  unfold runClipped
  split
  · rename_i hy
    split
    · rw [mem_run]
      constructor
      · rintro ⟨xx, h, rfl⟩; exact ⟨xx, by omega, ⟨by omega, hy⟩, rfl⟩
      · rintro ⟨xx, h, h', rfl⟩; exact ⟨xx, by omega, rfl⟩
    · rename_i hlt
      simp only [List.not_mem_nil, false_iff]
      rintro ⟨xx, h, h', -⟩; omega
  · rename_i hy
    simp only [List.not_mem_nil, false_iff]
    rintro ⟨xx, -, h', -⟩; exact hy h'.2

theorem putPixelClipped_onCanvas (cfg : Config) (c : Colour) (x y : Int) :
    AllOnCanvas cfg (putPixelClipped cfg c x y) := by
  intro w hw
  rw [mem_putPixelClipped] at hw
  exact ⟨c, x, y, hw.2, hw.1⟩

theorem run_onCanvas {cfg : Config} (c : Colour) {sx y ex : Int}
    (h : sx < ex → (0 ≤ y ∧ y < cfg.height) ∧ 0 ≤ sx ∧ ex ≤ cfg.width) : AllOnCanvas cfg (run c sx y ex) := by
  intro w hw
  obtain ⟨xx, hx, rfl⟩ := mem_run.1 hw
  have := h (by omega)
  exact ⟨c, xx, y, rfl, by omega, this.1⟩

theorem runClipped_onCanvas (cfg : Config) (c : Colour) (sx y ex : Int) :
    AllOnCanvas cfg (runClipped cfg c sx y ex) := by
  intro w hw
  obtain ⟨xx, -, h, rfl⟩ := mem_runClipped.1 hw
  exact ⟨c, xx, y, rfl, h⟩

theorem column_onCanvas {cfg : Config} (c : Colour) {x lo hi : Int}
    (h : lo < hi → (0 ≤ x ∧ x < cfg.width) ∧ 0 ≤ lo ∧ hi ≤ cfg.height) : AllOnCanvas cfg (column c x lo hi) := by
  intro w hw
  obtain ⟨yy, hy, rfl⟩ := mem_column.1 hw
  have := h (by omega)
  exact ⟨c, x, yy, rfl, this.1, by omega⟩

/-! ### Each command's writes -/

theorem pixwWrites_onCanvas (s : State) : AllOnCanvas s.config (pixwWrites s) := putPixelClipped_onCanvas _ _ _ _

theorem hlineWrites_onCanvas (s : State) : AllOnCanvas s.config (hlineWrites s) := by
  simp only [hlineWrites]
  split
  · exact runClipped_onCanvas _ _ _ _ _
  · exact AllOnCanvas.nil _

theorem vlineWrites_onCanvas (s : State) : AllOnCanvas s.config (vlineWrites s) := by
  simp only [vlineWrites]
  split
  · split
    · exact AllOnCanvas.nil _
    · exact column_onCanvas _ (by omega)
  · exact AllOnCanvas.nil _

/-- Each fill pixel of a RECT whose clamped box is not empty (42_shapes.md R157). -/
theorem mem_rectFill {cfg : Config} {n0 n1 : Nibble} {b : RectBounds} {w : Write} :
    w ∈ rectFill cfg n0 n1 b ↔ enabled n0 ∧ ∃ xx yy,
      ((rectFillBox cfg n1 b).1 ≤ xx ∧ xx < (rectFillBox cfg n1 b).2.2.1) ∧
      ((rectFillBox cfg n1 b).2.1 ≤ yy ∧ yy < (rectFillBox cfg n1 b).2.2.2) ∧ w = .pixel (colour n0) xx yy := by
  unfold rectFill
  split
  · rename_i h
    simp only [List.mem_flatMap, mem_intRange, mem_run]
    constructor
    · rintro ⟨yy, hy, xx, hx, rfl⟩; exact ⟨h, xx, yy, hx, hy, rfl⟩
    · rintro ⟨-, xx, yy, hx, hy, rfl⟩; exact ⟨yy, hy, xx, hx, rfl⟩
  · rename_i h; simp [h]

/-- Each stroke pixel of a RECT (42_shapes.md R158, R159). -/
theorem mem_rectStroke {cfg : Config} {n1 : Nibble} {b : RectBounds} {w : Write} :
    w ∈ rectStroke cfg n1 b ↔ enabled n1 ∧ ∃ xx yy, w = .pixel (colour n1) xx yy ∧
      ((xx = b.x ∧ (0 ≤ b.x ∧ b.x < cfg.width) ∧ b.startY ≤ yy ∧ yy < rectVEnd cfg b) ∨
       (xx = b.endXU - 1 ∧ (0 < b.endXU ∧ b.endXU ≤ cfg.width) ∧ b.startY ≤ yy ∧ yy < rectVEnd cfg b) ∨
       (yy = b.y ∧ (0 ≤ b.y ∧ b.y < cfg.height) ∧ b.startX ≤ xx ∧ xx < b.endX) ∨
       (yy = b.endYU - 1 ∧ (0 < b.endYU ∧ b.endYU ≤ cfg.height) ∧ b.startX ≤ xx ∧ xx < b.endX)) := by
  unfold rectStroke
  split
  · rename_i h
    simp only [List.mem_append]
    constructor
    · rintro (((hw | hw) | hw) | hw) <;> split at hw <;> rename_i hg <;>
        first
          | exact absurd hw List.not_mem_nil
          | skip
      · obtain ⟨yy, hy, rfl⟩ := mem_column.1 hw; exact ⟨h, _, _, rfl, .inl ⟨rfl, hg, hy⟩⟩
      · obtain ⟨yy, hy, rfl⟩ := mem_column.1 hw; exact ⟨h, _, _, rfl, .inr (.inl ⟨rfl, hg, hy⟩)⟩
      · obtain ⟨xx, hx, rfl⟩ := mem_run.1 hw; exact ⟨h, _, _, rfl, .inr (.inr (.inl ⟨rfl, hg, hx⟩))⟩
      · obtain ⟨xx, hx, rfl⟩ := mem_run.1 hw; exact ⟨h, _, _, rfl, .inr (.inr (.inr ⟨rfl, hg, hx⟩))⟩
    · rintro ⟨-, xx, yy, rfl, (⟨rfl, hg, hy⟩ | ⟨rfl, hg, hy⟩ | ⟨rfl, hg, hx⟩ | ⟨rfl, hg, hx⟩)⟩
      · exact .inl (.inl (.inl (by rw [if_pos hg]; exact mem_column.2 ⟨yy, hy, rfl⟩)))
      · exact .inl (.inl (.inr (by rw [if_pos hg]; exact mem_column.2 ⟨yy, hy, rfl⟩)))
      · exact .inl (.inr (by rw [if_pos hg]; exact mem_run.2 ⟨xx, hx, rfl⟩))
      · exact .inr (by rw [if_pos hg]; exact mem_run.2 ⟨xx, hx, rfl⟩)
  · rename_i h; simp [h]

theorem rectFill_onCanvas {cfg : Config} (n0 n1 : Nibble) {x y width height : Int}
    (h : ¬ ((rectBounds cfg x y width height).endX ≤ (rectBounds cfg x y width height).startX ∨
      (rectBounds cfg x y width height).endY ≤ (rectBounds cfg x y width height).startY)) :
    AllOnCanvas cfg (rectFill cfg n0 n1 (rectBounds cfg x y width height)) := by
  intro w hw
  obtain ⟨-, xx, yy, hx, hy, rfl⟩ := mem_rectFill.1 hw
  refine ⟨_, xx, yy, rfl, ?_⟩
  simp only [rectBounds, rectFillBox] at h hx hy
  by_cases hi : cfg.rectInsetAfterClamp = true <;> by_cases hn : enabled n1 <;>
    simp only [hi, if_pos hn, if_neg hn, Bool.false_eq_true, reduceIte] at hx hy <;>
    constructor <;> constructor <;> omega

theorem rectStroke_onCanvas {cfg : Config} (n1 : Nibble) {x y width height : Int}
    (h : ¬ ((rectBounds cfg x y width height).endX ≤ (rectBounds cfg x y width height).startX ∨
      (rectBounds cfg x y width height).endY ≤ (rectBounds cfg x y width height).startY)) :
    AllOnCanvas cfg (rectStroke cfg n1 (rectBounds cfg x y width height)) := by
  intro w hw
  obtain ⟨-, xx, yy, rfl, hcases⟩ := mem_rectStroke.1 hw
  refine ⟨_, xx, yy, rfl, ?_⟩
  have hv : rectVEnd cfg (rectBounds cfg x y width height) ≤ (rectBounds cfg x y width height).endY := by
    unfold rectVEnd; split <;> omega
  generalize rectVEnd cfg (rectBounds cfg x y width height) = ve at *
  simp only [rectBounds] at *
  constructor <;> constructor <;> omega

theorem rectWrites_onCanvas (s : State) : AllOnCanvas s.config (rectWrites s) := by
  simp only [rectWrites]
  split
  · exact AllOnCanvas.nil _
  · rename_i h
    exact (rectFill_onCanvas _ _ h).append (rectStroke_onCanvas _ h)

theorem ovalPoints_onCanvas (cfg : Config) (o : OvalShape) (X Y : Int) : AllOnCanvas cfg (ovalPoints cfg o X Y) :=
  (((putPixelClipped_onCanvas _ _ _ _).append (putPixelClipped_onCanvas _ _ _ _)).append
    (putPixelClipped_onCanvas _ _ _ _)).append (putPixelClipped_onCanvas _ _ _ _)

theorem ovalSpans_onCanvas (cfg : Config) (o : OvalShape) (lo hi Y : Int) :
    AllOnCanvas cfg (ovalSpans cfg o lo hi Y) := by
  unfold ovalSpans
  split
  · exact (runClipped_onCanvas _ _ _ _ _).append (runClipped_onCanvas _ _ _ _ _)
  · exact AllOnCanvas.nil _

theorem ovalRegion1_onCanvas (cfg : Config) (o : OvalShape) (n : Nat) :
    ∀ X Y dx dy sx sy e, AllOnCanvas cfg (ovalRegion1 cfg o n X Y dx dy sx sy e) := by
  induction n with
  | zero => intros; exact AllOnCanvas.nil _
  | succ n ih =>
    intro X Y dx dy sx sy e
    simp only [ovalRegion1]
    split
    · refine ((ovalPoints_onCanvas _ _ _ _).append (ovalSpans_onCanvas _ _ _ _ _)).append ?_
      split <;> exact ih _ _ _ _ _ _ _
    · exact AllOnCanvas.nil _

theorem ovalRegion2_onCanvas (cfg : Config) (o : OvalShape) (n : Nat) :
    ∀ X Y dx dy sx sy e ddx, AllOnCanvas cfg (ovalRegion2 cfg o n X Y dx dy sx sy e ddx) := by
  induction n with
  | zero => intros; exact AllOnCanvas.nil _
  | succ n ih =>
    intro X Y dx dy sx sy e ddx
    simp only [ovalRegion2]
    split
    · refine (ovalPoints_onCanvas _ _ _ _).append ?_
      split
      · exact (ovalSpans_onCanvas _ _ _ _ _).append (ih _ _ _ _ _ _ _ _)
      · exact ih _ _ _ _ _ _ _ _
    · exact AllOnCanvas.nil _

theorem ovalWrites_onCanvas (s : State) : AllOnCanvas s.config (ovalWrites s) := by
  unfold ovalWrites
  split
  · exact AllOnCanvas.nil _
  · split
    · exact AllOnCanvas.nil _
    · exact (ovalRegion1_onCanvas _ _ _ _ _ _ _ _ _ _).append (ovalRegion2_onCanvas _ _ _ _ _ _ _ _ _ _ _)

theorem lineWrites_onCanvas (s : State) : AllOnCanvas s.config (lineWrites s) := by
  simp only [lineWrites]
  split
  · intro w hw
    obtain ⟨p, -, hp⟩ := List.mem_flatMap.1 hw
    exact putPixelClipped_onCanvas _ _ _ _ w hp
  · exact AllOnCanvas.nil _

@[simp] theorem mem_cells {cfg : Config} {b : Blit} {u v : Int} :
    (u, v) ∈ b.cells cfg ↔
      ((b.columns cfg).1 ≤ u ∧ u < (b.columns cfg).2) ∧ ((b.rows cfg).1 ≤ v ∧ v < (b.rows cfg).2) := by
  simp only [Blit.cells, List.mem_flatMap, List.mem_map, mem_intRange, Prod.mk.injEq]
  constructor
  · rintro ⟨v', hv, u', hu, rfl, rfl⟩; exact ⟨hu, hv⟩
  · rintro ⟨hu, hv⟩; exact ⟨v, hv, u, hu, rfl, rfl⟩

/-- Every cell of a blit lands on the canvas (43_sprite.md R210). -/
theorem dest_inCanvas {cfg : Config} {b : Blit} {u v : Int} (h : (u, v) ∈ b.cells cfg) :
    inCanvas cfg (b.dest u v).1 (b.dest u v).2 := by
  rw [mem_cells] at h
  simp only [Blit.columns, Blit.rows, Blit.dest] at *
  cases hr : b.rot <;> simp only [hr] at h ⊢ <;> simp at h ⊢ <;> omega

/-- Every write of a blit is for the destination of one of its cells. -/
theorem mem_blitLoop {draw : Nat → Byte} {cfg : Config} {m : Memory} {dcl : DrawColours} {b : Blit}
    {cs : List (Int × Int)} {d : Nat} {w : Write} (h : w ∈ (blitLoop draw cfg m dcl b cs d).1) :
    ∃ u v c, (u, v) ∈ cs ∧ w = .pixel c (b.dest u v).1 (b.dest u v).2 := by
  induction cs generalizing d with
  | nil => simp [blitLoop] at h
  | cons p cs ih =>
    obtain ⟨u, v⟩ := p
    simp only [blitLoop, List.mem_append] at h
    rcases h with h | h
    · unfold Blit.plot at h
      simp only at h
      split at h
      · exact ⟨u, v, _, List.mem_cons_self, List.mem_singleton.1 h⟩
      · exact absurd h List.not_mem_nil
    · obtain ⟨u', v', c, hm, hw⟩ := ih h
      exact ⟨u', v', c, List.mem_cons_of_mem _ hm, hw⟩

theorem blitBody_onCanvas (draw : Nat → Byte) (cfg : Config) (m : Memory) (dcl : DrawColours) (b : Blit) (d : Nat) :
    AllOnCanvas cfg (blitBody draw cfg m dcl b d).1 := by
  intro w hw
  obtain ⟨u, v, c, hm, rfl⟩ := mem_blitLoop hw
  exact ⟨c, _, _, rfl, dest_inCanvas hm⟩

theorem blitPlan_onCanvas (draw : Nat → Byte) (bpp2 flipX flipY rot : Bool) (s : State) :
    AllOnCanvas s.config (blitPlan draw bpp2 flipX flipY rot s).1 := blitBody_onCanvas _ _ _ _ _ _

theorem textLoop_onCanvas (draw : Nat → Byte) (cfg : Config) (m : Memory) (dcl : DrawColours) (ptr len : Nat) (x : Int)
    (n : Nat) : ∀ i cx cy d, AllOnCanvas cfg (textLoop draw cfg m dcl ptr len x n i cx cy d).1 := by
  induction n with
  | zero => intros; exact AllOnCanvas.nil _
  | succ n ih =>
    intro i cx cy d
    simp only [textLoop]
    split
    · exact AllOnCanvas.nil _
    · split
      · exact ih _ _ _ _
      · exact (blitBody_onCanvas _ _ _ _ _ _).append (ih _ _ _ _)

theorem textPlan_onCanvas (draw : Nat → Byte) (s : State) : AllOnCanvas s.config (textPlan draw s).1 :=
  textLoop_onCanvas _ _ _ _ _ _ _ _ _ _ _ _

/-! ### Each command -/

theorem execClear_eq (s : State) :
    execClear s = .next (s.setMem (applyWrites s.config (clearWrites s) s.mem)) := by
  refine paint_eq_next fun w hw => ?_
  obtain ⟨i, -, rfl⟩ := List.mem_map.1 hw
  rfl

theorem execPixw_eq {s : State} (h : s.u32 2 ≤ 3) :
    execPixw s = .next (s.setMem (applyWrites s.config (pixwWrites s) s.mem)) := by
  rw [execPixw, if_pos h]; exact (pixwWrites_onCanvas s).paint_eq

theorem execHline_eq (s : State) :
    execHline s = .next (s.setMem (applyWrites s.config (hlineWrites s) s.mem)) := (hlineWrites_onCanvas s).paint_eq

theorem execVline_eq (s : State) :
    execVline s = .next (s.setMem (applyWrites s.config (vlineWrites s) s.mem)) := (vlineWrites_onCanvas s).paint_eq

theorem execRect_eq (s : State) :
    execRect s = .next (s.setMem (applyWrites s.config (rectWrites s) s.mem)) := (rectWrites_onCanvas s).paint_eq

theorem execOval_eq (s : State) :
    execOval s = .next (s.setMem (applyWrites s.config (ovalWrites s) s.mem)) := (ovalWrites_onCanvas s).paint_eq

theorem execLine_eq (s : State) :
    execLine s = .next (s.setMem (applyWrites s.config (lineWrites s) s.mem)) := (lineWrites_onCanvas s).paint_eq

theorem execBlit_eq (bpp2 flipX flipY rot : Bool) (s : State) :
    execBlit bpp2 flipX flipY rot s =
      .next { s with
        mem := applyWrites s.config (blitPlan Config.draw bpp2 flipX flipY rot s).1 s.mem
        draws := (blitPlan Config.draw bpp2 flipX flipY rot s).2 } :=
  AllOnCanvas.paint_eq (s := { s with draws := _ }) (blitPlan_onCanvas Config.draw bpp2 flipX flipY rot s)

theorem execText_eq (s : State) :
    execText s = .next { s with mem := applyWrites s.config (textPlan Config.draw s).1 s.mem, draws := (textPlan Config.draw s).2 } :=
  AllOnCanvas.paint_eq (s := { s with draws := _ }) (textPlan_onCanvas Config.draw s)

/-- Every write of every command but CLEAR is for a canvas pixel, whatever its operands (40_pixel_storage.md R130). -/
theorem writesWith_onCanvas (draw : Nat → Byte) {i : Instr} (hi : i ≠ .clear) (s : State) :
    AllOnCanvas s.config (writesWith draw i s) := by
  cases i with
  | clear => exact absurd rfl hi
  | pixr => exact AllOnCanvas.nil _
  | pixw => exact pixwWrites_onCanvas s
  | hline => exact hlineWrites_onCanvas s
  | vline => exact vlineWrites_onCanvas s
  | rect => exact rectWrites_onCanvas s
  | oval => exact ovalWrites_onCanvas s
  | line => exact lineWrites_onCanvas s
  | blit bpp2 flipX flipY rot => exact blitPlan_onCanvas draw bpp2 flipX flipY rot s
  | text => exact textPlan_onCanvas draw s

/-- Every write of every command stores inside the pixel storage (40_pixel_storage.md R129, R130). -/
theorem writesWith_inStorage {draw : Nat → Byte} {i : Instr} {s : State} (hc : s.config.wf = true) {w : Write}
    (hw : w ∈ writesWith draw i s) : inStorage s.config (w.address s.config) := by
  by_cases hi : i = .clear
  · subst hi
    obtain ⟨i, hi, rfl⟩ := List.mem_map.1 hw
    have := List.mem_range.1 hi
    simp only [inStorage, Write.address, Write.byteIndex]
    omega
  · exact (writesWith_onCanvas draw hi s).inStorage hc hw

/-- What executing a command can do, once for all ten: its writes, RESULT for PIXR only, and the draws counter for BLIT
and TEXT only. -/
theorem exec_cases {i : Instr} {s t : State} (h : exec i s = .next t) :
    t = { s with mem := applyWrites s.config (writesOf i s) s.mem, result := t.result, draws := t.draws } ∧
    (i ≠ .pixr → t.result = s.result) ∧
    ((∀ a b c d, i ≠ .blit a b c d) → i ≠ .text → t.draws = s.draws) := by
  cases i with
  | clear => rw [exec, execClear_eq] at h; cases h; exact ⟨rfl, fun _ => rfl, fun _ _ => rfl⟩
  | pixw =>
    simp only [exec, execPixw] at h
    split at h
    · cases eq_of_paint_eq_next h; exact ⟨rfl, fun _ => rfl, fun _ _ => rfl⟩
    · cases h
  | pixr => simp only [exec, execPixr] at h; cases h; exact ⟨rfl, fun hn => absurd rfl hn, fun _ _ => rfl⟩
  | hline => rw [exec, execHline_eq] at h; cases h; exact ⟨rfl, fun _ => rfl, fun _ _ => rfl⟩
  | vline => rw [exec, execVline_eq] at h; cases h; exact ⟨rfl, fun _ => rfl, fun _ _ => rfl⟩
  | rect => rw [exec, execRect_eq] at h; cases h; exact ⟨rfl, fun _ => rfl, fun _ _ => rfl⟩
  | oval => rw [exec, execOval_eq] at h; cases h; exact ⟨rfl, fun _ => rfl, fun _ _ => rfl⟩
  | line => rw [exec, execLine_eq] at h; cases h; exact ⟨rfl, fun _ => rfl, fun _ _ => rfl⟩
  | blit a b c d =>
    rw [exec, execBlit_eq] at h; cases h
    exact ⟨rfl, fun _ => rfl, fun hn => absurd rfl (hn a b c d)⟩
  | text => rw [exec, execText_eq] at h; cases h; exact ⟨rfl, fun _ => rfl, fun _ hn => absurd rfl hn⟩

/-- A command goes on unless it is a PIXW with a colour above 3 (60_exceptions.md R240). -/
theorem exec_goes {i : Instr} {s : State} (h : i.wellFormed s.larg = true) : ∃ t, exec i s = .next t := by
  cases i with
  | clear => exact ⟨_, execClear_eq s⟩
  | pixw => exact ⟨_, execPixw_eq (by simpa [Instr.wellFormed, State.u32] using h)⟩
  | pixr => exact ⟨_, rfl⟩
  | hline => exact ⟨_, execHline_eq s⟩
  | vline => exact ⟨_, execVline_eq s⟩
  | rect => exact ⟨_, execRect_eq s⟩
  | oval => exact ⟨_, execOval_eq s⟩
  | line => exact ⟨_, execLine_eq s⟩
  | blit a b c d => exact ⟨_, execBlit_eq a b c d s⟩
  | text => exact ⟨_, execText_eq s⟩

end Sys2Proof.Machine
end

