-- ==== Sys2Proof/Laws/Sprite.lean ====
section
/-! SUPPORT. The laws of the sprite blitter: its cells, where each lands, what a cell draws, and that a blit and a TEXT
read memory only through their source bytes (43_sprite.md R200 to R217; 20_memory.md R78). -/

namespace Sys2Proof.Machine

/-- No cell is visited twice (43_sprite.md R211). -/
theorem cells_nodup (cfg : Config) (b : Blit) : (b.cells cfg).Nodup := by
  unfold Blit.cells
  rw [List.nodup_flatMap]
  refine ⟨fun v _ => List.Nodup.map (fun a b h => by simpa using h) (nodup_intRange _ _), ?_⟩
  refine (nodup_intRange _ _).imp ?_
  intro v v' hne
  simp only [Function.onFun]
  intro p h1 h2
  obtain ⟨_, _, rfl⟩ := List.mem_map.1 h1
  obtain ⟨_, _, e⟩ := List.mem_map.1 h2
  simp at e; exact hne e.2.symm

/-- Different cells have different destinations (43_sprite.md R211). -/
theorem dest_inj {b : Blit} {u v u' v' : Int} (h : b.dest u v = b.dest u' v') : u = u' ∧ v = v' := by
  simp only [Blit.dest, Prod.mk.injEq] at h
  cases hr : b.rot <;> simp [hr] at h <;> omega

/-- What one cell's write does to a pixel (43_sprite.md R209). -/
theorem lastColour_plot {b : Blit} {dcl : DrawColours} {idx : Colour} {u v : Int} {px py : Int} {old : Colour} :
   lastColour (b.plot dcl idx u v) px py old = if b.dest u v = (px, py) ∧ nibble dcl idx.toNat ≠ 0 then
       colour (nibble dcl idx.toNat) else old := by
  simp only [Blit.plot]
  by_cases hn : nibble dcl idx.toNat = 0
  · simp [hn, lastColour]
  · simp only [enabled, ne_eq, hn, not_false_eq_true, if_true, lastColour, List.foldl_cons, List.foldl_nil, and_true]
    have : b.dest u v = (px, py) ↔ (b.dest u v).1 = px ∧ (b.dest u v).2 = py := Prod.ext_iff
    simp only [this]

/-- A pixel that is no cell's destination keeps its colour. -/
theorem lastColour_blitLoop_of_not_dest {draw cfg m dcl} {b : Blit} {cs : List (Int × Int)} {d px py old}
    (h : ∀ u v, (u, v) ∈ cs → b.dest u v ≠ (px, py)) :
   lastColour (blitLoop draw cfg m dcl b cs d).1 px py old = old := by
  apply lastColour_of_not_hit
  intro c hc
  obtain ⟨u, v, c', hm, e⟩ := mem_blitLoop hc
  cases e; exact h u v hm rfl

/-- The destination of a cell whose source byte is in the sprite takes the sampled colour. -/
theorem lastColour_blitLoop_dest {draw cfg m dcl} {b : Blit} {cs : List (Int × Int)} {d old} {u v : Int} {byte : Byte}
    (hnd : cs.Nodup) (h : (u, v) ∈ cs)
   (hb : sourceByte? cfg m b.src (b.byteOffset (b.linear cfg u v)) = some byte) :
   lastColour (blitLoop draw cfg m dcl b cs d).1 (b.dest u v).1 (b.dest u v).2 old =
     if nibble dcl (b.index byte (b.linear cfg u v)).toNat ≠ 0 then
         colour (nibble dcl (b.index byte (b.linear cfg u v)).toNat) else old := by
  induction cs generalizing d old with
  | nil => simp at h
  | cons p cs ih =>
    obtain ⟨u', v'⟩ := p
    have hnd' := List.nodup_cons.1 hnd
    simp only [blitLoop]
    rw [lastColour_append, lastColour_plot]
    rcases List.mem_cons.1 h with e | hin
    · cases e
      rw [lastColour_blitLoop_of_not_dest]
      · simp only [srcByte, hb, true_and]
      · intro u' v' hm e
        obtain ⟨rfl, rfl⟩ := dest_inj e
        exact hnd'.1 hm
    · have hne : ¬ (b.dest u' v' = ((b.dest u v).1, (b.dest u v).2)) := by
        intro e
        obtain ⟨rfl, rfl⟩ := dest_inj e
        exact hnd'.1 hin
      rw [ih hnd'.2 hin]
      simp only [hne, false_and, if_false]

/-- A write outside a sequence changes none of its source bytes. -/
theorem sourceByte?_memSet_of_not_mem {cfg : Config} {m : Memory} {ptr len a : Nat} {v : Byte} {k : Int}
    (h : ¬ (ptr ≤ a ∧ a < ptr + len)) : sourceByte? cfg (memSet m a v) (.mem ptr len) k =
        sourceByte? cfg m (.mem ptr len) k := by
  simp only [sourceByte?]
  split
  · rename_i hk
    rw [memRead_memSet_ne]
    omega
  · rfl

/-- A blit depends on memory only through its source bytes (20_memory.md R78). -/
theorem blitBody_congr {draw : Nat → Byte} {cfg : Config} {m m' : Memory} {dcl : DrawColours} {b : Blit} (d : Nat)
   (h : ∀ k, sourceByte? cfg m' b.src k = sourceByte? cfg m b.src k) :
    blitBody draw cfg m' dcl b d = blitBody draw cfg m dcl b d := by
  simp only [blitBody]
  generalize b.cells cfg = cs
  induction cs generalizing d with
  | nil => rfl
  | cons p cs ih => obtain ⟨u, v⟩ := p; simp only [blitLoop, srcByte, h, ih]

/-- A TEXT depends on memory only through its codes (20_memory.md R78). -/
theorem textLoop_congr {draw : Nat → Byte} {cfg : Config} {m m' : Memory} {dcl : DrawColours} {ptr len : Nat} {x : Int}
   (h : ∀ k, sourceByte? cfg m' (.mem ptr len) k = sourceByte? cfg m (.mem ptr len) k) (n i : Nat) (cx cy : Int)
       (d : Nat) :
    textLoop draw cfg m' dcl ptr len x n i cx cy d = textLoop draw cfg m dcl ptr len x n i cx cy d := by
  induction n generalizing i cx cy d with
  | zero => rfl
  | succ n ih =>
    have : ∀ c cx cy d, blitBody draw cfg m' dcl (glyphBlit c cx cy) d = blitBody draw cfg m dcl (glyphBlit c cx cy) d :=
      fun c cx cy d => blitBody_congr d (fun k => rfl)
    have h2 : ∀ k d, srcByte draw cfg m' (.mem ptr len) k d = srcByte draw cfg m (.mem ptr len) k d := fun k d =>
        by simp only [srcByte, h]
    simp only [textLoop, h2, ih, this]

/-- Memories that read the same give the same source bytes (20_memory.md R78). -/
theorem sourceByte?_congr {cfg : Config} {m m' : Memory} (h : ∀ a, memRead m' a = memRead m a) (src : Source)
    (k : Int) : sourceByte? cfg m' src k = sourceByte? cfg m src k := by
  cases src <;> simp only [sourceByte?, h]

/-- What a command writes depends on memory only through its source bytes: with memories that read the same a command
makes the same writes. -/
theorem writesWith_congr (draw : Nat → Byte) (i : Instr) (s : State) {m : Memory}
    (h : ∀ a, memRead m a = memRead s.mem a) : writesWith draw i (s.setMem m) = writesWith draw i s := by
  cases i with
  | blit bpp2 flipX flipY rot =>
    exact congrArg Prod.fst (blitBody_congr s.draws (sourceByte?_congr h _))
  | text => exact congrArg Prod.fst (textLoop_congr (sourceByte?_congr h _) ..)
  | _ => rfl

/-- Only BLIT and TEXT take draws, so the writes of every other command are the same for every oracle. -/
theorem writesWith_draw {i : Instr} (hb : ∀ a b c d, i ≠ .blit a b c d) (ht : i ≠ .text) (draw draw' : Nat → Byte)
    (s : State) : writesWith draw i s = writesWith draw' i s := by
  cases i with
  | blit a b c d => exact absurd rfl (hb a b c d)
  | text => exact absurd rfl ht
  | _ => rfl

end Sys2Proof.Machine
end

