-- ==== Sys2Proof/Laws/State.lean ====
section
/-! SUPPORT. The named updates of State, field by field: what each sets, and that it leaves the rest. -/

namespace Sys2Proof.Machine

/-! ### `writeByte` -/

@[simp] theorem State.writeByte_config (s : State) (a : Nat) (v : Byte) : (s.writeByte a v).config = s.config := rfl
@[simp] theorem State.writeByte_mem (s : State) (a : Nat) (v : Byte) : (s.writeByte a v).mem = memSet s.mem a v := rfl
@[simp] theorem State.writeByte_cmd (s : State) (a : Nat) (v : Byte) : (s.writeByte a v).cmd = s.cmd := rfl
@[simp] theorem State.writeByte_busy (s : State) (a : Nat) (v : Byte) : (s.writeByte a v).busy = s.busy := rfl
@[simp] theorem State.writeByte_ill (s : State) (a : Nat) (v : Byte) : (s.writeByte a v).ill = s.ill := rfl
@[simp] theorem State.writeByte_result (s : State) (a : Nat) (v : Byte) : (s.writeByte a v).result = s.result := rfl
@[simp] theorem State.writeByte_args (s : State) (a : Nat) (v : Byte) : (s.writeByte a v).args = s.args := rfl
@[simp] theorem State.writeByte_lcmd (s : State) (a : Nat) (v : Byte) : (s.writeByte a v).lcmd = s.lcmd := rfl
@[simp] theorem State.writeByte_larg (s : State) (a : Nat) (v : Byte) : (s.writeByte a v).larg = s.larg := rfl
@[simp] theorem State.writeByte_dcl (s : State) (a : Nat) (v : Byte) : (s.writeByte a v).dcl = s.dcl := rfl
@[simp] theorem State.writeByte_turns (s : State) (a : Nat) (v : Byte) : (s.writeByte a v).turns = s.turns := rfl
@[simp] theorem State.writeByte_overwritten (s : State) (a : Nat) (v : Byte) :
    (s.writeByte a v).overwritten = s.overwritten := rfl
@[simp] theorem State.writeByte_readData (s : State) (a : Nat) (v : Byte) :
    (s.writeByte a v).readData = s.readData := rfl
@[simp] theorem State.writeByte_draws (s : State) (a : Nat) (v : Byte) : (s.writeByte a v).draws = s.draws := rfl
@[simp] theorem State.writeByte_frees (s : State) (a : Nat) (v : Byte) : (s.writeByte a v).frees = s.frees := rfl
@[simp] theorem State.writeByte_resets (s : State) (a : Nat) (v : Byte) : (s.writeByte a v).resets = s.resets := rfl

/-! ### `setMem` -/

@[simp] theorem State.setMem_config (s : State) (m : Memory) : (s.setMem m).config = s.config := rfl
@[simp] theorem State.setMem_mem (s : State) (m : Memory) : (s.setMem m).mem = m := rfl
@[simp] theorem State.setMem_cmd (s : State) (m : Memory) : (s.setMem m).cmd = s.cmd := rfl
@[simp] theorem State.setMem_busy (s : State) (m : Memory) : (s.setMem m).busy = s.busy := rfl
@[simp] theorem State.setMem_ill (s : State) (m : Memory) : (s.setMem m).ill = s.ill := rfl
@[simp] theorem State.setMem_result (s : State) (m : Memory) : (s.setMem m).result = s.result := rfl
@[simp] theorem State.setMem_args (s : State) (m : Memory) : (s.setMem m).args = s.args := rfl
@[simp] theorem State.setMem_lcmd (s : State) (m : Memory) : (s.setMem m).lcmd = s.lcmd := rfl
@[simp] theorem State.setMem_larg (s : State) (m : Memory) : (s.setMem m).larg = s.larg := rfl
@[simp] theorem State.setMem_dcl (s : State) (m : Memory) : (s.setMem m).dcl = s.dcl := rfl
@[simp] theorem State.setMem_turns (s : State) (m : Memory) : (s.setMem m).turns = s.turns := rfl
@[simp] theorem State.setMem_overwritten (s : State) (m : Memory) : (s.setMem m).overwritten = s.overwritten := rfl
@[simp] theorem State.setMem_readData (s : State) (m : Memory) : (s.setMem m).readData = s.readData := rfl
@[simp] theorem State.setMem_draws (s : State) (m : Memory) : (s.setMem m).draws = s.draws := rfl
@[simp] theorem State.setMem_frees (s : State) (m : Memory) : (s.setMem m).frees = s.frees := rfl
@[simp] theorem State.setMem_resets (s : State) (m : Memory) : (s.setMem m).resets = s.resets := rfl

/-! ### `recordIll` -/

@[simp] theorem State.recordIll_config (s : State) : s.recordIll.config = s.config := rfl
@[simp] theorem State.recordIll_mem (s : State) : s.recordIll.mem = s.mem := rfl
@[simp] theorem State.recordIll_cmd (s : State) : s.recordIll.cmd = s.cmd := rfl
@[simp] theorem State.recordIll_busy (s : State) : s.recordIll.busy = s.busy := rfl
@[simp] theorem State.recordIll_ill (s : State) : s.recordIll.ill = true := rfl
@[simp] theorem State.recordIll_result (s : State) : s.recordIll.result = s.result := rfl
@[simp] theorem State.recordIll_args (s : State) : s.recordIll.args = s.args := rfl
@[simp] theorem State.recordIll_lcmd (s : State) : s.recordIll.lcmd = s.lcmd := rfl
@[simp] theorem State.recordIll_larg (s : State) : s.recordIll.larg = s.larg := rfl
@[simp] theorem State.recordIll_dcl (s : State) : s.recordIll.dcl = s.dcl := rfl
@[simp] theorem State.recordIll_turns (s : State) : s.recordIll.turns = s.turns := rfl
@[simp] theorem State.recordIll_overwritten (s : State) : s.recordIll.overwritten = s.overwritten := rfl
@[simp] theorem State.recordIll_readData (s : State) : s.recordIll.readData = s.readData := rfl
@[simp] theorem State.recordIll_draws (s : State) : s.recordIll.draws = s.draws := rfl
@[simp] theorem State.recordIll_frees (s : State) : s.recordIll.frees = s.frees := rfl
@[simp] theorem State.recordIll_resets (s : State) : s.recordIll.resets = s.resets := rfl

/-! ### `clearIll` -/

@[simp] theorem State.clearIll_config (s : State) : s.clearIll.config = s.config := rfl
@[simp] theorem State.clearIll_mem (s : State) : s.clearIll.mem = s.mem := rfl
@[simp] theorem State.clearIll_cmd (s : State) : s.clearIll.cmd = s.cmd := rfl
@[simp] theorem State.clearIll_busy (s : State) : s.clearIll.busy = s.busy := rfl
@[simp] theorem State.clearIll_ill (s : State) : s.clearIll.ill = false := rfl
@[simp] theorem State.clearIll_result (s : State) : s.clearIll.result = s.result := rfl
@[simp] theorem State.clearIll_args (s : State) : s.clearIll.args = s.args := rfl
@[simp] theorem State.clearIll_lcmd (s : State) : s.clearIll.lcmd = s.lcmd := rfl
@[simp] theorem State.clearIll_larg (s : State) : s.clearIll.larg = s.larg := rfl
@[simp] theorem State.clearIll_dcl (s : State) : s.clearIll.dcl = s.dcl := rfl
@[simp] theorem State.clearIll_turns (s : State) : s.clearIll.turns = s.turns := rfl
@[simp] theorem State.clearIll_overwritten (s : State) : s.clearIll.overwritten = s.overwritten := rfl
@[simp] theorem State.clearIll_readData (s : State) : s.clearIll.readData = s.readData := rfl
@[simp] theorem State.clearIll_draws (s : State) : s.clearIll.draws = s.draws := rfl
@[simp] theorem State.clearIll_frees (s : State) : s.clearIll.frees = s.frees := rfl
@[simp] theorem State.clearIll_resets (s : State) : s.clearIll.resets = s.resets := rfl

/-! ### `setBusy` -/

@[simp] theorem State.setBusy_config (s : State) : s.setBusy.config = s.config := rfl
@[simp] theorem State.setBusy_mem (s : State) : s.setBusy.mem = s.mem := rfl
@[simp] theorem State.setBusy_cmd (s : State) : s.setBusy.cmd = s.cmd := rfl
@[simp] theorem State.setBusy_busy (s : State) : s.setBusy.busy = true := rfl
@[simp] theorem State.setBusy_ill (s : State) : s.setBusy.ill = s.ill := rfl
@[simp] theorem State.setBusy_result (s : State) : s.setBusy.result = s.result := rfl
@[simp] theorem State.setBusy_args (s : State) : s.setBusy.args = s.args := rfl
@[simp] theorem State.setBusy_lcmd (s : State) : s.setBusy.lcmd = s.lcmd := rfl
@[simp] theorem State.setBusy_larg (s : State) : s.setBusy.larg = s.larg := rfl
@[simp] theorem State.setBusy_dcl (s : State) : s.setBusy.dcl = s.dcl := rfl
@[simp] theorem State.setBusy_turns (s : State) : s.setBusy.turns = s.turns := rfl
@[simp] theorem State.setBusy_overwritten (s : State) : s.setBusy.overwritten = s.overwritten := rfl
@[simp] theorem State.setBusy_readData (s : State) : s.setBusy.readData = s.readData := rfl
@[simp] theorem State.setBusy_draws (s : State) : s.setBusy.draws = s.draws := rfl
@[simp] theorem State.setBusy_frees (s : State) : s.setBusy.frees = s.frees := rfl
@[simp] theorem State.setBusy_resets (s : State) : s.setBusy.resets = s.resets := rfl

/-! ### `endCommand` -/

@[simp] theorem State.endCommand_config (s : State) : s.endCommand.config = s.config := rfl
@[simp] theorem State.endCommand_mem (s : State) : s.endCommand.mem = s.mem := rfl
@[simp] theorem State.endCommand_cmd (s : State) : s.endCommand.cmd = s.cmd := rfl
@[simp] theorem State.endCommand_busy (s : State) : s.endCommand.busy = false := rfl
@[simp] theorem State.endCommand_ill (s : State) : s.endCommand.ill = s.ill := rfl
@[simp] theorem State.endCommand_result (s : State) : s.endCommand.result = s.result := rfl
@[simp] theorem State.endCommand_args (s : State) : s.endCommand.args = s.args := rfl
@[simp] theorem State.endCommand_lcmd (s : State) : s.endCommand.lcmd = s.lcmd := rfl
@[simp] theorem State.endCommand_larg (s : State) : s.endCommand.larg = s.larg := rfl
@[simp] theorem State.endCommand_dcl (s : State) : s.endCommand.dcl = s.dcl := rfl
@[simp] theorem State.endCommand_turns (s : State) : s.endCommand.turns = s.turns := rfl
@[simp] theorem State.endCommand_overwritten (s : State) : s.endCommand.overwritten = [] := rfl
@[simp] theorem State.endCommand_readData (s : State) : s.endCommand.readData = s.readData := rfl
@[simp] theorem State.endCommand_draws (s : State) : s.endCommand.draws = s.draws := rfl
@[simp] theorem State.endCommand_frees (s : State) : s.endCommand.frees = s.frees := rfl
@[simp] theorem State.endCommand_resets (s : State) : s.endCommand.resets = s.resets := rfl

/-! ### `latch` -/

@[simp] theorem State.latch_config (s : State) (w : Word) : (s.latch w).config = s.config := rfl
@[simp] theorem State.latch_mem (s : State) (w : Word) : (s.latch w).mem = s.mem := rfl
@[simp] theorem State.latch_cmd (s : State) (w : Word) : (s.latch w).cmd = s.cmd := rfl
@[simp] theorem State.latch_busy (s : State) (w : Word) : (s.latch w).busy = s.busy := rfl
@[simp] theorem State.latch_ill (s : State) (w : Word) : (s.latch w).ill = s.ill := rfl
@[simp] theorem State.latch_result (s : State) (w : Word) : (s.latch w).result = s.result := rfl
@[simp] theorem State.latch_args (s : State) (w : Word) : (s.latch w).args = s.args := rfl
@[simp] theorem State.latch_lcmd (s : State) (w : Word) : (s.latch w).lcmd = w := rfl
@[simp] theorem State.latch_larg (s : State) (w : Word) : (s.latch w).larg = s.args := rfl
@[simp] theorem State.latch_dcl (s : State) (w : Word) : (s.latch w).dcl = s.drawColours := rfl
@[simp] theorem State.latch_turns (s : State) (w : Word) : (s.latch w).turns = s.turns := rfl
@[simp] theorem State.latch_overwritten (s : State) (w : Word) : (s.latch w).overwritten = s.overwritten := rfl
@[simp] theorem State.latch_readData (s : State) (w : Word) : (s.latch w).readData = s.readData := rfl
@[simp] theorem State.latch_draws (s : State) (w : Word) : (s.latch w).draws = s.draws := rfl
@[simp] theorem State.latch_frees (s : State) (w : Word) : (s.latch w).frees = s.frees := rfl
@[simp] theorem State.latch_resets (s : State) (w : Word) : (s.latch w).resets = s.resets := rfl

/-! ### `takeTurn` -/

@[simp] theorem State.takeTurn_config (s : State) (ts : List Turn) : (s.takeTurn ts).config = s.config := rfl
@[simp] theorem State.takeTurn_mem (s : State) (ts : List Turn) : (s.takeTurn ts).mem = s.mem := rfl
@[simp] theorem State.takeTurn_cmd (s : State) (ts : List Turn) : (s.takeTurn ts).cmd = s.cmd := rfl
@[simp] theorem State.takeTurn_busy (s : State) (ts : List Turn) : (s.takeTurn ts).busy = s.busy := rfl
@[simp] theorem State.takeTurn_ill (s : State) (ts : List Turn) : (s.takeTurn ts).ill = s.ill := rfl
@[simp] theorem State.takeTurn_result (s : State) (ts : List Turn) : (s.takeTurn ts).result = s.result := rfl
@[simp] theorem State.takeTurn_args (s : State) (ts : List Turn) : (s.takeTurn ts).args = s.args := rfl
@[simp] theorem State.takeTurn_lcmd (s : State) (ts : List Turn) : (s.takeTurn ts).lcmd = s.lcmd := rfl
@[simp] theorem State.takeTurn_larg (s : State) (ts : List Turn) : (s.takeTurn ts).larg = s.larg := rfl
@[simp] theorem State.takeTurn_dcl (s : State) (ts : List Turn) : (s.takeTurn ts).dcl = s.dcl := rfl
@[simp] theorem State.takeTurn_turns (s : State) (ts : List Turn) : (s.takeTurn ts).turns = ts := rfl
@[simp] theorem State.takeTurn_overwritten (s : State) (ts : List Turn) :
    (s.takeTurn ts).overwritten = s.overwritten := rfl
@[simp] theorem State.takeTurn_readData (s : State) (ts : List Turn) : (s.takeTurn ts).readData = s.readData := rfl
@[simp] theorem State.takeTurn_draws (s : State) (ts : List Turn) : (s.takeTurn ts).draws = s.draws := rfl
@[simp] theorem State.takeTurn_frees (s : State) (ts : List Turn) : (s.takeTurn ts).frees = s.frees := rfl
@[simp] theorem State.takeTurn_resets (s : State) (ts : List Turn) : (s.takeTurn ts).resets = s.resets := rfl

/-! ### `resetRegisters` -/

@[simp] theorem State.resetRegisters_config (s : State) : s.resetRegisters.config = s.config := rfl
@[simp] theorem State.resetRegisters_mem (s : State) : s.resetRegisters.mem = s.mem := rfl
@[simp] theorem State.resetRegisters_cmd (s : State) : s.resetRegisters.cmd = 0 := rfl
@[simp] theorem State.resetRegisters_busy (s : State) : s.resetRegisters.busy = false := rfl
@[simp] theorem State.resetRegisters_ill (s : State) : s.resetRegisters.ill = false := rfl
@[simp] theorem State.resetRegisters_result (s : State) : s.resetRegisters.result = 0 := rfl
@[simp] theorem State.resetRegisters_args (s : State) : s.resetRegisters.args = Vector.replicate 9 0 := rfl
@[simp] theorem State.resetRegisters_lcmd (s : State) : s.resetRegisters.lcmd = 0 := rfl
@[simp] theorem State.resetRegisters_larg (s : State) : s.resetRegisters.larg = Vector.replicate 9 0 := rfl
@[simp] theorem State.resetRegisters_dcl (s : State) : s.resetRegisters.dcl = 0 := rfl
@[simp] theorem State.resetRegisters_turns (s : State) : s.resetRegisters.turns = s.turns := rfl
@[simp] theorem State.resetRegisters_overwritten (s : State) : s.resetRegisters.overwritten = [] := rfl
@[simp] theorem State.resetRegisters_readData (s : State) : s.resetRegisters.readData = s.readData := rfl
@[simp] theorem State.resetRegisters_draws (s : State) : s.resetRegisters.draws = s.draws := rfl
@[simp] theorem State.resetRegisters_frees (s : State) : s.resetRegisters.frees = s.frees := rfl
@[simp] theorem State.resetRegisters_resets (s : State) : s.resetRegisters.resets = s.resets + 1 := rfl

end Sys2Proof.Machine
end

