-- ==== Sys2Proof/Laws/Engine.lean ====
section
/-! SUPPORT. The laws of the Engine and the host accesses: the any-value bytes, the set S, what a completion can do, what
each turn can do, each said once. -/

namespace Sys2Proof.Machine

/-! ### Any-value bytes -/

/-- Giving bytes any value changes only memory and the count of any-value bytes. -/
theorem freeBytes_eq (l : List Nat) (s : State) :
    freeBytes l s = { s with mem := (freeBytes l s).mem, frees := s.frees + l.length } := by
  induction l generalizing s with
  | nil => rfl
  | cons a l ih =>
    rw [freeBytes, ih]
    simp only [State.writeByte, List.length_cons]
    congr 1
    omega

/-- The bytes given depend on memory and the count of any-value bytes alone. -/
theorem freeBytes_mem_congr {l : List Nat} {s s' : State} (hm : s.mem = s'.mem) (hf : s.frees = s'.frees) :
    (freeBytes l s).mem = (freeBytes l s').mem := by
  induction l generalizing s s' with
  | nil => exact hm
  | cons a l ih => exact ih (by simp [hm, hf]) (by simp [hf])

theorem readByte_freeBytes_of_not_mem {l : List Nat} {s : State} {b : Nat} (h : b ∉ l) :
    (freeBytes l s).readByte b = s.readByte b := by
  induction l generalizing s with
  | nil => rfl
  | cons a l ih =>
    rw [freeBytes, ih (fun hb => h (List.mem_cons_of_mem _ hb))]
    exact memRead_memSet_ne _ _ (fun e => h (e ▸ List.mem_cons_self))

theorem readByte_freeBytes_of_mem {l : List Nat} {s : State} {b : Nat} (h : b ∈ l) :
    ∃ k, (freeBytes l s).readByte b = Config.freeByte k := by
  induction l generalizing s with
  | nil => exact absurd h List.not_mem_nil
  | cons a l ih =>
    rw [freeBytes]
    by_cases hb : b ∈ l
    · exact ih hb
    · rw [readByte_freeBytes_of_not_mem hb]
      obtain rfl : b = a := (List.mem_cons.1 h).resolve_right hb
      exact ⟨s.frees, memRead_memSet_self ..⟩

theorem freeBytes_wf {l : List Nat} {s : State} (h : Memory.wf s.mem) : Memory.wf (freeBytes l s).mem := by
  induction l generalizing s with
  | nil => exact h
  | cons a l ih => exact ih (memSet_wf _ _ h)

theorem freeBytes_within {l : List Nat} {s : State} {n : Nat} (hl : ∀ a ∈ l, a < n) (h : Memory.within s.mem n) :
    Memory.within (freeBytes l s).mem n := by
  induction l generalizing s with
  | nil => exact h
  | cons a l ih =>
    exact ih (fun b hb => hl b (List.mem_cons_of_mem _ hb)) (memSet_within _ (hl a List.mem_cons_self) h)

/-! ### The set S -/

/-- S: the addresses a command's writes store to (70_reset_and_hazards.md R261). -/
theorem mem_addressesWritten {draw : Nat → Byte} {i : Instr} {s : State} (hc : s.config.wf = true) {b : Nat} :
    b ∈ addressesWritten s.config (writesWith draw i s) ↔ ∃ w ∈ writesWith draw i s, b = w.address s.config := by
  simp only [addressesWritten, bytesWritten, List.mem_map, List.mem_filter, List.mem_range, List.any_eq_true,
    beq_iff_eq]
  constructor
  · rintro ⟨k, ⟨-, w, hw, rfl⟩, rfl⟩; exact ⟨w, hw, rfl⟩
  · rintro ⟨w, hw, rfl⟩
    have := writesWith_inStorage hc hw
    simp only [inStorage, Write.address] at this
    exact ⟨w.byteIndex s.config, ⟨by omega, w, hw, rfl⟩, rfl⟩

theorem inStorage_of_mem_addressesWritten {cfg : Config} {ws : List Write} {b : Nat}
    (h : b ∈ addressesWritten cfg ws) : inStorage cfg b := by
  simp only [addressesWritten, bytesWritten, List.mem_map, List.mem_filter, List.mem_range] at h
  obtain ⟨k, ⟨hk, -⟩, rfl⟩ := h
  exact ⟨by omega, by omega⟩

theorem inStorage_of_mem_abandoned {s : State} {b : Nat} (h : b ∈ abandoned s) : inStorage s.config b := by
  unfold abandoned at h
  split at h
  · split at h
    · exact inStorage_of_mem_addressesWritten h
    · exact absurd h List.not_mem_nil
  · exact absurd h List.not_mem_nil

/-- What holds any value at a completion exists (70_reset_and_hazards.md R265). -/
theorem lt_of_mem_anyAtCompletion {i : Instr} {s : State} (hc : s.config.wf = true)
    (ho : Memory.within s.overwritten s.config.memSize) {b : Nat} (h : b ∈ anyAtCompletion i s) :
    b < s.config.memSize := by
  rcases List.mem_append.1 h with h | h
  · have := inStorage_of_mem_addressesWritten h
    have := Config.wf_storage hc
    omega
  · obtain ⟨x, hx, rfl⟩ := List.mem_map.1 h
    exact ho x hx

/-! ### Completion -/

/-- A command changes nothing but memory, RESULT and the count of draws. -/
theorem exec_frame {i : Instr} {s t : State} (h : exec i s = .next t) :
    t = { s with mem := t.mem, result := t.result, draws := t.draws } := by
  have h' := (exec_cases h).1
  have hm : t.mem = applyWrites s.config (writesOf i s) s.mem := congrArg State.mem h'
  rw [hm]
  exact h'

/-- A command's writes and its result depend only on the configuration, the operand latches, memory and the draws
(30_encoding.md R103): two states that agree on them give states that agree on what the command changes. -/
theorem exec_congr {i : Instr} {s s' t : State} (hc : s'.config = s.config) (hl : s'.larg = s.larg)
    (hd : s'.dcl = s.dcl) (hm : s'.mem = s.mem) (hk : s'.draws = s.draws) (h : exec i s = .next t) :
    exec i s' = .next { s' with mem := t.mem, draws := t.draws,
                                result := if i = .pixr then t.result else s'.result } := by
  obtain ⟨config, mem, cmd, busy, ill, result, args, lcmd, larg, dcl, turns, overwritten, readData, draws,
    frees, resets⟩ := s
  obtain ⟨config', mem', cmd', busy', ill', result', args', lcmd', larg', dcl', turns', overwritten', readData', draws',
    frees', resets'⟩ := s'
  simp only at hc hl hd hm hk
  subst hc hl hd hm hk
  cases i with
  | pixw =>
    by_cases h3 : larg'[2].toNat ≤ 3
    · have hu : ∀ u : State, u.larg = larg' → u.u32 2 ≤ 3 := by rintro u rfl; exact h3
      rw [exec, execPixw_eq (hu _ rfl)] at h ⊢; cases h; rfl
    · have hu : ∀ u : State, u.larg = larg' → ¬ u.u32 2 ≤ 3 := by rintro u rfl; exact h3
      rw [exec, execPixw, if_neg (hu _ rfl)] at h
      cases h
  | pixr => simp only [exec, execPixr] at h ⊢; cases h; rfl
  | clear => rw [exec, execClear_eq] at h ⊢; cases h; rfl
  | hline => rw [exec, execHline_eq] at h ⊢; cases h; rfl
  | vline => rw [exec, execVline_eq] at h ⊢; cases h; rfl
  | rect => rw [exec, execRect_eq] at h ⊢; cases h; rfl
  | oval => rw [exec, execOval_eq] at h ⊢; cases h; rfl
  | line => rw [exec, execLine_eq] at h ⊢; cases h; rfl
  | blit a b c d => rw [exec, execBlit_eq] at h ⊢; cases h; rfl
  | text => rw [exec, execText_eq] at h ⊢; cases h; rfl

/-- A command reads memory only by its bytes: on a memory that reads the same it gives the same RESULT and draws, and
changes nothing else but memory (30_encoding.md R103). -/
theorem exec_setMem {i : Instr} {s u : State} {m : Memory} (h : ∀ a, memRead m a = memRead s.mem a)
    (hu : exec i s = .next u) : ∃ m', exec i (s.setMem m) = .next { u with mem := m' } := by
  cases i with
  | pixw =>
    by_cases h3 : s.u32 2 ≤ 3
    · rw [exec, execPixw_eq h3] at hu; cases hu
      exact ⟨_, execPixw_eq (s := s.setMem m) h3⟩
    · rw [exec, execPixw, if_neg h3] at hu; cases hu
  | pixr =>
    rw [exec, execPixr] at hu; cases hu
    refine ⟨m, ?_⟩
    simp only [exec, execPixr, State.getPixel, pixelAt, State.setMem_mem, State.setMem_config, h]; rfl
  | blit a b c d =>
    have e : blitPlan Config.draw a b c d (s.setMem m) = blitPlan Config.draw a b c d s :=
      blitBody_congr s.draws (sourceByte?_congr h _)
    rw [exec, execBlit_eq] at hu; cases hu
    exact ⟨_, by rw [exec, execBlit_eq, e]; rfl⟩
  | text =>
    have e : textPlan Config.draw (s.setMem m) = textPlan Config.draw s :=
      textLoop_congr (sourceByte?_congr h _) ..
    rw [exec, execText_eq] at hu; cases hu
    exact ⟨_, by rw [exec, execText_eq, e]; rfl⟩
  | clear => rw [exec, execClear_eq] at hu; cases hu; exact ⟨_, execClear_eq _⟩
  | hline => rw [exec, execHline_eq] at hu; cases hu; exact ⟨_, execHline_eq _⟩
  | vline => rw [exec, execVline_eq] at hu; cases hu; exact ⟨_, execVline_eq _⟩
  | rect => rw [exec, execRect_eq] at hu; cases hu; exact ⟨_, execRect_eq _⟩
  | oval => rw [exec, execOval_eq] at hu; cases hu; exact ⟨_, execOval_eq _⟩
  | line => rw [exec, execLine_eq] at hu; cases hu; exact ⟨_, execLine_eq _⟩

/-- What a completion can do, once: it decodes the latched word, executes it on memory as at the issue, and changes only
memory, RESULT, the counters, BUSY and what is noted of forbidden writes. -/
theorem complete_cases {s t : State} (h : complete s = .next t) :
    ∃ i u, decode s.lcmd = .ok i ∧ exec i s.atIssue = .next u ∧ t = { s with
      mem := if s.overwritten = [] then u.mem else (freeBytes (anyAtCompletion i s) s).mem
      result := u.result, draws := u.draws
      frees := s.frees + (if s.overwritten = [] then 0 else (anyAtCompletion i s).length)
      busy := false, overwritten := [] } := by
  unfold complete at h
  split at h
  · cases h
  · rename_i i hi
    cases he : exec i s.atIssue with
    | fault f => rw [he] at h; cases h
    | refused r => rw [he] at h; cases h
    | next u =>
      refine ⟨i, u, hi, he, ?_⟩
      rw [he] at h
      simp only [finish] at h
      by_cases hs : s.overwritten = []
      · rw [if_pos hs] at h
        cases h
        rw [if_pos hs, if_pos hs, exec_frame he]; rfl
      · rw [if_neg hs] at h
        cases h
        have hf : u.frees = s.frees := by rw [exec_frame he]; rfl
        rw [if_neg hs, if_neg hs, freeBytes_eq, freeBytes_mem_congr (s := u.setMem s.mem) (s' := s) rfl hf, exec_frame he]; rfl

/-- A completion written out. -/
theorem complete_eq {s u : State} {i : Instr} (hi : decode s.lcmd = .ok i) (hu : exec i s.atIssue = .next u) :
    complete s = .next { s with
      mem := if s.overwritten = [] then u.mem else (freeBytes (anyAtCompletion i s) s).mem
      result := u.result, draws := u.draws
      frees := s.frees + (if s.overwritten = [] then 0 else (anyAtCompletion i s).length)
      busy := false, overwritten := [] } := by
  obtain ⟨t, ht⟩ : ∃ t, complete s = .next t := by
    rw [complete]; simp only [hi, hu, finish]; split <;> exact ⟨_, rfl⟩
  obtain ⟨j, v, hj, hv, rfl⟩ := complete_cases ht
  rw [hi] at hj; cases hj
  rw [hu] at hv; cases hv
  exact ht

/-- A completion changes only memory, RESULT, the counters, BUSY and what is noted of forbidden writes. -/
theorem complete_frame {s t : State} (h : complete s = .next t) : t = { s with
    mem := t.mem, result := t.result, draws := t.draws, frees := t.frees, busy := false, overwritten := [] } := by
  obtain ⟨i, u, hi, hu, rfl⟩ := complete_cases h; rfl

/-- A completion of a word that decodes, with well-formed operands, goes on. -/
theorem complete_next {s : State} {i : Instr} (hi : decode s.lcmd = .ok i) (hw : i.wellFormed s.larg = true) :
    ∃ t, complete s = .next t := by
  obtain ⟨t, ht⟩ := exec_goes (s := s.atIssue) hw
  rw [complete]; simp only [hi, ht, finish]
  split <;> exact ⟨_, rfl⟩

/-! ### The host's turns -/

/-- The issue step written out (30_encoding.md R100). -/
theorem issue_eq (w : Word) (s : State) : issue w s = (if s.busy then { s with cmd := w, ill := true }
     else if legal w s.args then
       { s with
         cmd := w, lcmd := w, larg := s.args,
         dcl := s.drawColours, busy := true }
     else { s with cmd := w, ill := true }) := by
  unfold issue
  split
  · rfl
  · split <;> rfl

/-- A forbidden write's note changes nothing but the list of overwritten bytes. -/
theorem noteOverwrite_eq (s : State) (a : Nat) :
    s.noteOverwrite a = { s with overwritten := (s.noteOverwrite a).overwritten } := by
  unfold State.noteOverwrite; split <;> rfl

theorem noteOverwrite_wf {s : State} (a : Nat) (h : Memory.wf s.overwritten) :
    Memory.wf (s.noteOverwrite a).overwritten := by
  unfold State.noteOverwrite; split
  · exact h
  · exact memSet_wf _ _ h

theorem noteOverwrite_within {s : State} {a n : Nat} (ha : a < n) (h : Memory.within s.overwritten n) :
    Memory.within (s.noteOverwrite a).overwritten n := by
  unfold State.noteOverwrite; split
  · exact h
  · exact memSet_within _ ha h

/-- What a forbidden write notes: memory as at the issue stays what it was (log 11). -/
theorem memRead_atIssue_write {s : State} (hw : Memory.wf s.overwritten) (a : Nat) (v : Byte) (b : Nat) :
    ((s.noteOverwrite a).writeByte a v).atIssue.readByte b = s.atIssue.readByte b := by
  simp only [State.atIssue, State.readByte, State.setMem_mem, State.writeByte_overwritten, State.writeByte_mem]
  rw [memRead_restore (noteOverwrite_wf a hw), memRead_restore hw, noteOverwrite_eq]
  unfold State.noteOverwrite
  cases hg : memGet? s.overwritten a with
  | some w =>
    by_cases hab : b = a
    · subst hab; simp [hg]
    · simp [memRead_memSet_ne _ _ hab]
  | none =>
    by_cases hab : b = a
    · subst hab; simp [memGet?_memSet, hg, State.readByte]
    · simp [memGet?_memSet, hab, memRead_memSet_ne _ _ hab]

/-- What a host turn can do, once: the read; the accepted issue; the rejected issue; STATUS; ARG; a write that is
ignored; a byte write; a byte read. -/
theorem hostTurn_cases {act : HostAction} {s t : State} (h : hostTurn act s = .next t) :
    (∃ r, act = .regRead r ∧ t = { s with readData := s.readReg r }) ∨
    (∃ w, act = .regWrite .cmd w ∧ s.busy = false ∧ legal w s.args = true ∧ t = { s with
        cmd := w, lcmd := w, larg := s.args, dcl := s.drawColours, busy := true }) ∨
    (∃ w, act = .regWrite .cmd w ∧ (s.busy = true ∨ legal w s.args = false) ∧ t = { s with cmd := w, ill := true }) ∨
    (∃ v, act = .regWrite .status v ∧ t = { s with ill := s.ill && !v.getLsbD 1 }) ∨
    (∃ k v, act = .regWrite (.arg k) v ∧ t = { s with args := s.args.set k v }) ∨
    (∃ r v, act = .regWrite r v ∧ (r = .result ∨ r = .reservedLow ∨ ∃ k, r = .reservedHigh k) ∧ t = s) ∨
    (∃ a v, act = .memWrite a v ∧ a < s.config.memSize ∧
      t = { s with mem := memSet s.mem a v, overwritten := if forbiddenWrite s a then
          (s.noteOverwrite a).overwritten else s.overwritten }) ∨
    (∃ a, act = .memRead a ∧ a < s.config.memSize ∧ t = { s with readData := t.readData, frees := t.frees }) := by
  cases act with
  | regRead r => cases h; exact .inl ⟨r, rfl, rfl⟩
  | regWrite r v =>
    cases r with
    | cmd =>
      cases h
      by_cases hb : s.busy = true
      · refine .inr (.inr (.inl ⟨v, rfl, .inl hb, ?_⟩)); rw [State.writeReg, issue_eq, if_pos hb]
      · by_cases hl : legal v s.args = true
        · refine .inr (.inl ⟨v, rfl, by simpa using hb, hl, ?_⟩); rw [State.writeReg, issue_eq, if_neg hb, if_pos hl]
        · refine .inr (.inr (.inl ⟨v, rfl, .inr (by simpa using hl), ?_⟩))
          rw [State.writeReg, issue_eq, if_neg hb, if_neg hl]
    | status =>
      cases h
      refine .inr (.inr (.inr (.inl ⟨v, rfl, ?_⟩)))
      simp only [State.writeReg, State.writeStatus]
      cases hv : v.getLsbD 1 <;> simp [State.clearIll]
    | arg k => cases h; exact .inr (.inr (.inr (.inr (.inl ⟨k, v, rfl, rfl⟩))))
    | result => cases h; exact .inr (.inr (.inr (.inr (.inr (.inl ⟨_, v, rfl, .inl rfl, rfl⟩)))))
    | reservedLow => cases h; exact .inr (.inr (.inr (.inr (.inr (.inl ⟨_, v, rfl, .inr (.inl rfl), rfl⟩)))))
    | reservedHigh k => cases h; exact .inr (.inr (.inr (.inr (.inr (.inl ⟨_, v, rfl, .inr (.inr ⟨k, rfl⟩), rfl⟩)))))
  | memRead a =>
    simp only [hostTurn, hostMemRead] at h
    split at h
    · rename_i ha
      refine .inr (.inr (.inr (.inr (.inr (.inr (.inr ⟨a, rfl, ha, ?_⟩))))))
      split at h <;> cases h <;> rfl
    · cases h
  | memWrite a v =>
    simp only [hostTurn, hostMemWrite] at h
    split at h
    · rename_i ha
      refine .inr (.inr (.inr (.inr (.inr (.inr (.inl ⟨a, v, rfl, ha, ?_⟩))))))
      split at h <;> cases h <;> rename_i hf <;> simp only [hf]
      · rw [noteOverwrite_eq]; rfl
      · rfl
    · cases h

/-- A reset written out (10_state.md R48; 70_reset_and_hazards.md R260, R261). -/
theorem reset_eq (s : State) : resetTurn s = { s with
    mem := (freeBytes (abandoned s) s).mem, frees := s.frees + (abandoned s).length
    cmd := 0, busy := false, ill := false, result := 0, args := Vector.replicate 9 0,
    lcmd := 0, larg := Vector.replicate 9 0, dcl := 0, overwritten := [], resets := s.resets + 1 } := by
  rw [resetTurn, freeBytes_eq]; rfl

/-! ### The step -/

/-- A step of a machine with an accepted configuration. -/
theorem step_eq {s : State} (h : s.config.wf = true) : step s = match s.turns with
    | [] => engineTurn s
    | t :: ts => runTurn t (s.takeTurn ts) := if_pos h

/-- What a step can do, once: nothing; an idle Engine turn; a completion; a host turn; a reset. -/
theorem step_cases {s t : State} (h : step s = .next t) :
    s.config.wf = true ∧
    ((s.turns = [] ∧ s.busy = false ∧ t = s) ∨
     (∃ ts, s.turns = .engine :: ts ∧ s.busy = false ∧ t = s.takeTurn ts) ∨
     (∃ ts, (s.turns = [] ∧ ts = [] ∨ s.turns = .engine :: ts) ∧ s.busy = true ∧ complete (s.takeTurn ts) = .next t) ∨
     (∃ ts act, s.turns = .host act :: ts ∧ hostTurn act (s.takeTurn ts) = .next t) ∨
     (∃ ts, s.turns = .reset :: ts ∧ t = resetTurn (s.takeTurn ts))) := by
  unfold step at h
  split at h
  · rename_i hc
    refine ⟨hc, ?_⟩
    split at h
    · rename_i ht
      rw [engineTurn] at h
      split at h
      · rename_i hb
        have : s.takeTurn [] = s := by cases s; simp only at ht; subst ht; rfl
        exact .inr (.inr (.inl ⟨[], .inl ⟨ht, rfl⟩, hb, by rw [this]; exact h⟩))
      · rename_i hb; cases h; exact .inl ⟨ht, by simpa using hb, rfl⟩
    · rename_i u ts ht
      cases u with
      | engine =>
        simp only [runTurn, engineTurn] at h
        split at h
        · rename_i hb; exact .inr (.inr (.inl ⟨ts, .inr ht, hb, h⟩))
        · rename_i hb; cases h; exact .inr (.inl ⟨ts, ht, by simpa [State.takeTurn] using hb, rfl⟩)
      | host act => exact .inr (.inr (.inr (.inl ⟨ts, act, ht, h⟩)))
      | reset => cases h; exact .inr (.inr (.inr (.inr ⟨ts, ht, rfl⟩)))
  · cases h

/-- A step takes one turn. -/
theorem step_turns {s t : State} (h : step s = .next t) : t.turns = s.turns.tail := by
  obtain ⟨hc, (⟨ht, -, rfl⟩ | ⟨ts, ht, -, rfl⟩ | ⟨ts, ht, hb, h⟩ | ⟨ts, act, ht, h⟩ | ⟨ts, ht, rfl⟩)⟩ := step_cases h
  · rw [ht]; rfl
  · rw [ht]; rfl
  · rw [complete_frame h]
    rcases ht with ⟨ht, rfl⟩ | ht <;> rw [ht] <;> rfl
  · rw [ht]
    rcases hostTurn_cases h with ⟨_, _, rfl⟩ | ⟨w, rfl, hnb, hl, rfl⟩ | ⟨_, _, _, rfl⟩ | ⟨_, _, rfl⟩ |
        ⟨_, _, _, rfl⟩ | ⟨_, _, _, _, rfl⟩ | ⟨b, v, rfl, hb, rfl⟩ | ⟨_, _, _, h⟩
    on_goal 8 => rw [h]
    all_goals rfl
  · rw [reset_eq, ht]; rfl

end Sys2Proof.Machine
end

