-- ==== Sys2Proof/Laws/Oval.lean ====
section
/-! SUPPORT. The laws of the ellipse loop: what one step's points and spans do to a pixel, and that its loops end within
their fuel (42_shapes.md R161; 70_reset_and_hazards.md R270). -/

namespace Sys2Proof.Machine

/-- What writes of one colour do to a pixel. -/
theorem lastColour_uniform {ws : List Write} {c : Colour} (uni : ∀ c' x y, Write.pixel c' x y ∈ ws → c' = c)
    (px py : Int) (old : Colour) :
   lastColour ws px py old = if Write.pixel c px py ∈ ws then c else old := by
  split
  · rename_i h; exact lastColour_of_uniform h (fun c' h' => uni c' px py h')
  · rename_i h; exact lastColour_of_not_hit (fun c' h' => h (by rw [uni c' px py h'] at h'; exact h'))

/-- What the four points of a step do to a canvas pixel. -/
theorem lastColour_ovalPoints (cfg : Config) (o : OvalShape) (X Y px py : Int) (old : Colour)
    (hp : inCanvas cfg px py) :
   lastColour (ovalPoints cfg o X Y) px py old = if (px = o.x0 + X ∨ px = o.x0 - X) ∧ (py = o.y0 + Y ∨ py =
       o.y0 - Y) then o.stroke else old := by
  rw [lastColour_uniform (c := o.stroke)]
  · have : Write.pixel o.stroke px py ∈ ovalPoints cfg o X Y ↔ ((px = o.x0 + X ∨ px = o.x0 - X) ∧ (py = o.y0 + Y ∨
      py = o.y0 - Y)) := by
      simp only [ovalPoints, List.mem_append, mem_putPixelClipped, Write.pixel.injEq, true_and]
      constructor
      · rintro (((h | h) | h) | h) <;> omega
      · rintro ⟨rfl | rfl, rfl | rfl⟩
        · exact .inl (.inl (.inl ⟨hp, rfl, rfl⟩))
        · exact .inl (.inl (.inr ⟨hp, rfl, rfl⟩))
        · exact .inl (.inr ⟨hp, rfl, rfl⟩)
        · exact .inr ⟨hp, rfl, rfl⟩
    simp only [this]
  · intro c' x y h
    simp only [ovalPoints, List.mem_append, mem_putPixelClipped, Write.pixel.injEq] at h
    rcases h with ((h | h) | h) | h <;> exact h.2.1

/-- What the two spans of a step do to a canvas pixel. -/
theorem lastColour_ovalSpans (cfg : Config) (o : OvalShape) (lo hi Y px py : Int) (old : Colour)
    (hp : inCanvas cfg px py) :
   lastColour (ovalSpans cfg o lo hi Y) px py old = if o.filled = true ∧ (o.x0 - lo ≤ px ∧ px < o.x0 + hi) ∧ (py =
       o.y0 + Y ∨ py = o.y0 - Y) then o.fill else old := by
  unfold ovalSpans
  split
  · rename_i hf
    rw [lastColour_uniform (c := o.fill)]
    · have : Write.pixel o.fill px py ∈ (runClipped cfg o.fill (o.x0 - lo) (o.y0 + Y) (o.x0 + hi) ++
    runClipped cfg o.fill (o.x0 - lo) (o.y0 - Y) (o.x0 + hi)) ↔ (o.filled = true ∧ (o.x0 - lo ≤ px ∧
        px < o.x0 + hi) ∧ (py = o.y0 + Y ∨ py = o.y0 - Y)) := by
        simp only [List.mem_append, mem_runClipped, Write.pixel.injEq, true_and, hf]
        constructor
        · rintro (⟨xx, h⟩ | ⟨xx, h⟩) <;> omega
        · rintro ⟨h, rfl | rfl⟩
          · exact .inl ⟨px, h, hp, rfl, rfl⟩
          · exact .inr ⟨px, h, hp, rfl, rfl⟩
      simp only [this]
    · intro c' x y h
      simp only [List.mem_append, mem_runClipped, Write.pixel.injEq] at h
      rcases h with ⟨_, _, _, h⟩ | ⟨_, _, _, h⟩ <;> exact h.1
  · rename_i hf
    rw [if_neg (by simp [hf])]; rfl

/-- Fuel past `(sx - sy) / aa2` changes nothing in region 1. -/
theorem ovalRegion1_fuel (cfg : Config) (o : OvalShape) (ha : 0 ≤ o.bb2) (n k : Nat) :
   ∀ X Y dx dy sx sy e, sx - sy < o.aa2 * n → ovalRegion1 cfg o (n + k) X Y dx dy sx sy e =
       ovalRegion1 cfg o n X Y dx dy sx sy e := by
  induction n with
  | zero =>
    intro X Y dx dy sx sy e h
    simp at h
    cases k with
    | zero => rfl
    | succ k => simp only [ovalRegion1]; rw [if_neg (by omega)]
  | succ n ih =>
    intro X Y dx dy sx sy e h
    rw [show n + 1 + k = (n + k) + 1 by omega]
    have hh : o.aa2 * ((n + 1 : Nat) : Int) = o.aa2 * n + o.aa2 := by push_cast; ring
    rw [hh] at h
    simp only [ovalRegion1]
    rw [ih _ _ _ _ _ _ _ (by omega), ih _ _ _ _ _ _ _ (by omega)]

/-- Fuel past `(sy - sx) / bb2` changes nothing in region 2. -/
theorem ovalRegion2_fuel (cfg : Config) (o : OvalShape) (ha : 0 ≤ o.aa2) (n k : Nat) :
   ∀ X Y dx dy sx sy e d, sy - sx < o.bb2 * n → ovalRegion2 cfg o (n + k) X Y dx dy sx sy e d =
       ovalRegion2 cfg o n X Y dx dy sx sy e d := by
  induction n with
  | zero =>
    intro X Y dx dy sx sy e d h
    simp at h
    cases k with
    | zero => rfl
    | succ k => simp only [ovalRegion2]; rw [if_neg (by omega)]
  | succ n ih =>
    intro X Y dx dy sx sy e d h
    rw [show n + 1 + k = (n + k) + 1 by omega]
    have hh : o.bb2 * ((n + 1 : Nat) : Int) = o.bb2 * n + o.bb2 := by push_cast; ring
    rw [hh] at h
    simp only [ovalRegion2]
    rw [ih _ _ _ _ _ _ _ _ (by omega), ih _ _ _ _ _ _ _ _ (by omega)]

end Sys2Proof.Machine
end

