-- ==== Sys2Proof/Laws/PerInstr.lean ====
section
/-! SUPPORT. What is said of every command as syntax, one lemma per constructor. -/

namespace Sys2Proof.Laws.WordFields

/-- The command word the encoder writes has the reserved bits 0, the opcode of the table in bits 3:0, and in bits 7:4
the flags, which are 0 unless the command is BLIT (30_encoding.md R90 to R93). -/
def Statement (i : Instr) : Prop :=
  reservedField (encode i) = 0 ∧ opField (encode i) = i.opcode ∧ flagField (encode i) = i.flags ∧
    (i.opcode ≠ 9 → i.flags = 0)

theorem clear : Statement .clear := by unfold Statement; decide
theorem pixw : Statement .pixw := by unfold Statement; decide
theorem pixr : Statement .pixr := by unfold Statement; decide
theorem hline : Statement .hline := by unfold Statement; decide
theorem vline : Statement .vline := by unfold Statement; decide
theorem rect : Statement .rect := by unfold Statement; decide
theorem oval : Statement .oval := by unfold Statement; decide
theorem line : Statement .line := by unfold Statement; decide
theorem blit (bpp2 flipX flipY rot : Bool) : Statement (.blit bpp2 flipX flipY rot) := by
  revert bpp2 flipX flipY rot; unfold Statement; decide
theorem text : Statement .text := by unfold Statement; decide

end Sys2Proof.Laws.WordFields
end

