-- ==== Sys2Proof/Tests/Slice0.lean ====
section
/-! SUPPORT. The model's own tests: the checks refuse what they must, words written out from the tables decode, one step
of every command gives the image the spec works out (95_test_vectors.md, on a smaller canvas), and a witness for every
obligation that has hypotheses. -/

namespace Sys2Proof.Tests

open Sys2Proof.Machine

/-! ### A small machine -/

/-- An 8 × 8 canvas in 64 bytes of memory; the font holds an empty glyph and the "H" of vector S10. -/
def cfg : Config where
  width := 8
  height := 8
  memSize := 64
  fbBase := 16
  dcAddr := 2
  regBase := 0x100
  font := [0xFF, 0xFF, 0xFF, 0xFF, 0xFF, 0xFF, 0xFF, 0xFF, 0x99, 0x99, 0x99, 0x81, 0x99, 0x99, 0x99, 0xFF]
  fontLen := 16
  rectInsetAfterClamp := true
  rectVedgeExcludeLast := true
  flipMirror := .clipRange

/-- Operand registers from numbers. -/
def operands (vs : List Int) : Operands :=
  #v[BitVec.ofInt 32 (vs.getD 0 0), BitVec.ofInt 32 (vs.getD 1 0), BitVec.ofInt 32 (vs.getD 2 0),
    BitVec.ofInt 32 (vs.getD 3 0), BitVec.ofInt 32 (vs.getD 4 0), BitVec.ofInt 32 (vs.getD 5 0),
    BitVec.ofInt 32 (vs.getD 6 0), BitVec.ofInt 32 (vs.getD 7 0), BitVec.ofInt 32 (vs.getD 8 0)]

/-- Every pixel storage byte holding `b`, and bytes from address 40 on. -/
def storage (b : Byte) (bytes : List Byte) : Memory :=
  (List.range 16).map (fun i => (16 + i, b)) ++ (List.range bytes.length).map (fun i => (40 + i, bytes.getD i 0))

/-- An idle machine on the small canvas, the draw colours and operands latched. -/
def small (dcl : DrawColours) (vs : List Int) (b : Byte := 0) (bytes : List Byte := []) : State :=
  { State.reset with config := cfg, mem := storage b bytes, larg := operands vs, dcl := dcl }

/-- Small, busy with the command word w. -/
def busyWith (w : Word) (s : State) : State := { s with lcmd := w, busy := true }

/-- The next step runs the command word. -/
def run (w : Nat) (s : State) : Host.Outcome State Fault Refusal := step (s.withFetchWord 32 w)

/-- What a test looks at in the next state. -/
def look {α : Type} (f : State → α) : Host.Outcome State Fault Refusal → Option α
  | .next t => some (f t)
  | .fault _ => none
  | .refused _ => none

/-- A row of the canvas as a decimal number, a digit a pixel. -/
def row (s : State) (y : Int) : Nat :=
  (List.range 8).foldl (fun acc x => 10 * acc + (s.getPixel (x : Int) y).toNat) 0

/-- The canvas, row by row. -/
def image (s : State) : List Nat := (List.range 8).map (fun y => row s (y : Int))

/-! ### The checks -/

theorem test_pixw_colour_four_ill_formed : Instr.pixw.wellFormed (operands [0, 0, 4]) = false := by decide
theorem test_pixw_colour_three_well_formed : Instr.pixw.wellFormed (operands [0, 0, 3]) = true := by decide
theorem test_pixw_colour_is_unsigned : Instr.pixw.wellFormed (operands [0, 0, -1]) = false := by decide
theorem test_small_configuration_accepted : cfg.wf = true := by decide
theorem test_no_width_refused : Config.wf { cfg with width := 0 } = false := by decide
theorem test_no_height_refused : Config.wf { cfg with height := 0 } = false := by decide
theorem test_width_not_a_multiple_of_four_refused : Config.wf { cfg with width := 6 } = false := by decide
theorem test_storage_past_memory_refused : Config.wf { cfg with fbBase := 49 } = false := by decide
theorem test_storage_up_to_the_last_byte_accepted : Config.wf { cfg with fbBase := 48 } = true := by decide
theorem test_draw_colours_past_memory_refused : Config.wf { cfg with dcAddr := 63 } = false := by decide
theorem test_draw_colours_in_storage_refused : Config.wf { cfg with dcAddr := 15 } = false := by decide
theorem test_font_length_refused : Config.wf { cfg with fontLen := 15 } = false := by decide

/-! ### Words (30_encoding.md R90 to R93; 95_test_vectors.md V-ENC) -/

theorem test_clear_word : decode 0b00000000000000000000000000000001 = .ok .clear := by decide
theorem test_pixw_word : decode 0b00000000000000000000000000000010 = .ok .pixw := by decide
theorem test_pixr_word : decode 0b00000000000000000000000000000011 = .ok .pixr := by decide
theorem test_hline_word : decode 0b00000000000000000000000000000100 = .ok .hline := by decide
theorem test_vline_word : decode 0b00000000000000000000000000000101 = .ok .vline := by decide
theorem test_rect_word : decode 0b00000000000000000000000000000110 = .ok .rect := by decide
theorem test_oval_word : decode 0b00000000000000000000000000000111 = .ok .oval := by decide
theorem test_line_word : decode 0b00000000000000000000000000001000 = .ok .line := by decide
theorem test_blit_word : decode 0b00000000000000000000000000001001 = .ok (.blit false false false false) := by decide
theorem test_blit_2bpp_fx_rot_word : decode 0xB9 = .ok (.blit true true false true) := by decide
theorem test_blit_fy_word : decode 0x49 = .ok (.blit false false true false) := by decide
theorem test_text_word : decode 0b00000000000000000000000000001010 = .ok .text := by decide
theorem test_opcode_zero_reserved : decode 0x00000000 = .error .reservedOpcode := by decide
theorem test_opcode_eleven_reserved : decode 0x0000000B = .error .reservedOpcode := by decide
theorem test_flag_on_text : decode 0x0000001A = .error .flagOnOtherCommand := by decide
theorem test_reserved_bit_eight : decode 0x000001F9 = .error .reservedBits := by decide
theorem test_table_word_of_line : decodeTableWord 32 8 = some .line := by decide
theorem test_table_word_with_no_command : decodeTableWord 32 0xB = none := by decide

/-! ### One step of each command -/

/-- R124 on storage of all 0xFF (V-PIX-9). -/
theorem test_clear : look image (run 1 (small 0 [] 0xFF)) = some [0, 0, 0, 0, 0, 0, 0, 0] := by decide

/-- S1: `FB[0] = 0xE4`, colour 0 at x = 2 gives 0xC4. -/
theorem test_pixw_keeps_the_other_pixels :
    look (fun t => t.readByte 16) (run 2 (small 0 [2, 0, 0] 0xE4)) = some 0xC4 := by decide

/-- V-PIX-4. -/
theorem test_pixw_off_canvas : look image (run 2 (small 0 [-1, 0, 1])) = some (image (small 0 [])) := by decide

/-- 0xE4 holds the pixels 0, 1, 2, 3 (S1). -/
theorem test_pixr : look (·.result) (run 3 (small 0 [6, 7] 0xE4)) = some 2 := by decide

/-- V-PIX-8: one past the last row. -/
theorem test_pixr_off_canvas : look (·.result) (run 3 (small 0 [0, 8] 0xFF)) = some 0 := by decide

/-- V-HL-2. -/
theorem test_hline_clipped_left :
    look image (run 4 (small 0x0004 [-3, 0, 5])) = some [33000000, 0, 0, 0, 0, 0, 0, 0] := by decide

/-- V-HL-11: `x + len` does not wrap. -/
theorem test_hline_does_not_wrap :
    look image (run 4 (small 0x0004 [2147483643, 0, 2147483647])) = some (image (small 0 [])) := by decide

/-- V-VL-1. -/
theorem test_vline_clipped_top :
    look image (run 5 (small 0x0004 [2, -3, 6])) = some [300000, 300000, 300000, 0, 0, 0, 0, 0] := by decide

/-- S4, third grid: RECT 1, 1, 6, 4. -/
theorem test_rect_fill_is_inset : look image (run 6 (small 0x0032 [1, 1, 6, 4])) =
    some [0, 2222220, 2111120, 2111120, 2222220, 0, 0, 0] := by decide

/-- RECT -2, -2, 6, 5, inset after the clamp (R157, default reading). -/
theorem test_rect_clipped_top_left : look image (run 6 (small 0x0032 [-2, -2, 6, 5])) =
    some [20000, 1120000, 22220000, 0, 0, 0, 0, 0] := by decide

/-- OVAL 0, 0, 6, 4. -/
theorem test_oval : look image (run 7 (small 0x0032 [0, 0, 6, 4])) =
    some [222000, 22111220, 21111120, 22111220, 222000, 0, 0, 0] := by decide

/-- V-OV-4: the sentinel wins over an enabled fill. -/
theorem test_oval_sentinel : look image (run 7 (small 0x00F5 [0, 0, 6, 4])) = some (image (small 0 [])) := by decide

/-- S7: LINE 0, 0, 5, 2. -/
theorem test_line_shallow : look image (run 8 (small 0x0002 [0, 0, 5, 2])) =
    some [11000000, 110000, 1100, 0, 0, 0, 0, 0] := by decide

/-- V-LN-6: LINE 0, 2, 4, 0 is swapped to V-LN-5. -/
theorem test_line_swapped : look image (run 8 (small 0x0002 [0, 2, 4, 0])) =
    some [11000, 1100000, 10000000, 0, 0, 0, 0, 0] := by decide

/-- V-BLIT-5: 90° counter-clockwise. -/
theorem test_blit_rotated :
    look image (run 0x99 (small 0x4320 [40, 4, 2, 2, 4, 4, 0, 0, 4] 0 [0x6C, 0x03, 0x80, 0x14])) =
    some [0, 0, 30000, 300100, 200100, 102000, 0, 0] := by decide

/-- S9: mirrored within the clipped rectangle (CLIP_RANGE). -/
theorem test_blit_flip_clipped_left :
    look image (run 0x39 (small 0x4320 [40, 1, -1, 0, 4, 1, 0, 0, 4] 0 [0x6C])) =
    some [3200000, 0, 0, 0, 0, 0, 0, 0] := by decide

/-- V-TX-2 with the glyph of code 33. -/
theorem test_text : look image (run 10 (small 0x0032 [40, 1, 0, 0] 0 [33])) =
    some [21122112, 21122112, 21122112, 21111112, 21122112, 21122112, 21122112, 22222222] := by decide

/-- V-TX-5: the terminator stops the string. -/
theorem test_text_terminator :
    look image (run 10 (small 0x0032 [40, 2, 0, 0] 0 [0, 33])) = some (image (small 0 [])) := by decide

/-! ### Other steps -/

/-- R38, R102: completion clears BUSY and leaves ILL. -/
theorem test_completion_keeps_ill :
    look (fun t => (t.busy, t.ill)) (run 1 { small 0 [] with ill := true }) = some (false, true) := by decide

/-- V-ENC-5, R242: a rejected issue sets ILL and does not start. -/
theorem test_rejected_issue :
    look (fun t => (t.cmd, t.busy, t.ill, t.lcmd))
      (hostTurn (.regWrite .cmd 2) { small 0 [] with args := operands [0, 0, 4] }) = some (2, false, true, 0) := by decide

/-- V-RST-4: reset clears ILL. -/
theorem test_reset_clears_ill :
    look (fun t => (t.ill, t.cmd)) (step { small 0 [] with ill := true, cmd := 0xB, turns := [.reset] }) =
      some (false, 0) := by decide

/-- R261: the bytes of S when RECT 1, 1, 6, 4 is abandoned: rows 1 to 4. -/
theorem test_bytes_of_an_abandoned_rect :
    abandoned (busyWith 6 (small 0x32 [1, 1, 6, 4])) = [18, 19, 20, 21, 22, 23, 24, 25] := by decide

/-- R261: a byte outside S keeps what a forbidden write stored when a reset abandons the command. -/
theorem test_reset_keeps_a_forbidden_write :
    look (fun t => (t.readByte 31, t.busy))
      (hostTurn (.memWrite 31 7) (busyWith 6 (small 0x32 [1, 1, 6, 4]))) = some (7, true) ∧
    look (fun t => ((resetTurn t).readByte 31, (resetTurn t).readByte 30))
      (hostTurn (.memWrite 31 7) (busyWith 6 (small 0x32 [1, 1, 6, 4]))) = some (7, 0) := by decide

/-- R34: little-endian, the low byte at DC_ADDR. -/
theorem test_draw_colours_little_endian :
    State.drawColours { small 0 [] with mem := [(2, 0x34), (3, 0x12)] } = 0x1234 := by decide

/-- R38: STATUS reads BUSY in bit 0 and ILL in bit 1. -/
theorem test_status_word : State.statusWord { small 0 [] with busy := false, ill := true } = 2 := by decide

/-- R99: SETDC as two host byte writes. -/
theorem test_set_draw_colours :
    setDc cfg 0x1203 = [.host (.memWrite 2 0x03), .host (.memWrite 3 0x12)] := by decide

/-! ### Witnesses: states and operands that meet an obligation's hypotheses -/

/-- A machine that meets the invariant: small, with the listed bytes in order. -/
theorem small_meets_inv : Inv (busyWith 6 (small 0x0032 [1, 1, 6, 4])) :=
  ⟨by decide, by decide, by decide +kernel, fun _ => by decide, by decide, by decide, fun h => by cases h⟩

/-- LegalWordsExactly: an idle machine and an illegal word. -/
theorem witness_LegalWordsExactly : (small 0 []).busy = false ∧ legal 0x0B (small 0 []).args = false := by decide

/-- IllIsSetExactlyWhen: ILL clear; a command that goes on. -/
theorem witness_IllIsSetExactlyWhen :
    (small 0 []).ill = false ∧ look (fun _ => ()) (exec .clear (small 0 [])) = some () := by decide

/-- IllIsStickyAndChangesNothingElse: a busy machine; an illegal word; ILL cleared by a STATUS write and by a reset. -/
theorem witness_IllIsSticky :
    (busyWith 1 (small 0 [])).busy = true ∧ legal 0x100 (small 0 []).args = false ∧
    look (·.ill) (step { small 0 [] with ill := true, turns := [.host (.regWrite .status 2)] }) = some false ∧
    look (·.ill) (step { small 0 [] with ill := true, turns := [.reset] }) = some false := by decide

/-- StatusReadsAndWrites: a completion that goes on. -/
theorem witness_StatusReadsAndWrites : look (fun _ => ()) (complete (busyWith 1 (small 0 []))) = some () := by decide

/-- ReservedOffsetsAreInert: the four offsets name reserved words. -/
theorem witness_ReservedOffsetsAreInert :
    regAtOffset? 0x0C = some .reservedLow ∧ regAtOffset? 0x34 = some (.reservedHigh 0) ∧
    regAtOffset? 0x3C = some (.reservedHigh 2) ∧ regAtOffset? 0x30 = some (.arg 8) := by decide

/-- ArgWriteStoresOneRegister and DrawColourDecode: two different registers; the top nibble, and the largest. -/
theorem witness_DrawColourDecode :
    (0 : Fin 9) ≠ 8 ∧ (3 : Nat) < 4 ∧ nibble 0xF000 3 = 15 ∧ (15 : Nibble) ≠ 0 ∧ (1 : Nibble) ≠ 0 := by decide

/-- PointWriteRoundTrip: the last canvas pixel and its neighbour in the same byte. -/
theorem witness_PointWriteRoundTrip :
    cfg.wf = true ∧ inCanvas cfg 7 7 ∧ inCanvas cfg 6 7 ∧ ¬ inCanvas cfg 8 7 ∧ ¬ inCanvas cfg (-1) 0 := by decide

/-- ClearZeroFillsStorage, and each statement with the one hypothesis of an accepted configuration. -/
theorem witness_ClearZeroFillsStorage : (small 0x0032 [1, 1, 6, 4]).config.wf = true := by decide

/-- PixwSetsOnePixel: on the last canvas pixel with the largest colour; just off the canvas. -/
theorem witness_PixwSetsOnePixel :
    (small 0 [7, 7, 3]).larg[2].toNat ≤ 3 ∧
    inCanvas cfg (small 0 [7, 7, 3]).larg[0].toInt (small 0 [7, 7, 3]).larg[1].toInt ∧
    ¬ inCanvas cfg (small 0 [8, 0, 3]).larg[0].toInt (small 0 [8, 0, 3]).larg[1].toInt := by decide

/-- PixwColourAboveThreeStops. -/
theorem witness_PixwColourAboveThreeStops : 3 < (small 0 [0, 0, 4]).larg[2].toNat := by decide

/-- RunFastEqualsRun: a span with an aligned middle, a whole row, and an empty span anywhere. -/
theorem witness_RunFastEqualsRun :
    cfg.wf = true ∧ ((1 : Int) < 8 → (0 : Int) ≤ 7 ∧ (7 : Int) < cfg.height ∧ (0 : Int) ≤ 1 ∧ (8 : Int) ≤ cfg.width) ∧
    ((5 : Int) < 5 → (0 : Int) ≤ 99 ∧ (99 : Int) < cfg.height ∧ (0 : Int) ≤ 5 ∧ (5 : Int) ≤ cfg.width) := by decide

/-- HlineDrawsClippedSpan: a canvas pixel in the span, and its neighbour past the end. -/
theorem witness_HlineDrawsClippedSpan :
    cfg.wf = true ∧ inCanvas cfg 1 0 ∧ inCanvas cfg 2 0 ∧ nibble (small 4 [-3, 0, 5]).dcl 0 ≠ 0 ∧
    (1 : Int) < (small 4 [-3, 0, 5]).larg[0].toInt + (small 4 [-3, 0, 5]).larg[2].toInt ∧
    ¬ (2 : Int) < (small 4 [-3, 0, 5]).larg[0].toInt + (small 4 [-3, 0, 5]).larg[2].toInt := by decide

/-- VlineDrawsClippedColumn: a canvas pixel in the column, and its neighbour past the end. -/
theorem witness_VlineDrawsClippedColumn :
    cfg.wf = true ∧ inCanvas cfg 2 2 ∧ inCanvas cfg 2 3 ∧ nibble (small 4 [2, -3, 6]).dcl 0 ≠ 0 ∧
    (2 : Int) < (small 4 [2, -3, 6]).larg[1].toInt + (small 4 [2, -3, 6]).larg[2].toInt ∧
    ¬ (3 : Int) < (small 4 [2, -3, 6]).larg[1].toInt + (small 4 [2, -3, 6]).larg[2].toInt := by decide

/-- RectDrawsFillAndStroke: a corner of the outline, the first pixel of the fill, and a pixel past the box. -/
theorem witness_RectDrawsFillAndStroke :
    cfg.wf = true ∧ inCanvas cfg 1 1 ∧ inCanvas cfg 2 2 ∧ inCanvas cfg 7 1 ∧
    (1 : Int) = (small 0x32 [1, 1, 6, 4]).larg[0].toInt ∧ (1 : Int) = (small 0x32 [1, 1, 6, 4]).larg[1].toInt ∧
    (7 : Int) = 1 + (small 0x32 [1, 1, 6, 4]).larg[2].toInt ∧ (5 : Int) = 1 + (small 0x32 [1, 1, 6, 4]).larg[3].toInt ∧
    (1 : Int) = (if nibble (small 0x32 [1, 1, 6, 4]).dcl 1 ≠ 0 then 1 else 0) ∧
    (4 : Int) = (if cfg.rectVedgeExcludeLast then min 5 cfg.height - 1 else min 5 cfg.height) := by decide

/-- RectFillAndStrokeAreDisjoint: a fill write. -/
theorem witness_RectFillAndStrokeAreDisjoint :
    Write.pixel 1 2 2 ∈ rectFill cfg 2 3 (rectBounds cfg 1 1 6 4) := by decide

/-- OvalDrawsEllipse: the sentinel; the largest width without a semi-axis; the smallest ellipse. -/
theorem witness_OvalDrawsEllipse :
    nibble (small 0xF5 [0, 0, 6, 4]).dcl 1 = 0xF ∧ (small 0x32 [0, 0, 1, 8]).larg[2].toInt < 2 ∧
    (small 0x32 [0, 0, 8, -2]).larg[3].toInt < 2 ∧
    nibble (small 0x32 [3, 3, 2, 3]).dcl 1 ≠ 0xF ∧ 2 ≤ (small 0x32 [3, 3, 2, 3]).larg[2].toInt ∧
    2 ≤ (small 0x32 [3, 3, 2, 3]).larg[3].toInt ∧
    ovalShape (small 0x32 [3, 3, 2, 3]) =
      { stroke := 2, fill := 1, filled := true, x0 := 4, y0 := 4, a := 1, b := 1 } := by decide

/-- OvalOfFourIsTheDisc: the centre, an outline pixel and a corner of the box of the disc; a pixel of the 7 × 5 ellipse
that is filled and then stroked. -/
theorem witness_OvalOfFourIsTheDisc :
    cfg.wf = true ∧ nibble (small 0x32 [0, 0, 4, 4]).dcl 1 ≠ 0xF ∧ nibble (small 0x32 [0, 0, 4, 4]).dcl 0 ≠ 0 ∧
    (small 0x32 [0, 0, 4, 4]).larg[2] = 4 ∧ (small 0x32 [0, 0, 4, 4]).larg[3] = 4 ∧
    inCanvas cfg 2 2 ∧ inCanvas cfg 4 3 ∧ inCanvas cfg 4 4 ∧
    (small 0x32 [0, 0, 6, 4]).larg[2] = 6 ∧ (small 0x32 [0, 0, 6, 4]).larg[3] = 4 ∧
    (2 : Int) = 5 - (small 0x32 [0, 0, 6, 4]).larg[0].toInt - 3 ∧
    (-1 : Int) = 1 - (small 0x32 [0, 0, 6, 4]).larg[1].toInt - 2 ∧ inCanvas cfg 5 1 := by decide

/-- OvalIsSymmetric: an ellipse that goes on, and two canvas pixels of one colour that mirror each other. -/
theorem witness_OvalIsSymmetric :
    cfg.wf = true ∧ look (fun _ => ()) (exec .oval (small 0x32 [0, 0, 6, 4])) = some () ∧
    inCanvas cfg 0 2 ∧ inCanvas cfg 6 2 ∧
    (6 : Int) = 2 * ((small 0x32 [0, 0, 6, 4]).larg[0].toInt + (small 0x32 [0, 0, 6, 4]).larg[2].toInt / 2) - 0 ∧
    (small 0x32 [0, 0, 6, 4]).getPixel 0 2 = (small 0x32 [0, 0, 6, 4]).getPixel 6 2 := by decide

/-- OvalLoopsEnd: positive semi-axes. -/
theorem witness_OvalLoopsEnd :
    0 < (ovalShape (small 0x32 [0, 0, 6, 4])).a ∧ 0 < (ovalShape (small 0x32 [0, 0, 6, 4])).b := by decide

/-- LineWalksBetweenEndpoints: two points in a row of a shallow line; a steep one; a line that is swapped. -/
theorem witness_LineWalksBetweenEndpoints :
    (linePoints 0 0 5 2)[1]? = some (1, 0) ∧ (linePoints 0 0 5 2)[2]? = some (2, 1) ∧
    (5 : Int) = |5 - 0| ∧ (1 : Int) = (5 - 0 : Int).sign ∧ (2 - 0 : Int) < 5 ∧
    (linePoints 0 0 (-2) 5)[5]? = some (-2, 5) ∧ (2 : Int) = |-2 - 0| ∧ (2 : Int) ≤ 5 - 0 ∧
    (0 : Int) < 2 ∧ (linePoints 0 2 4 0).head? = some (4, 0) := by decide

/-- LineDrawsItsPoints: a canvas pixel on the line and one beside it. -/
theorem witness_LineDrawsItsPoints :
    cfg.wf = true ∧ inCanvas cfg 5 2 ∧ nibble (small 2 [0, 0, 5, 2]).dcl 0 ≠ 0 ∧
    ((5, 2) : Int × Int) ∈ linePoints 0 0 5 2 ∧ ((5, 1) : Int × Int) ∉ linePoints 0 0 5 2 := by decide

/-- The blit of the BLIT witnesses: a 2-bit row that starts one pixel left of the canvas. -/
def rowBlit : State := small 0x4320 [40, 1, -1, 0, 4, 1, 0, 0, 4] 0 [0x6C]

/-- BlitSamplesTheSprite: two cells of the clipped row, one whose nibble is 3 and one whose nibble is 0; their source byte
is the first of the sprite; a canvas pixel just right of the rectangle. -/
theorem witness_BlitSamplesTheSprite :
    cfg.wf = true ∧ rowBlit.larg[0].toNat = 40 ∧ rowBlit.larg[1].toNat = 1 ∧ rowBlit.larg[2].toInt = -1 ∧
    rowBlit.larg[4].toInt = 4 ∧ rowBlit.larg[5].toInt = 1 ∧ rowBlit.larg[8].toInt = 4 ∧
    inCanvas cfg (-1 + 1) 0 ∧ inCanvas cfg (-1 + 3) 0 ∧ inCanvas cfg 3 0 ∧ ¬ (3 : Int) < -1 + 4 ∧
    (0 : Int) = ((0 + 0) * 4 + (0 + 1)) / 4 ∧ (0 : Int) = ((0 + 0) * 4 + (0 + 3)) / 4 ∧
    40 + 0 < cfg.memSize ∧ ¬ (cfg.fbBase ≤ 40 + 0 ∧ 40 + 0 < cfg.fbBase + cfg.fbBytes) ∧
    rowBlit.readByte 40 = 0x6C ∧ 0x6C / 4 ^ (3 - 1) % 4 = 2 ∧ rowBlit.dcl.toNat / 16 ^ 2 % 16 = 3 ∧
    0x6C / 4 ^ (3 - 3) % 4 = 0 ∧ rowBlit.dcl.toNat / 16 ^ 0 % 16 = 0 := by decide

/-- SamplesAreMsbFirst: a blit of each depth. -/
theorem witness_SamplesAreMsbFirst :
    (blitOf true false false false rowBlit).bpp2 = true ∧ (blitOf false false false false rowBlit).bpp2 = false := by decide

/-- RotationGeometry: an unclipped rotated blit and its last sprite pixel, with and without flipX. -/
theorem witness_RotationGeometry :
    (blitOf true false false true (small 0 [40, 4, 4, 4, 4, 4, 0, 0, 4])).rot = true ∧
    (blitOf true false false true (small 0 [40, 4, 4, 4, 4, 4, 0, 0, 4])).flipY = false ∧
    (3 : Int) < (blitOf true false false true (small 0 [40, 4, 4, 4, 4, 4, 0, 0, 4])).width ∧
    (3 : Int) < (blitOf true false false true (small 0 [40, 4, 4, 4, 4, 4, 0, 0, 4])).height ∧
    (blitOf true false false true (small 0 [40, 4, 4, 4, 4, 4, 0, 0, 4])).dstX + 4 ≤ cfg.width ∧
    (blitOf true false false true (small 0 [40, 4, 4, 4, 4, 4, 0, 0, 4])).dstY + 4 ≤ cfg.height ∧
    (blitOf true true false true (small 0 [40, 4, 4, 4, 4, 4, 0, 0, 4])).flipX = true := by decide

/-- TextDrawsRowOfGlyphs: two codes, in the string and in the font; a pixel of the second glyph and one outside. -/
theorem witness_TextDrawsRowOfGlyphs :
    cfg.wf = true ∧ ([32, 33] : List Byte).length = (small 0x32 [40, 2, -3, 0] 0 [32, 33]).larg[1].toNat ∧
    sourceByte? cfg (small 0x32 [40, 2, -3, 0] 0 [32, 33]).mem (.mem 40 2) 1 = some 33 ∧
    sourceByte? cfg (small 0x32 [40, 2, -3, 0] 0 [32, 33]).mem (.mem 40 2) 0 = some 32 ∧
    8 * (33 - 32) + 8 ≤ cfg.fontLen ∧ cfg.font[8 * (33 - 32) + 7]? = some 0xFF ∧
    inCanvas cfg (-3 + 8 * 1 + 2) 7 ∧ inCanvas cfg 0 0 := by decide

/-- TextStopsAtZero: a string with a terminator at index 1. -/
theorem witness_TextStopsAtZero :
    1 < (small 0x32 [40, 3, 0, 0] 0 [33, 0, 33]).larg[1].toNat ∧
    sourceByte? cfg (small 0x32 [40, 3, 0, 0] 0 [33, 0, 33]).mem (.mem 40 3) (1 : Nat) = some 0 := by decide

/-- TextNewlineStartsNextLine: a string with a newline at index 1, and the operands of the codes after it. -/
theorem witness_TextNewlineStartsNextLine :
    cfg.wf = true ∧ 1 < (small 0x32 [40, 3, 2, -8] 0 [33, 10, 33]).larg[1].toNat ∧
    sourceByte? cfg (small 0x32 [40, 3, 2, -8] 0 [33, 10, 33]).mem (.mem 40 3) (0 : Nat) = some 33 ∧
    (33 : Byte) ≠ 0 ∧ (33 : Byte) ≠ 10 ∧
    sourceByte? cfg (small 0x32 [40, 3, 2, -8] 0 [33, 10, 33]).mem (.mem 40 3) (1 : Nat) = some 10 ∧
    (operands [42, 1, 2, 0])[0].toNat = (operands [40, 3, 2, -8])[0].toNat + 1 + 1 ∧
    (operands [42, 1, 2, 0])[1].toNat + 1 + 1 = (operands [40, 3, 2, -8])[1].toNat ∧
    (operands [42, 1, 2, 0])[2] = (operands [40, 3, 2, -8])[2] ∧
    (operands [42, 1, 2, 0])[3].toInt = (operands [40, 3, 2, -8])[3].toInt + 8 := by decide

/-- SourceBytesOutsideAreDrawn: offsets just inside and just outside the sequence, the memory, the storage and the
font. -/
theorem witness_SourceBytesOutsideAreDrawn :
    sourceByte? cfg (storage 0 [5]) (.mem 40 1) 0 = some 5 ∧ sourceByte? cfg (storage 0 [5]) (.mem 40 1) 1 = none ∧
    sourceByte? cfg (storage 0 [5]) (.mem 40 1) (-1) = none ∧ sourceByte? cfg (storage 0 [5]) (.mem 64 1) 0 = none ∧
    sourceByte? cfg (storage 0 [5]) (.mem 31 2) 0 = none ∧ sourceByte? cfg [(15, 9)] (.mem 15 2) 0 = some 9 ∧
    sourceByte? cfg [] .font 15 = some 0xFF ∧ sourceByte? cfg [] .font 16 = none ∧
    sourceByte? cfg [] .font (-1) = none := by decide

/-- EveryCommandCompletes and CommandsWriteOnlyTheirBytes: well-formed operands, a command that goes on, one of its
writes. -/
theorem witness_EveryCommandCompletes :
    Instr.pixw.wellFormed (small 0 [7, 7, 3]).larg = true ∧ cfg.wf = true ∧
    look (fun _ => ()) (exec .pixw (small 0 [7, 7, 3])) = some () ∧
    Write.pixel 3 7 7 ∈ writesOf .pixw (small 0 [7, 7, 3]) := by decide

/-- CommandsDependOnLatchesAndMemory: two states that agree on what a command reads and differ elsewhere; a step that
takes a draw, a BLIT of one pixel from a sprite of no bytes. -/
theorem witness_CommandsDependOnLatchesAndMemory :
    (small 0 [7, 7]).larg = { small 0 [7, 7] with cmd := 5, ill := true, args := operands [9] }.larg ∧
    look (fun _ => ()) (exec .pixr (small 0 [7, 7])) = some () ∧
    ∃ t, step (busyWith 9 (small 0 [40, 0, 0, 0, 1, 1, 0, 0, 1])) = .next t ∧
      t.draws ≠ (busyWith 9 (small 0 [40, 0, 0, 0, 1, 1, 0, 0, 1])).draws :=
  ⟨by decide, by decide, _, (step_eq (by decide)).trans (complete_eq
    (s := busyWith 9 (small 0 [40, 0, 0, 0, 1, 1, 0, 0, 1])) (i := .blit false false false false) (by decide)
    (execBlit_eq ..)), by decide⟩

/-- StepRunsTheLatchedCommand: a busy machine whose latched word decodes; its turn written down, and no turn left. -/
theorem witness_StepRunsTheLatchedCommand :
    (busyWith 6 (small 0x32 [1, 1, 6, 4])).config.wf = true ∧ (busyWith 6 (small 0x32 [1, 1, 6, 4])).overwritten = [] ∧
    decode (busyWith 6 (small 0x32 [1, 1, 6, 4])).lcmd = .ok .rect ∧
    (busyWith 6 (small 0x32 [1, 1, 6, 4])).turns = [] ∧
    ((small 0x32 [1, 1, 6, 4]).withFetchWord 32 6).turns = [.engine] := by decide

/-- IssuedCommandRuns: an idle machine about to take a legal CMD write and then the Engine's turn. -/
theorem witness_IssuedCommandRuns :
    legal 2 { small 0 [] with args := operands [7, 7, 3], turns := [.host (.regWrite .cmd 2), .engine] }.args = true ∧
    { small 0 [] with args := operands [7, 7, 3], turns := [.host (.regWrite .cmd 2), .engine] }.turns =
      [.host (.regWrite .cmd 2), .engine] ∧ decode 2 = .ok .pixw := by decide

/-- IdleKeepsAllState: an idle machine with no turn, and with an Engine turn. -/
theorem witness_IdleKeepsAllState :
    (small 0 []).busy = false ∧ (small 0 []).turns = [] ∧ { small 0 [] with turns := [.engine] }.turns = [.engine] := by decide

/-- ArgWritesDoNotReachRunningCommand: a busy machine whose completion goes on. -/
theorem witness_ArgWritesDoNotReachRunningCommand :
    (busyWith 6 (small 0x32 [1, 1, 6, 4])).busy = true ∧
    look (fun _ => ()) (complete (busyWith 6 (small 0x32 [1, 1, 6, 4]))) = some () := by decide

/-- PermittedWritesDoNotReachRunningCommand: a write of DRAW_COLORS, and of the byte after the storage. -/
theorem witness_PermittedWritesDoNotReachRunningCommand :
    forbiddenWrite (busyWith 6 (small 0x32 [1, 1, 6, 4])) 2 = false ∧
    forbiddenWrite (busyWith 6 (small 0x32 [1, 1, 6, 4])) 32 = false ∧
    (2 : Nat) < (busyWith 6 (small 0x32 [1, 1, 6, 4])).config.memSize ∧
    look (fun _ => ()) (complete (busyWith 6 (small 0x32 [1, 1, 6, 4]))) = some () := by decide

/-- ForbiddenWriteLeavesAnyValue: a write of the last storage byte while RECT runs, and of a sprite byte while BLIT
does. -/
theorem witness_ForbiddenWriteLeavesAnyValue :
    Inv (busyWith 6 (small 0x32 [1, 1, 6, 4])) ∧ decode (busyWith 6 (small 0x32 [1, 1, 6, 4])).lcmd = .ok .rect ∧
    look (fun _ => ()) (complete (busyWith 6 (small 0x32 [1, 1, 6, 4]))) = some () ∧
    forbiddenWrite (busyWith 6 (small 0x32 [1, 1, 6, 4])) 31 = true ∧
    (31 : Nat) < (busyWith 6 (small 0x32 [1, 1, 6, 4])).config.memSize ∧
    forbiddenWrite (busyWith 9 rowBlit) 40 = true ∧ forbiddenWrite (busyWith 9 rowBlit) 41 = false :=
  ⟨small_meets_inv, by decide, by decide, by decide, by decide, by decide, by decide⟩

/-- HostByteAccesses: reads and writes at the edges of the storage, of the memory and of a running BLIT's source. -/
theorem witness_HostByteAccesses :
    63 < cfg.memSize ∧ cfg.memSize ≤ 64 ∧ cfg.fbBase ≤ 16 ∧ 31 < cfg.fbBase + cfg.fbBytes ∧
    ¬ 32 < cfg.fbBase + cfg.fbBytes ∧ (busyWith 9 rowBlit).busy = true ∧ rowBlit.busy = false ∧
    forbiddenWrite rowBlit 16 = false ∧ forbiddenWrite (busyWith 9 rowBlit) 15 = false ∧
    forbiddenWrite (busyWith 9 rowBlit) 31 = true ∧ forbiddenWrite (busyWith 9 rowBlit) 40 = true ∧
    forbiddenWrite (busyWith 9 rowBlit) 41 = false := by decide

/-- ResetClearsRegisters and ResetAbandonsRunningCommand: a reset of an idle and of a running machine. -/
theorem witness_ResetAbandonsRunningCommand :
    { small 0 [] with turns := [.reset] }.turns = [.reset] ∧
    (busyWith 2 (small 0 [5, 1, 1])).busy = true ∧ (busyWith 2 (small 0 [5, 1, 1])).overwritten = [] ∧
    decode (busyWith 2 (small 0 [5, 1, 1])).lcmd = .ok .pixw ∧
    writesWith (Config.abandonedDraw 0) .pixw (busyWith 2 (small 0 [5, 1, 1])).atIssue = [.pixel 1 5 1] := by decide

/-- ConfigurationNeverChanges, ResultChangesOnlyByPixr: a step that goes on and changes RESULT. -/
theorem witness_ResultChangesOnlyByPixr :
    look (·.result) (step (busyWith 3 (small 0 [6, 7] 0xE4))) = some 2 ∧ (small 0 [6, 7] 0xE4).result = 0 := by decide

/-- OnlyLegalIssueStartsCommand: a step from idle to busy. -/
theorem witness_OnlyLegalIssueStartsCommand :
    (small 0 []).busy = false ∧
    look (·.busy) (step { small 0 [] with turns := [.host (.regWrite .cmd 1)] }) = some true := by decide

/-- OnlyTheHostWritesOtherMemory: a host write that changes a byte outside the storage while RECT runs. -/
theorem witness_OnlyTheHostWritesOtherMemory :
    Inv { busyWith 6 (small 0x32 [1, 1, 6, 4] 0 [3]) with turns := [.host (.memWrite 40 7)] } ∧
    look (fun t => t.readByte 40)
      (step { busyWith 6 (small 0x32 [1, 1, 6, 4] 0 [3]) with turns := [.host (.memWrite 40 7)] }) = some 7 ∧
    (busyWith 6 (small 0x32 [1, 1, 6, 4] 0 [3])).readByte 40 = 3 ∧ ¬ inStorage cfg 40 :=
  ⟨⟨by decide, by decide, by decide +kernel, fun _ => by decide, by decide, by decide, fun h => by cases h⟩,
    by decide, by decide +kernel, by decide⟩

/-- LatchesUnobservableWhenIdle: an idle machine whose step starts a command. -/
theorem witness_LatchesUnobservableWhenIdle :
    (small 0x32 [1]).busy = false ∧
    look (fun t => (t.busy, t.lcmd)) (step { small 0x32 [1] with turns := [.host (.regWrite .cmd 1)] }) =
      some (true, 1) := by decide

/-- EveryStepKeepsInv: a state with the invariant whose step goes on. -/
theorem witness_EveryStepKeepsInv :
    Inv (busyWith 6 (small 0x32 [1, 1, 6, 4])) ∧
    look (fun _ => ()) (step (busyWith 6 (small 0x32 [1, 1, 6, 4]))) = some () :=
  ⟨small_meets_inv, by decide⟩

/-- RunsNeverStop: a state with the invariant, its turns naming addresses that exist, the last one among them. -/
theorem witness_RunsNeverStop :
    Inv { busyWith 6 (small 0x0032 [1, 1, 6, 4]) with
      turns := [.host (.memRead 63), .engine, .host (.memWrite 0 1), .reset] } ∧
    (∀ u ∈ [Turn.host (.memRead 63), .engine, .host (.memWrite 0 1), .reset], u.addressExists cfg) := by
  refine ⟨⟨by decide, by decide, by decide +kernel, fun _ => by decide, by decide, by decide,
    fun h => by cases h⟩, ?_⟩
  simp [Turn.addressExists, cfg]

/-- BadConfigurationIsRejected: a configuration for each of the seven constraints. -/
theorem witness_BadConfigurationIsRejected :
    { cfg with width := 0 }.width = 0 ∧ { cfg with height := 0 }.height = 0 ∧ { cfg with width := 6 }.width % 4 ≠ 0 ∧
    { cfg with fbBase := 49 }.memSize < { cfg with fbBase := 49 }.fbBase + { cfg with fbBase := 49 }.fbBytes ∧
    { cfg with dcAddr := 63 }.memSize < { cfg with dcAddr := 63 }.dcAddr + 2 ∧
    ({ cfg with dcAddr := 15 }.fbBase < { cfg with dcAddr := 15 }.dcAddr + 2 ∧
      { cfg with dcAddr := 15 }.dcAddr < { cfg with dcAddr := 15 }.fbBase + { cfg with dcAddr := 15 }.fbBytes) ∧
    { cfg with fontLen := 15 }.fontLen ≠ { cfg with fontLen := 15 }.font.length := by decide

end Sys2Proof.Tests
end

section
/-! PROOFS. The machine's scope (00_scope.md R7, R8): the configuration is checked and fixed, and the invariant holds
at reset and is kept by every step. -/

namespace Sys2Proof.Machine

/-! ### The configuration -/

/-- A host turn leaves every parameter alone (00_scope.md R8). -/
theorem hostTurn_config {act : HostAction} {s t : State} (h : hostTurn act s = .next t) : t.config = s.config := by
  rcases hostTurn_cases h with ⟨_, _, rfl⟩ | ⟨_, _, _, _, rfl⟩ | ⟨_, _, _, rfl⟩ | ⟨_, _, _, rfl⟩ | ⟨_, _, _, rfl⟩ |
    ⟨_, _, _, _, rfl⟩ | ⟨_, _, _, _, rfl⟩ | ⟨_, _, _, hread⟩
  pick_goal 8
  · rw [hread]
  all_goals rfl

/-- Settles O52: each way a step can go on is an update that names no parameter. -/
theorem configurationNeverChanges : Obligations.ConfigurationNeverChanges := by
  intro s t h
  obtain ⟨-, ⟨-, -, rfl⟩ | ⟨ts, -, -, rfl⟩ | ⟨ts, -, -, hcomplete⟩ | ⟨ts, act, -, hhost⟩ | ⟨ts, -, rfl⟩⟩ := step_cases h
  · rfl
  · rfl
  · rw [complete_frame hcomplete]; rfl
  · rw [hostTurn_config hhost, State.takeTurn_config]
  · rw [reset_eq]; rfl

/-- Settles O60: each of the seven alternatives contradicts one constraint of 00_scope.md R7, so the check fails and
`step` does not look at the turns. -/
theorem badConfigurationIsRejected : Obligations.BadConfigurationIsRejected := by
  intro s hbad
  have hreject : ¬ s.config.wf = true := by
    intro hwf
    obtain ⟨hwidth, hheight, hmod, hstorage, hdraw, hapart, hfont⟩ := (Config.wf_iff s.config).1 hwf
    omega
  exact if_neg hreject

/-! ### The invariant at reset -/

/-- The presumed default parameters meet 00_scope.md R7 (log 1). -/
theorem Config.default_wf : Config.default.wf = true := by
  rw [Config.wf_iff]
  simp [Config.default, Config.fbBytes]

/-- Settles O57: nothing is listed and the Engine is idle, so only the configuration needs a check. -/
theorem resetMeetsInv : Obligations.ResetMeetsInv where
  config := Config.default_wf
  canonical := List.Pairwise.nil
  within := fun _ hx => absurd hx List.not_mem_nil
  latched := fun hbusy => absurd hbusy (by decide)
  overwrittenCanonical := List.Pairwise.nil
  overwrittenWithin := fun _ hx => absurd hx List.not_mem_nil
  overwrittenIdle := fun _ => rfl

/-! ### What each kind of step does to the invariant -/

/-- An idle machine with nothing noted meets the invariant when its configuration and memory do. -/
theorem Inv.of_idle {s : State} (hidle : s.busy = false) (hnone : s.overwritten = []) (hwf : s.config.wf = true)
    (hcanonical : Memory.wf s.mem) (hwithin : Memory.within s.mem s.config.memSize) : Inv s where
  config := hwf
  canonical := hcanonical
  within := hwithin
  latched := fun hbusy => by simp [hidle] at hbusy
  overwrittenCanonical := by simp [hnone]
  overwrittenWithin := by simp [hnone]
  overwrittenIdle := fun _ => hnone

/-- Which turns are to come does not matter to the invariant. -/
theorem takeTurn_keeps_inv {s : State} (hinv : Inv s) (ts : List Turn) : Inv (s.takeTurn ts) := { hinv with }

/-- A command keeps memory in canonical form (its writes list bytes by `memSet`). -/
theorem exec_mem_wf {i : Instr} {s t : State} (h : exec i s = .next t) (hcanonical : Memory.wf s.mem) :
    Memory.wf t.mem := by
  rw [(exec_cases h).1]
  exact applyWrites_wf _ hcanonical

/-- A command keeps memory within MEM_SIZE: it stores inside the pixel storage, which lies there (00_scope.md R7). -/
theorem exec_mem_within {i : Instr} {s t : State} (h : exec i s = .next t) (hwf : s.config.wf = true)
    (hwithin : Memory.within s.mem s.config.memSize) : Memory.within t.mem s.config.memSize := by
  rw [(exec_cases h).1]
  refine applyWrites_within _ (fun w hw => ?_) hwithin
  exact (writesWith_inStorage hwf hw).2.trans_le (Config.wf_storage hwf)

/-- A completion keeps the invariant, whether its memory is the command's or, after a forbidden write, holds any-value
bytes (70_reset_and_hazards.md R265). -/
theorem complete_keeps_inv {s t : State} (hinv : Inv s) (h : complete s = .next t) : Inv t := by
  obtain ⟨i, u, -, hexec, rfl⟩ := complete_cases h
  refine Inv.of_idle rfl rfl hinv.config ?canonical ?within
  case canonical =>
    dsimp only
    split
    · exact exec_mem_wf hexec (restore_wf _ hinv.canonical)
    · exact freeBytes_wf hinv.canonical
  case within =>
    dsimp only
    split
    · exact exec_mem_within (s := s.atIssue) hexec hinv.config (restore_within hinv.overwrittenWithin hinv.within)
    · exact freeBytes_within (fun b => lt_of_mem_anyAtCompletion hinv.config hinv.overwrittenWithin) hinv.within

/-- A reset keeps the invariant: the bytes it frees lie in the pixel storage (70_reset_and_hazards.md R261). -/
theorem resetTurn_keeps_inv {s : State} (hinv : Inv s) : Inv (resetTurn s) := by
  rw [reset_eq]
  refine Inv.of_idle rfl rfl hinv.config (freeBytes_wf hinv.canonical) (freeBytes_within (fun b hb => ?_) hinv.within)
  exact (inStorage_of_mem_abandoned hb).2.trans_le (Config.wf_storage hinv.config)

/-- A host write of a byte that exists keeps the invariant: only a forbidden write is noted, and only a busy Engine
has forbidden ones (70_reset_and_hazards.md R265). -/
theorem memWrite_keeps_inv {s : State} (hinv : Inv s) {a : Nat} (ha : a < s.config.memSize) (v : Byte) :
    Inv { s with
      mem := memSet s.mem a v
      overwritten := if forbiddenWrite s a then (s.noteOverwrite a).overwritten else s.overwritten } := by
  have hmem := memSet_wf a v hinv.canonical
  have hexist := memSet_within v ha hinv.within
  by_cases hforbidden : forbiddenWrite s a = true
  · have hbusy : s.busy = true := by
      rw [forbiddenWrite, Bool.and_eq_true] at hforbidden
      exact hforbidden.1
    rw [if_pos hforbidden]
    exact {
      config := hinv.config, canonical := hmem, within := hexist, latched := hinv.latched
      overwrittenCanonical := noteOverwrite_wf a hinv.overwrittenCanonical
      overwrittenWithin := noteOverwrite_within ha hinv.overwrittenWithin
      overwrittenIdle := fun hidle => by simp [hbusy] at hidle }
  · rw [if_neg hforbidden]
    exact { hinv with canonical := hmem, within := hexist }

/-- A host turn keeps the invariant: an accepted issue latches a legal word (30_encoding.md R100), a byte write is of
an address that exists (00_scope.md R12), and no other turn touches what the invariant speaks of. -/
theorem hostTurn_keeps_inv {act : HostAction} {s t : State} (hinv : Inv s) (h : hostTurn act s = .next t) : Inv t := by
  rcases hostTurn_cases h with ⟨_, -, rfl⟩ | ⟨w, -, hidle, hlegal, rfl⟩ | ⟨_, -, -, rfl⟩ | ⟨_, -, rfl⟩ | ⟨_, _, -, rfl⟩ |
    ⟨_, _, -, -, rfl⟩ | ⟨a, v, -, ha, rfl⟩ | ⟨_, -, -, hread⟩
  · exact { hinv with }
  · exact { hinv with
      latched := fun _ => hlegal
      overwrittenIdle := fun _ => hinv.overwrittenIdle hidle }
  · exact { hinv with }
  · exact { hinv with }
  · exact { hinv with }
  · exact hinv
  · exact memWrite_keeps_inv hinv ha v
  · rw [hread]; exact { hinv with }

/-- Settles O58: by the cases of a step, each kind of which keeps the invariant. -/
theorem everyStepKeepsInv : Obligations.EveryStepKeepsInv := by
  intro s t hinv h
  obtain ⟨-, ⟨-, -, rfl⟩ | ⟨ts, -, -, rfl⟩ | ⟨ts, -, -, hcomplete⟩ | ⟨ts, act, -, hhost⟩ | ⟨ts, -, rfl⟩⟩ := step_cases h
  · exact hinv
  · exact takeTurn_keeps_inv hinv ts
  · exact complete_keeps_inv (takeTurn_keeps_inv hinv ts) hcomplete
  · exact hostTurn_keeps_inv (takeTurn_keeps_inv hinv ts) hhost
  · exact resetTurn_keeps_inv (takeTurn_keeps_inv hinv ts)

end Sys2Proof.Machine
end

section
/-! PROOFS. The machine's state (10_state.md): the register block read and written by the host (R36 to R41), the latches
(R42), and what may change RESULT and memory (R33, R39, R49). -/

namespace Sys2Proof.Machine

/-! ### What a host turn does to the register block -/

@[simp] theorem hostTurn_regRead (r : Reg) (s : State) :
    hostTurn (.regRead r) s = .next { s with readData := s.readReg r } := rfl

@[simp] theorem hostTurn_regWrite (r : Reg) (v : Word) (s : State) :
    hostTurn (.regWrite r v) s = .next (s.writeReg r v) := rfl

/-- The STATUS word bit by bit (10_state.md R38). -/
theorem statusWord_getLsbD (s : State) (k : Nat) :
    s.statusWord.getLsbD k = if k = 0 then s.busy else if k = 1 then s.ill else false := by
  have happend : s.statusWord.getLsbD k =
      ((0 : BitVec 30) ++ BitVec.ofBool s.ill ++ BitVec.ofBool s.busy : BitVec (30 + 1 + 1)).getLsbD k := rfl
  rw [happend, BitVec.getLsbD_append, BitVec.getLsbD_append]
  match k with
  | 0 => simp
  | 1 => simp
  | k + 2 => simp

/-- A STATUS write in one equation (10_state.md R38). -/
theorem writeStatus_eq (s : State) (v : Word) : s.writeStatus v = { s with ill := s.ill && !v.getLsbD 1 } := by
  unfold State.writeStatus State.clearIll
  split
  case isTrue hbit => rw [hbit, Bool.not_true, Bool.and_false]
  case isFalse hbit => rw [Bool.not_eq_true] at hbit; rw [hbit, Bool.not_false, Bool.and_true]

/-- Settles O8: the read by the bits of the word, the write by its equation, the completion by its frame. -/
theorem statusReadsAndWrites : Obligations.StatusReadsAndWrites := by
  refine ⟨fun s => ⟨_, hostTurn_regRead .status s, rfl, statusWord_getLsbD s 0, statusWord_getLsbD s 1, ?above⟩,
    fun s v => congrArg Host.Outcome.next (writeStatus_eq s v), fun s t hcomplete => ?completion⟩
  case above =>
    intro k hk
    exact (statusWord_getLsbD s k).trans (by rw [if_neg (by omega), if_neg (by omega)])
  case completion =>
    rw [complete_frame hcomplete]
    exact ⟨rfl, rfl⟩

/-- Settles O9: a read stores the register's word in the read data, and `readReg` says which word that is. -/
theorem registerReadsReturn : Obligations.RegisterReadsReturn := by
  intro s r
  refine ⟨_, hostTurn_regRead r s, rfl, ?cmd, ?result, ?arg, ?reserved⟩
  case cmd => rintro rfl; rfl
  case result => rintro rfl; exact BitVec.toNat_setWidth_of_le (by decide)
  case arg => rintro k rfl; rfl
  case reserved => rintro (rfl | ⟨k, rfl⟩) <;> rfl

/-- Settles O11: the other registers by reading a vector beside the entry set. -/
theorem argWriteStoresOneRegister : Obligations.ArgWriteStoresOneRegister := by
  refine ⟨fun s k v => ⟨_, hostTurn_regWrite (.arg k) v s, rfl, Vector.getElem_set_self k.isLt, ?others⟩,
    fun s v => hostTurn_regWrite .result v s⟩
  intro j hj
  exact Vector.getElem_set_ne k.isLt j.isLt (fun hkj => hj (Fin.ext hkj.symm))

/-! ### The register map -/

/-- The map from offsets to registers inverts `Reg.offset` (10_state.md R36). -/
theorem regAtOffset?_eq_some {o : Nat} {r : Reg} : regAtOffset? o = some r ↔ o = r.offset := by
  constructor
  · intro h
    unfold regAtOffset? at h
    split at h <;> cases h <;> rfl
  · rintro rfl
    cases r with
    | arg k => fin_cases k <;> rfl
    | reservedHigh k => fin_cases k <;> rfl
    | _ => rfl

/-- Settles O12: an address names a register by its distance from REG_BASE. -/
theorem registerAddressesAreExact : Obligations.RegisterAddressesAreExact := by
  intro c
  refine ⟨fun a r => ?exact, rfl, rfl, rfl, rfl, fun k => ?arg, fun k => ?reserved⟩
  case exact =>
    unfold regAtAddress? regAddress
    split
    case isTrue hbase => rw [regAtOffset?_eq_some]; omega
    case isFalse hbase => simp only [reduceCtorEq, false_iff]; omega
  case arg => exact (Nat.add_assoc ..).symm
  case reserved => exact (Nat.add_assoc ..).symm

/-- A reserved word ignores writes and reads 0 (10_state.md R41). -/
theorem hostTurn_reserved {r : Reg} (hr : r = .reservedLow ∨ ∃ k, r = .reservedHigh k) (s : State) (v : Word) :
    hostTurn (.regWrite r v) s = .next s ∧ hostTurn (.regRead r) s = .next { s with readData := 0 } := by
  rcases hr with rfl | ⟨k, rfl⟩
  · exact ⟨rfl, rfl⟩
  · exact ⟨rfl, rfl⟩

/-- Settles O10: the four offsets name reserved words, which are inert. -/
theorem reservedOffsetsAreInert : Obligations.ReservedOffsetsAreInert := by
  constructor
  · intro r
    cases r <;> simp [Reg.offset] <;> omega
  · rintro o (rfl | rfl | rfl | rfl)
    · exact ⟨.reservedLow, rfl, hostTurn_reserved (.inl rfl)⟩
    · exact ⟨.reservedHigh 0, rfl, hostTurn_reserved (.inr ⟨0, rfl⟩)⟩
    · exact ⟨.reservedHigh 1, rfl, hostTurn_reserved (.inr ⟨1, rfl⟩)⟩
    · exact ⟨.reservedHigh 2, rfl, hostTurn_reserved (.inr ⟨2, rfl⟩)⟩

/-! ### After reset -/

/-- Settles O49: the fields of the reset state, and an unlisted byte reads its power-up value. -/
theorem resetStateRegisters : Obligations.ResetStateRegisters :=
  ⟨rfl, rfl, rfl, rfl, fun k => Vector.getElem_replicate k.isLt, fun _ => rfl⟩

/-! ### RESULT -/

/-- No host turn changes RESULT: a host write of it is ignored (10_state.md R39). -/
theorem hostTurn_result {act : HostAction} {s t : State} (h : hostTurn act s = .next t) : t.result = s.result := by
  rcases hostTurn_cases h with ⟨_, _, rfl⟩ | ⟨_, _, _, _, rfl⟩ | ⟨_, _, _, rfl⟩ | ⟨_, _, _, rfl⟩ | ⟨_, _, _, rfl⟩ |
    ⟨_, _, _, _, rfl⟩ | ⟨_, _, _, _, rfl⟩ | ⟨_, _, _, hread⟩
  pick_goal 8
  · rw [hread]
  all_goals rfl

/-- A completion that changes RESULT is PIXR's. -/
theorem complete_result {s t : State} (h : complete s = .next t) (hne : t.result ≠ s.result) :
    decode s.lcmd = .ok .pixr := by
  obtain ⟨i, u, hdecode, hexec, rfl⟩ := complete_cases h
  by_cases hpixr : i = .pixr
  · rw [hdecode, hpixr]
  · exact absurd ((exec_cases hexec).2.1 hpixr) hne

/-- Settles O53: of the ways a step goes on, only a completion and a reset touch RESULT. -/
theorem resultChangesOnlyByPixr : Obligations.ResultChangesOnlyByPixr := by
  intro s t h hne
  obtain ⟨-, ⟨-, -, rfl⟩ | ⟨ts, -, -, rfl⟩ | ⟨ts, -, hbusy, hcomplete⟩ | ⟨ts, act, -, hhost⟩ | ⟨ts, hreset, -⟩⟩ :=
    step_cases h
  · exact absurd rfl hne
  · exact absurd rfl hne
  · have hpixr := complete_result (s := s.takeTurn ts) hcomplete hne
    exact .inl ⟨hbusy, hpixr, congrArg State.busy (complete_frame hcomplete)⟩
  · exact absurd (hostTurn_result hhost) hne
  · exact .inr ⟨ts, hreset⟩

/-! ### Memory that only the host writes -/

/-- A host turn that changes a byte is a host write of that byte. -/
theorem hostTurn_readByte {act : HostAction} {s t : State} {a : Nat} (h : hostTurn act s = .next t)
    (hne : t.readByte a ≠ s.readByte a) : ∃ v, act = .memWrite a v := by
  rcases hostTurn_cases h with ⟨_, _, rfl⟩ | ⟨_, _, _, _, rfl⟩ | ⟨_, _, _, rfl⟩ | ⟨_, _, _, rfl⟩ | ⟨_, _, _, rfl⟩ |
    ⟨_, _, _, _, rfl⟩ | ⟨b, v, rfl, _, rfl⟩ | ⟨_, _, _, hread⟩
  pick_goal 7
  · by_cases hab : a = b
    · exact ⟨v, by rw [hab]⟩
    · exact absurd (memRead_memSet_ne s.mem v hab) hne
  pick_goal 7
  · rw [hread] at hne; exact absurd rfl hne
  all_goals exact absurd rfl hne

/-- A command leaves every byte outside the pixel storage alone (40_pixel_storage.md R129). -/
theorem exec_readByte_of_not_inStorage {i : Instr} {s t : State} {a : Nat} (hwf : s.config.wf = true)
    (h : exec i s = .next t) (ha : ¬ inStorage s.config a) : t.readByte a = s.readByte a := by
  rw [(exec_cases h).1]
  exact memRead_applyWrites_of_ne s.config fun w hw haddr => ha (haddr ▸ writesWith_inStorage hwf hw)

/-- So does a completion when no forbidden write was made. -/
theorem complete_readByte_of_not_inStorage {s t : State} {a : Nat} (hwf : s.config.wf = true)
    (hnone : s.overwritten = []) (h : complete s = .next t) (ha : ¬ inStorage s.config a) :
    t.readByte a = s.readByte a := by
  obtain ⟨i, u, -, hexec, rfl⟩ := complete_cases h
  rw [State.atIssue_of_nil hnone] at hexec
  rw [if_pos hnone]
  exact exec_readByte_of_not_inStorage (t := u) hwf hexec ha

/-- With the Engine idle a reset abandons nothing. -/
theorem abandoned_of_idle {s : State} (hidle : s.busy = false) : abandoned s = [] := by
  simp [abandoned, hidle]

/-- A reset leaves every byte outside the pixel storage alone, and every byte when the Engine is idle
(70_reset_and_hazards.md R260, R261). -/
theorem resetTurn_readByte {s : State} {a : Nat} (ha : ¬ inStorage s.config a ∨ s.busy = false) :
    (resetTurn s).readByte a = s.readByte a := by
  have hnot : a ∉ abandoned s := by
    rcases ha with hout | hidle
    · exact fun hmem => hout (inStorage_of_mem_abandoned hmem)
    · simp [abandoned_of_idle hidle]
  exact readByte_freeBytes_of_not_mem hnot

/-- Settles O55: a completion is of a busy Engine and stays in the storage, a reset frees bytes of the storage and only
when busy, and what remains is the host. -/
theorem onlyTheHostWritesOtherMemory : Obligations.OnlyTheHostWritesOtherMemory := by
  intro s t a hinv hnone h hne hwhere
  obtain ⟨hwf, ⟨-, -, rfl⟩ | ⟨ts, -, -, rfl⟩ | ⟨ts, -, hbusy, hcomplete⟩ | ⟨ts, act, hturns, hhost⟩ | ⟨ts, -, rfl⟩⟩ :=
    step_cases h
  · exact absurd rfl hne
  · exact absurd rfl hne
  · have hout : ¬ inStorage s.config a := hwhere.resolve_right (by simp [hbusy])
    exact absurd (complete_readByte_of_not_inStorage (s := s.takeTurn ts) hwf hnone hcomplete hout) hne
  · obtain ⟨v, rfl⟩ := hostTurn_readByte hhost hne
    exact ⟨v, ts, hturns⟩
  · exact absurd (resetTurn_readByte (s := s.takeTurn ts) hwhere) hne

/-! ### The latches of an idle Engine -/

/-- The same machine with other latches (10_state.md R42). -/
def State.withLatches (s : State) (lc : Word) (la : Operands) (d : DrawColours) : State :=
  { s with lcmd := lc, larg := la, dcl := d }

section Latches

variable {s t : State} {lc : Word} {la : Operands} {d : DrawColours}

/-- What other latches may come to, where `t` comes from the state without them: the same state, or `t` with those
latches and the Engine idle. -/
def SameButIdleLatches (lc : Word) (la : Operands) (d : DrawColours) (t t' : State) : Prop :=
  t' = t ∨ t.busy = false ∧ t' = t.withLatches lc la d

/-- No register shows a latch (10_state.md R36, R42). -/
theorem readReg_withLatches (r : Reg) : (s.withLatches lc la d).readReg r = s.readReg r := by
  cases r <;> rfl

/-- An idle issue: an accepted one latches anew, whatever stood in the latches; a rejected one leaves them
(30_encoding.md R100). -/
theorem issue_withLatches (hidle : s.busy = false) (w : Word) :
    SameButIdleLatches lc la d (issue w s) (issue w (s.withLatches lc la d)) := by
  have hnot : ¬ s.busy = true := by simp [hidle]
  have hnot' : ¬ (s.withLatches lc la d).busy = true := hnot
  rw [issue_eq, issue_eq, if_neg hnot, if_neg hnot']
  by_cases hlegal : legal w s.args = true
  · have hlegal' : legal w (s.withLatches lc la d).args = true := hlegal
    rw [if_pos hlegal, if_pos hlegal']
    exact .inl rfl
  · have hlegal' : ¬ legal w (s.withLatches lc la d).args = true := hlegal
    rw [if_neg hlegal, if_neg hlegal']
    exact .inr ⟨hidle, rfl⟩

/-- A register write to an idle machine: only CMD's can reach the latches. -/
theorem writeReg_withLatches (hidle : s.busy = false) (r : Reg) (v : Word) :
    SameButIdleLatches lc la d (s.writeReg r v) ((s.withLatches lc la d).writeReg r v) := by
  cases r with
  | cmd => exact issue_withLatches hidle v
  | status => simp only [State.writeReg, writeStatus_eq]; exact .inr ⟨hidle, rfl⟩
  | _ => exact .inr ⟨hidle, rfl⟩

/-- An idle Engine forbids the host no read (70_reset_and_hazards.md R265, R271). -/
theorem hostMemRead_of_idle (hidle : s.busy = false) (a : Nat) :
    hostMemRead a s = if a < s.config.memSize then .next { s with readData := (s.readByte a).setWidth 32 }
      else .fault (.noSuchAddress a) := by
  simp [hostMemRead, forbiddenRead, hidle]

/-- An idle Engine forbids the host no write (70_reset_and_hazards.md R265, R271). -/
theorem hostMemWrite_of_idle (hidle : s.busy = false) (a : Nat) (v : Byte) :
    hostMemWrite a v s = if a < s.config.memSize then .next (s.writeByte a v) else .fault (.noSuchAddress a) := by
  simp [hostMemWrite, forbiddenWrite, hidle]

/-- A host turn does not see the latches of an idle Engine. -/
theorem hostTurn_withLatches {act : HostAction} (hidle : s.busy = false) (h : hostTurn act s = .next t) :
    ∃ t', hostTurn act (s.withLatches lc la d) = .next t' ∧ SameButIdleLatches lc la d t t' := by
  have hidle' : (s.withLatches lc la d).busy = false := hidle
  cases act with
  | regRead r =>
    cases h
    refine ⟨_, rfl, .inr ⟨hidle, ?_⟩⟩
    rw [readReg_withLatches]; rfl
  | regWrite r v => cases h; exact ⟨_, rfl, writeReg_withLatches hidle r v⟩
  | memRead a =>
    simp only [hostTurn, hostMemRead_of_idle hidle, hostMemRead_of_idle hidle'] at h ⊢
    split at h
    case isTrue ha => cases h; exact ⟨_, if_pos ha, .inr ⟨hidle, rfl⟩⟩
    case isFalse => cases h
  | memWrite a v =>
    simp only [hostTurn, hostMemWrite_of_idle hidle, hostMemWrite_of_idle hidle'] at h ⊢
    split at h
    case isTrue ha => cases h; exact ⟨_, if_pos ha, .inr ⟨hidle, rfl⟩⟩
    case isFalse => cases h

/-- A reset of an idle machine clears the latches, and nothing it does depends on them (10_state.md R48). -/
theorem resetTurn_withLatches (hidle : s.busy = false) : resetTurn (s.withLatches lc la d) = resetTurn s := by
  have hidle' : (s.withLatches lc la d).busy = false := hidle
  rw [resetTurn, resetTurn, abandoned_of_idle hidle, abandoned_of_idle hidle']
  rfl

/-- A step of an idle machine does not see the latches, whichever turn it takes. -/
theorem step_withLatches (hidle : s.busy = false) (h : step s = .next t) :
    ∃ t', step (s.withLatches lc la d) = .next t' ∧ SameButIdleLatches lc la d t t' := by
  obtain ⟨hwf, hcases⟩ := step_cases h
  have hidle' : (s.withLatches lc la d).busy = false := hidle
  rw [step_eq (s := s.withLatches lc la d) hwf, show (s.withLatches lc la d).turns = s.turns from rfl]
  rcases hcases with ⟨hturns, -, rfl⟩ | ⟨ts, hturns, -, rfl⟩ | ⟨ts, -, hbusy, -⟩ | ⟨ts, act, hturns, hhost⟩ |
    ⟨ts, hturns, rfl⟩
  · rw [hturns]
    exact ⟨_, if_neg (by simp [hidle']), .inr ⟨hidle, rfl⟩⟩
  · rw [hturns]
    exact ⟨_, if_neg (by simp [hidle']), .inr ⟨hidle, rfl⟩⟩
  · exact absurd hbusy (by simp [hidle])
  · rw [hturns]
    exact hostTurn_withLatches (s := s.takeTurn ts) hidle hhost
  · rw [hturns]
    exact ⟨_, rfl, .inl (resetTurn_withLatches (s := s.takeTurn ts) hidle)⟩

end Latches

/-- Settles O56: the other step reaches the same state, or an idle one that differs in the latches alone. -/
theorem latchesUnobservableWhenIdle : Obligations.LatchesUnobservableWhenIdle := by
  intro s t lc la d hidle h
  obtain ⟨t', hstep, rfl | ⟨htidle, rfl⟩⟩ := step_withLatches (lc := lc) (la := la) (d := d) hidle h
  · exact ⟨t', hstep, rfl, fun _ => rfl⟩
  · exact ⟨_, hstep, rfl, fun hbusy => by simp [htidle] at hbusy⟩

end Sys2Proof.Machine
end

section
/-! PROOFS. Source bytes (20_memory.md R78): which offsets read memory or the font, and which are `draw()`. -/

namespace Sys2Proof.Machine

section SourceBytes

variable {draw : Nat → Byte} {cfg : Config} {m : Memory} {src : Source} {k : Int} {d : Nat}

/-- A byte that is found takes no evaluation of the oracle. -/
theorem srcByte_of_eq_some {b : Byte} (h : sourceByte? cfg m src k = some b) : srcByte draw cfg m src k d = (b, d) := by
  rw [srcByte, h]

/-- A byte that is not found is a fresh evaluation of the oracle. -/
theorem srcByte_of_eq_none (h : sourceByte? cfg m src k = none) : srcByte draw cfg m src k d = (draw d, d + 1) := by
  rw [srcByte, h]

/-- The offsets at which a sequence in memory has a byte, with the byte's address `ptr + k` taken in the integers as
20_memory.md R78 writes it. -/
def ReadsMemory (cfg : Config) (ptr len : Nat) (k : Int) : Prop :=
  0 ≤ k ∧ k < len ∧ (ptr + k : Int) < cfg.memSize ∧
    ¬ ((cfg.fbBase : Int) ≤ ptr + k ∧ (ptr + k : Int) < cfg.fbBase + cfg.fbBytes)

/-- The model's own check, on the natural address `ptr + k.toNat`, says the same: the two addresses agree for `0 ≤ k`. -/
theorem readsMemory_iff {ptr len : Nat} : ReadsMemory cfg ptr len k ↔
    0 ≤ k ∧ k < len ∧ ptr + k.toNat < cfg.memSize ∧ ¬ inStorage cfg (ptr + k.toNat) := by
  refine and_congr_right fun hk => ?_
  obtain ⟨n, rfl⟩ := Int.eq_ofNat_of_zero_le hk
  rw [Int.toNat_natCast]
  norm_cast

theorem sourceByte?_mem_of_reads {ptr len : Nat} (h : ReadsMemory cfg ptr len k) :
    sourceByte? cfg m (.mem ptr len) k = some (memRead m (ptr + k.toNat)) := if_pos (readsMemory_iff.1 h)

theorem sourceByte?_mem_of_not_reads {ptr len : Nat} (h : ¬ ReadsMemory cfg ptr len k) :
    sourceByte? cfg m (.mem ptr len) k = none := if_neg fun hreads => h (readsMemory_iff.2 hreads)

theorem sourceByte?_font_of_inside (hk : 0 ≤ k) (hlen : k < cfg.fontLen) :
    sourceByte? cfg m .font k = cfg.font[k.toNat]? := if_pos ⟨hk, hlen⟩

theorem sourceByte?_font_of_outside (h : k < 0 ∨ (cfg.fontLen : Int) ≤ k) : sourceByte? cfg m .font k = none :=
  if_neg fun ⟨hk, hlen⟩ => h.elim hk.not_gt hlen.not_ge

end SourceBytes

/-- Settles O38: each of the four ways out denies a part of `ReadsMemory`, and the font has its length alone. -/
theorem sourceBytesOutsideAreDrawn : Obligations.SourceBytesOutsideAreDrawn := by
  intro draw cfg m ptr len k d
  refine ⟨fun hout => srcByte_of_eq_none (sourceByte?_mem_of_not_reads ?outside),
    fun hk hlen hmem hstorage => srcByte_of_eq_some (sourceByte?_mem_of_reads ⟨hk, hlen, hmem, hstorage⟩),
    fun hout => srcByte_of_eq_none (sourceByte?_font_of_outside hout),
    fun b hk hlen hfont => srcByte_of_eq_some ((sourceByte?_font_of_inside hk hlen).trans hfont)⟩
  rintro ⟨hk, hlen, hmem, hstorage⟩
  rcases hout with hneg | hpast | hbeyond | hinside
  · exact hk.not_gt hneg
  · exact hlen.not_ge hpast
  · exact hmem.not_ge hbeyond
  · exact hstorage hinside

end Sys2Proof.Machine
end

section
/-! PROOFS. The command word (30_encoding.md R90 to R93, R96): a word is its three fields, decoding reads them and
encoding writes them, and legality is decoding with well-formed operands. -/

namespace Sys2Proof

/-! ### A word and its fields -/

section Fields

variable {v w : Word}

/-- A command word has nothing but its three fields (R90). -/
theorem eq_of_fields_eq (hreserved : reservedField v = reservedField w) (hflags : flagField v = flagField w)
    (hop : opField v = opField w) : v = w := by
  have hreserved := congrArg BitVec.toNat hreserved
  have hflags := congrArg BitVec.toNat hflags
  have hop := congrArg BitVec.toNat hop
  simp only [reservedField_toNat, flagField_toNat, opField_toNat] at hreserved hflags hop
  exact BitVec.eq_of_toNat_eq (by omega)

theorem reservedField_eq_zero_iff : reservedField w = 0 ↔ w.toNat / 256 = 0 := by
  rw [← BitVec.toNat_inj, reservedField_toNat]; rfl

theorem flagField_eq_zero_iff : flagField w = 0 ↔ w.toNat / 16 % 16 = 0 := by
  rw [← BitVec.toNat_inj, flagField_toNat]; rfl

theorem opField_eq_iff {n : Nat} (hn : n < 16) : opField w = BitVec.ofNat 4 n ↔ w.toNat % 16 = n := by
  rw [← BitVec.toNat_inj, opField_toNat, BitVec.toNat_ofNat, Nat.mod_eq_of_lt hn]

/-- The flag field bit by bit, `RYXB` from the top (R90). -/
theorem flagField_eq_bits (w : Word) : flagField w = BitVec.ofBool (w.getLsbD 7) ++ BitVec.ofBool (w.getLsbD 6) ++
    BitVec.ofBool (w.getLsbD 5) ++ BitVec.ofBool (w.getLsbD 4) := by
  refine BitVec.eq_of_getLsbD_eq fun k hk => ?_
  simp only [flagField, BitVec.getLsbD_extractLsb', BitVec.getLsbD_append]
  interval_cases k <;> simp

end Fields

/-! ### The encoder's words -/

/-- The fields of every encoder's word, from the lemma of each command. -/
theorem encode_fields (i : Instr) : Laws.WordFields.Statement i := by
  cases i with
  | clear => exact Laws.WordFields.clear
  | pixw => exact Laws.WordFields.pixw
  | pixr => exact Laws.WordFields.pixr
  | hline => exact Laws.WordFields.hline
  | vline => exact Laws.WordFields.vline
  | rect => exact Laws.WordFields.rect
  | oval => exact Laws.WordFields.oval
  | line => exact Laws.WordFields.line
  | blit bpp2 flipX flipY rot => exact Laws.WordFields.blit bpp2 flipX flipY rot
  | text => exact Laws.WordFields.text

/-- The decoder reads back what the encoder writes; for BLIT this is sixteen words, one per flag combination. -/
theorem decode_encode (i : Instr) : decode (encode i) = .ok i := by
  cases i with
  | blit bpp2 flipX flipY rot => revert bpp2 flipX flipY rot; decide
  | _ => rfl

/-! ### What the decoder reads -/

section Decoder

variable {w : Word} {i j : Instr}

theorem withoutFlags_eq_ok_iff : withoutFlags w j = .ok i ↔ flagField w = 0 ∧ j = i := by
  unfold withoutFlags
  split
  case isTrue hflags => simp [hflags]
  case isFalse hflags => simp only [reduceCtorEq, hflags, false_and]

/-- The arm of the decoder for a command without flags. -/
theorem fields_of_withoutFlags {n : Nat} (hop : (opField w).toNat = n) (hcode : j.opcode.toNat = n)
    (hnoflags : j.flags = 0) (h : withoutFlags w j = .ok i) : flagField w = i.flags ∧ opField w = i.opcode := by
  obtain ⟨hflags, rfl⟩ := withoutFlags_eq_ok_iff.1 h
  exact ⟨hflags.trans hnoflags.symm, BitVec.eq_of_toNat_eq (hop.trans hcode.symm)⟩

/-- A word that decodes has the fields of its command: no reserved bit, the command's flags, its opcode (R90 to R92). -/
theorem fields_of_decode (h : decode w = .ok i) :
    reservedField w = 0 ∧ flagField w = i.flags ∧ opField w = i.opcode := by
  unfold decode at h
  split at h
  case isTrue hreserved => cases h
  case isFalse hreserved =>
    refine ⟨not_not.1 hreserved, ?_⟩
    split at h
    case h_9 hop =>
      cases h
      exact ⟨flagField_eq_bits w, BitVec.eq_of_toNat_eq hop⟩
    case h_11 => cases h
    all_goals
      rename_i hop
      exact fields_of_withoutFlags hop rfl rfl h

/-- The decoder reads a command only from the word the encoder writes for it: the two words have the same fields. -/
theorem eq_encode_of_decode (h : decode w = .ok i) : w = encode i := by
  obtain ⟨hreserved, hflags, hop⟩ := fields_of_decode h
  obtain ⟨hreserved', hop', hflags', -⟩ := encode_fields i
  exact eq_of_fields_eq (hreserved.trans hreserved'.symm) (hflags.trans hflags'.symm) (hop.trans hop'.symm)

end Decoder

/-- Settles O2: a word that decodes has the fields of the encoder's word and so is that word, and that word decodes. -/
theorem decodeAndEncodeAgree : Obligations.DecodeAndEncodeAgree := by
  intro w i
  constructor
  · exact eq_encode_of_decode
  · rintro rfl
    exact decode_encode i

/-- Settles O1: the decoder evaluated on each of the words. -/
theorem opcodeTableWordsDecode : Obligations.OpcodeTableWordsDecode := by
  unfold Obligations.OpcodeTableWordsDecode
  decide

/-! ### Legality -/

/-- Legality in plain arithmetic on the word (R96). -/
theorem legal_iff {w : Word} {a : Operands} : legal w a = true ↔
    w.toNat / 256 = 0 ∧ 1 ≤ w.toNat % 16 ∧ w.toNat % 16 ≤ 10 ∧
      (w.toNat % 16 = 9 ∨ w.toNat / 16 % 16 = 0) ∧ (w.toNat % 16 ≠ 2 ∨ a[2].toNat ≤ 3) := by
  have hblit : opField w = 9 ↔ w.toNat % 16 = 9 := opField_eq_iff (by decide)
  have hpixw : opField w = 2 ↔ w.toNat % 16 = 2 := opField_eq_iff (by decide)
  simp only [legal, Bool.and_eq_true, decide_eq_true_eq, reservedField_eq_zero_iff, flagField_eq_zero_iff, hblit,
    ne_eq, hpixw, opField_toNat, and_assoc]

/-- A command's word is legal exactly with the operands the command may be issued with: its fields meet the other
clauses of R96 by themselves. -/
theorem legal_encode (i : Instr) (a : Operands) : legal (encode i) a = i.wellFormed a := by
  obtain ⟨hreserved, hop, hflags, -⟩ := encode_fields i
  rw [legal, hreserved, hop, hflags]
  cases i <;> simp [Instr.wellFormed, Instr.opcode, Instr.flags]

/-- Settles O4: a legal word decodes; a word that decodes is the encoder's, whose legality is its command's check. -/
theorem legalMeansDecodesWellFormed : Obligations.LegalMeansDecodesWellFormed := by
  intro w a
  constructor
  · exact decode_of_legal
  · rintro ⟨i, hdecode, hwellFormed⟩
    rw [eq_encode_of_decode hdecode, legal_encode, hwellFormed]

end Sys2Proof
end

section
/-! PROOFS. The issue and the completion step (30_encoding.md R96, R100 to R103): what a CMD write does, what a busy
Engine's turn does, and what a command's result depends on. -/

namespace Sys2Proof.Machine

/-! ### The issue step -/

section Issue

variable {s : State} {w : Word}

/-- The machine with w accepted: CMD holds it, it is latched with ARG and DRAW_COLORS, and BUSY is 1 (R100). -/
def State.accept (s : State) (w : Word) : State :=
  { s with cmd := w, lcmd := w, larg := s.args, dcl := s.drawColours, busy := true }

/-- A rejected issue stores the word in CMD and sets ILL (R100; 60_exceptions.md R242). -/
theorem issue_of_rejected (h : s.busy = true ∨ legal w s.args = false) :
    issue w s = { s with cmd := w, ill := true } := by
  rw [issue_eq]
  rcases h with hbusy | hillegal
  · rw [if_pos hbusy]
  · rw [hillegal]
    exact ite_self _

theorem issue_of_accepted (hidle : s.busy = false) (hlegal : legal w s.args = true) :
    issue w s = s.accept w := by
  rw [issue_eq, if_neg (by simp [hidle]), if_pos hlegal, State.accept]

end Issue

/-- Settles O3: the arithmetic of the word's fields, and the rejected issue. -/
theorem legalWordsExactly : Obligations.LegalWordsExactly :=
  ⟨fun _ _ => legal_iff, fun _ _ _ hillegal => congrArg Host.Outcome.next (issue_of_rejected (.inr hillegal))⟩

/-- Settles O5: the issue step written out, with DRAW_COLORS as its two bytes. -/
theorem cmdWriteIssues : Obligations.CmdWriteIssues := fun s w => congrArg Host.Outcome.next (issue_eq w s)

/-- A host turn that starts the Engine is an accepted issue. -/
theorem hostTurn_of_starts {act : HostAction} {s t : State} (h : hostTurn act s = .next t) (hidle : s.busy = false)
    (hbusy : t.busy = true) : ∃ w, act = .regWrite .cmd w ∧ legal w s.args = true ∧ t = s.accept w := by
  have hstays : t.busy ≠ s.busy := by simp [hidle, hbusy]
  rcases hostTurn_cases h with ⟨_, -, rfl⟩ | ⟨w, hact, -, hlegal, ht⟩ | ⟨_, -, -, rfl⟩ | ⟨_, -, rfl⟩ | ⟨_, _, -, rfl⟩ |
    ⟨_, _, -, -, rfl⟩ | ⟨_, _, -, -, rfl⟩ | ⟨_, -, -, hread⟩
  pick_goal 2
  · exact ⟨w, hact, hlegal, ht⟩
  pick_goal 7
  · rw [hread] at hstays; exact absurd rfl hstays
  all_goals exact absurd rfl hstays

/-- Settles O54: an Engine turn, a completion and a reset end idle, so the step is the host's. -/
theorem onlyLegalIssueStartsCommand : Obligations.OnlyLegalIssueStartsCommand := by
  intro s t h hidle hbusy
  obtain ⟨-, ⟨-, -, rfl⟩ | ⟨ts, -, -, rfl⟩ | ⟨ts, -, hrunning, -⟩ | ⟨ts, act, hturns, hhost⟩ | ⟨ts, -, rfl⟩⟩ :=
    step_cases h
  · simp [hidle] at hbusy
  · simp [hidle] at hbusy
  · simp [hidle] at hrunning
  · obtain ⟨w, rfl, hlegal, rfl⟩ := hostTurn_of_starts hhost hidle hbusy
    exact ⟨w, ts, hturns, hlegal, rfl, rfl, rfl⟩
  · simp [resetTurn] at hbusy

/-! ### The Engine's turn -/

section EngineTurn

variable {s t : State} {i : Instr} {ts : List Turn}

/-- A step is the Engine's when its turn is next, or when no turn is left (log 8). -/
theorem step_of_engine_turn (hwf : s.config.wf = true) (hturns : s.turns = .engine :: ts ∨ s.turns = [] ∧ ts = []) :
    step s = engineTurn (s.takeTurn ts) := by
  rw [step_eq hwf]
  rcases hturns with hnext | ⟨hnone, rfl⟩
  · rw [hnext]; rfl
  · have hself : s.takeTurn [] = s := by rw [← hnone]; rfl
    rw [hnone, hself]

/-- With no forbidden write made, a completion is the command itself on the state as it is (R102). -/
theorem complete_of_not_overwritten (hnone : s.overwritten = []) (hdecode : decode s.lcmd = .ok i) :
    complete s = finish i s (exec i s) := by
  rw [complete, hdecode, State.atIssue_of_nil hnone]

/-- With no forbidden write made, a completion that goes on only ends the command. -/
theorem finish_next_of_not_overwritten (hnone : s.overwritten = []) : finish i s (.next t) = .next t.endCommand :=
  if_pos hnone

/-- A busy Engine's turn, with no forbidden write made, runs the latched command (R102). -/
theorem step_of_busy_engine_turn (hwf : s.config.wf = true) (hbusy : s.busy = true) (hnone : s.overwritten = [])
    (hdecode : decode s.lcmd = .ok i) (hturns : s.turns = .engine :: ts ∨ s.turns = [] ∧ ts = []) :
    step s = finish i (s.takeTurn ts) (exec i (s.takeTurn ts)) := by
  rw [step_of_engine_turn hwf hturns]
  calc engineTurn (s.takeTurn ts) = complete (s.takeTurn ts) := if_pos hbusy
    _ = finish i (s.takeTurn ts) (exec i (s.takeTurn ts)) := complete_of_not_overwritten hnone hdecode

end EngineTurn

/-- Settles O42: the turn is `finish` of the command, and `finish` passes on every outcome but clears BUSY. -/
theorem stepRunsTheLatchedCommand : Obligations.StepRunsTheLatchedCommand := by
  intro s ts i hwf hbusy hnone hdecode hturns
  rw [step_of_busy_engine_turn hwf hbusy hnone hdecode hturns, ← State.takeTurn]
  cases exec i (s.takeTurn ts) with
  | next t => exact finish_next_of_not_overwritten (s := s.takeTurn ts) hnone
  | fault f => rfl
  | refused r => rfl

/-- Settles O43: the first step is the accepted issue, and the second the Engine's turn on what it latched, where the
command goes on because a legal word's operands are well-formed. -/
theorem issuedCommandRuns : Obligations.IssuedCommandRuns := by
  intro s w i ts hwf hidle hnone hturns hlegal hdecode
  have hissue : step s = .next ((s.takeTurn (.engine :: ts)).accept w) := by
    rw [step_eq hwf, hturns]
    exact congrArg Host.Outcome.next (issue_of_accepted (s := s.takeTurn (.engine :: ts)) hidle hlegal)
  obtain ⟨t, hexec⟩ := exec_goes (s := (s.accept w).takeTurn ts) (wellFormed_of_legal hlegal hdecode)
  have hturn : step ((s.takeTurn (.engine :: ts)).accept w) = finish i ((s.accept w).takeTurn ts) (.next t) := by
    rw [← hexec]
    exact step_of_busy_engine_turn hwf rfl hnone hdecode (.inl rfl)
  exact ⟨_, t, hissue, hturn.trans (finish_next_of_not_overwritten hnone), hexec⟩

/-! ### What a command's result depends on -/

/-- No host turn takes a draw (R103). -/
theorem hostTurn_draws {act : HostAction} {s t : State} (h : hostTurn act s = .next t) : t.draws = s.draws := by
  rcases hostTurn_cases h with ⟨_, -, rfl⟩ | ⟨_, -, -, -, rfl⟩ | ⟨_, -, -, rfl⟩ | ⟨_, -, rfl⟩ | ⟨_, _, -, rfl⟩ |
    ⟨_, _, -, -, rfl⟩ | ⟨_, _, -, -, rfl⟩ | ⟨_, -, -, hread⟩
  pick_goal 8
  · rw [hread]
  all_goals rfl

/-- A completion that takes a draw is a BLIT's or a TEXT's (R103). -/
theorem complete_draws {s t : State} (h : complete s = .next t) (hne : t.draws ≠ s.draws) :
    decode s.lcmd = .ok .text ∨ ∃ a b c d, decode s.lcmd = .ok (.blit a b c d) := by
  obtain ⟨i, u, hdecode, hexec, rfl⟩ := complete_cases h
  by_cases htext : i = .text
  · exact .inl (htext ▸ hdecode)
  by_cases hblit : ∃ a b c d, i = .blit a b c d
  · obtain ⟨a, b, c, d, rfl⟩ := hblit
    exact .inr ⟨a, b, c, d, hdecode⟩
  · have hkeeps := (exec_cases hexec).2.2 (fun a b c d hi => hblit ⟨a, b, c, d, hi⟩) htext
    exact absurd hkeeps hne

/-- Settles O41: a command reads nothing but what the two states agree on, and of the ways a step goes on only a
completion takes draws. -/
theorem commandsDependOnLatchesAndMemory : Obligations.CommandsDependOnLatchesAndMemory := by
  constructor
  · intro i s s' t hconfig hlarg hdcl hmem hdraws hexec
    exact ⟨_, exec_congr hconfig hlarg hdcl hmem hdraws hexec, rfl, rfl, fun hpixr => if_pos hpixr⟩
  · intro s t h hne
    obtain ⟨-, ⟨-, -, rfl⟩ | ⟨ts, -, -, rfl⟩ | ⟨ts, hturns, hbusy, hcomplete⟩ | ⟨ts, act, -, hhost⟩ | ⟨ts, -, rfl⟩⟩ :=
      step_cases h
    · exact absurd rfl hne
    · exact absurd rfl hne
    · refine ⟨hbusy, congrArg State.busy (complete_frame hcomplete),
        hturns.imp And.left (fun hengine => ⟨ts, hengine⟩), ?_⟩
      exact complete_draws (s := s.takeTurn ts) hcomplete hne
    · exact absurd (hostTurn_draws hhost) hne
    · rw [reset_eq] at hne
      exact absurd rfl hne

end Sys2Proof.Machine
end

section
/-! PROOFS. The pixel storage (40_pixel_storage.md R120 to R130): one point write, the storage commands CLEAR, PIXW and
PIXR, and where every command's writes go. -/

namespace Sys2Proof.Machine

/-! ### One point write -/

/-- Settles O14: a canvas pixel shares its bits with no other, and the write stores one byte. -/
theorem pointWriteRoundTrip : Obligations.PointWriteRoundTrip := by
  intro cfg m c x y hwf hxy
  refine ⟨pixelAt_applyWrite_self cfg m c x y, fun x' y' hxy' hne => ?_, fun a ha => memRead_memSet_ne m _ ha⟩
  exact pixelAt_applyWrite_ne hwf m c hxy hxy' fun ⟨hx, hy⟩ => hne ⟨hx.symm, hy.symm⟩

/-! ### CLEAR -/

/-- A byte that is filled holds the fill value, whatever order the bytes are filled in. -/
theorem memRead_applyWrites_fbByte (cfg : Config) (v : Byte) {is : List Nat} {i : Nat} (hi : i ∈ is) (m : Memory) :
    memRead (applyWrites cfg (is.map (.fbByte · v)) m) (cfg.fbBase + i) = v := by
  induction is generalizing m with
  | nil => exact absurd hi List.not_mem_nil
  | cons j is ih =>
    rw [List.map_cons, applyWrites_cons]
    by_cases htail : i ∈ is
    · exact ih htail _
    · have hhead : i = j := (List.mem_cons.1 hi).resolve_right htail
      rw [memRead_applyWrites_of_ne, hhead, applyWrite, memRead_memSet_self]
      intro w hw haddr
      obtain ⟨k, hk, rfl⟩ := List.mem_map.1 hw
      exact htail (Nat.add_left_cancel haddr ▸ hk)

/-- Every byte after CLEAR's writes (R124): 0 in the pixel storage, and elsewhere what it was. -/
theorem memRead_applyWrites_clearWrites (s : State) (m : Memory) (a : Nat) :
    memRead (applyWrites s.config (clearWrites s) m) a = if inStorage s.config a then 0 else memRead m a := by
  split
  case isTrue ha =>
    obtain ⟨i, rfl⟩ := Nat.exists_eq_add_of_le ha.1
    exact memRead_applyWrites_fbByte s.config 0 (List.mem_range.2 (Nat.lt_of_add_lt_add_left ha.2)) m
  case isFalse ha =>
    refine memRead_applyWrites_of_ne s.config fun w hw haddr => ha ?_
    obtain ⟨i, hi, rfl⟩ := List.mem_map.1 hw
    rw [haddr]
    exact ⟨Nat.le_add_right _ _, Nat.add_lt_add_left (List.mem_range.1 hi) _⟩

/-- A canvas pixel whose byte is 0 reads 0 (R123). -/
theorem pixelAt_eq_zero {cfg : Config} {m : Memory} {x y : Int} (h : memRead m (cfg.fbBase + pixByte cfg x y) = 0) :
    pixelAt cfg m x y = 0 := by
  rw [pixelAt, h, getPixelBits]
  simp

/-- Settles O15: the word's fields leave no other legal word, and each byte after the fill is known. -/
theorem clearZeroFillsStorage : Obligations.ClearZeroFillsStorage := by
  refine ⟨decode_encode .clear, fun w a hop hrest => ?_, fun s hwf => ?_⟩
  · refine Bool.eq_false_iff.2 fun hlegal => ?_
    obtain ⟨hreserved, -, -, hflags, -⟩ := legal_iff.1 hlegal
    omega
  · have hread := memRead_applyWrites_clearWrites s s.mem
    refine ⟨_, execClear_eq s, rfl, hread, fun x y hxy => pixelAt_eq_zero ?_⟩
    have hin := pixByte_lt hwf hxy
    exact (hread _).trans (if_pos ⟨Nat.le_add_right _ _, Nat.add_lt_add_left hin _⟩)

/-! ### PIXW -/

section Pixw

variable {s : State}

/-- On the canvas PIXW is one point write (R125). -/
theorem execPixw_of_inCanvas (hcolour : s.larg[2].toNat ≤ 3) (h : inCanvas s.config s.larg[0].toInt s.larg[1].toInt) :
    exec .pixw s = .next (s.setMem (applyWrite s.config s.mem
      (.pixel (s.larg[2].setWidth 2) s.larg[0].toInt s.larg[1].toInt))) := by
  have hwrites : pixwWrites s = [.pixel (s.larg[2].setWidth 2) s.larg[0].toInt s.larg[1].toInt] := if_pos h
  rw [exec, execPixw_eq hcolour, hwrites, applyWrites_cons, applyWrites_nil]

/-- Off the canvas PIXW changes nothing (R125). -/
theorem execPixw_of_not_inCanvas (hcolour : s.larg[2].toNat ≤ 3)
    (h : ¬ inCanvas s.config s.larg[0].toInt s.larg[1].toInt) : exec .pixw s = .next s := by
  have hwrites : pixwWrites s = [] := if_neg h
  rw [exec, execPixw_eq hcolour, hwrites, applyWrites_nil, State.setMem]

end Pixw

/-- Settles O16: on the canvas the round trip of the one point write, with a colour that keeps its value in two bits. -/
theorem pixwSetsOnePixel : Obligations.PixwSetsOnePixel := by
  refine ⟨decode_encode .pixw, fun a ha => ?_, fun s hwf hcolour => ?_⟩
  · exact (legal_encode .pixw a).trans (decide_eq_false (Nat.not_le.2 ha))
  by_cases hxy : inCanvas s.config s.larg[0].toInt s.larg[1].toInt
  · obtain ⟨hself, hothers, hframe⟩ := pointWriteRoundTrip s.config s.mem (s.larg[2].setWidth 2) _ _ hwf hxy
    refine ⟨_, execPixw_of_inCanvas hcolour hxy, rfl, fun hoff => absurd hxy hoff, fun _ => ?_⟩
    refine ⟨?_, hothers, hframe⟩
    rw [State.getPixel]
    exact (congrArg BitVec.toNat hself).trans (Nat.mod_eq_of_lt (Nat.lt_succ_of_le hcolour))
  · exact ⟨s, execPixw_of_not_inCanvas hcolour hxy, rfl, fun _ => rfl, fun hon => absurd hon hxy⟩

/-- Settles O17: the assertion of log 14 is the condition of PIXW's one branch. -/
theorem pixwColourAboveThreeStops : Obligations.PixwColourAboveThreeStops :=
  fun _ hcolour => if_neg (Nat.not_le.2 hcolour)

/-! ### PIXR -/

/-- Settles O18: PIXR is one update of RESULT, by the point clipper's test. -/
theorem pixrReadsOnePixel : Obligations.PixrReadsOnePixel :=
  ⟨decode_encode .pixr, fun _ => ⟨_, rfl, rfl, fun hon => if_pos hon, fun hoff => if_neg hoff⟩⟩

/-! ### Every command -/

/-- Settles O40: where each command's writes go, and what a list of writes leaves alone. -/
theorem commandsWriteOnlyTheirBytes : Obligations.CommandsWriteOnlyTheirBytes := by
  intro i s hwf
  constructor
  · intro w hw
    exact ⟨writesWith_inStorage hwf hw, fun hclear => writesWith_onCanvas Config.draw hclear s w hw⟩
  · intro t hexec a ha
    rw [(exec_cases hexec).1]
    exact memRead_applyWrites_of_ne s.config ha

end Sys2Proof.Machine
end

section
/-! PROOFS. The draw colours (41_draw_color.md R140 to R142): the value of a role nibble and of the colour it selects. -/

namespace Sys2Proof.Machine

/-- Nibble i of v is digit i of v in base 16 (R140). -/
theorem toNat_nibble (v : DrawColours) (i : Nat) : (nibble v i).toNat = v.toNat / 16 ^ i % 16 := by
  have hweight : 2 ^ (4 * i) = 16 ^ i := Nat.pow_mul 2 4 i
  rw [nibble, BitVec.toNat_setWidth, BitVec.toNat_ushiftRight, Nat.shiftRight_eq_div_pow, hweight]

/-- The colour an enabled nibble selects (R142): `n - 1` does not borrow, and keeps its two low bits. -/
theorem toNat_colour {n : Nibble} (h : enabled n) : (colour n).toNat = (n.toNat - 1) % 4 := by
  have hone : 1 ≤ n := BitVec.le_def.2 (BitVec.toNat_pos_of_ne_zero h)
  have hpred : (n - 1).toNat = n.toNat - 1 := BitVec.toNat_sub_of_le hone
  rw [colour, BitVec.toNat_setWidth, hpred]

/-- On the nibble 0 the formula borrows; only OVAL's stroke uses the value (R146). -/
theorem colour_zero : colour 0 = 3 := by decide

/-- Settles O13: a digit of the draw-colour value, and the colour formula without and with its borrow. -/
theorem drawColourDecode : Obligations.DrawColourDecode :=
  ⟨fun v i _ => toNat_nibble v i, fun _ => toNat_colour, colour_zero⟩

end Sys2Proof.Machine
end

section
/-! PROOFS. The runs and the axis-parallel shapes (42_shapes.md R150 to R160): what a canvas pixel holds after the
writes of a command, the two forms of a run, and the images of HLINE, VLINE and RECT. -/

namespace Sys2Proof.Machine

/-! ### The image of a list of point writes -/

section Image

variable {s : State} {ws : List Write} {px py : Int}

/-- A canvas pixel after the writes of a command holds the colour of the last write to it. -/
theorem getPixel_setMem_applyWrites (hwf : s.config.wf = true) (hon : AllOnCanvas s.config ws)
    (hp : inCanvas s.config px py) :
    (s.setMem (applyWrites s.config ws s.mem)).getPixel px py = lastColour ws px py (s.getPixel px py) :=
  pixelAt_applyWrites hwf hon s.mem hp

/-- A command that makes point writes of one colour completes, and that colour is where it has a write. -/
theorem exec_draws_one_colour {i : Instr} {c : Colour} {drawn : Int → Int → Prop} [∀ px py, Decidable (drawn px py)]
    (hwf : s.config.wf = true) (hexec : exec i s = .next (s.setMem (applyWrites s.config ws s.mem)))
    (hpixels : ∀ w, w ∈ ws ↔ ∃ px py, inCanvas s.config px py ∧ drawn px py ∧ w = .pixel c px py) :
    ∃ t, exec i s = .next t ∧ t = { s with mem := t.mem } ∧
      (∀ a, ¬ inStorage s.config a → t.readByte a = s.readByte a) ∧
      ∀ px py, inCanvas s.config px py → t.getPixel px py = if drawn px py then c else s.getPixel px py := by
  have hon : AllOnCanvas s.config ws := fun w hw => by
    obtain ⟨px, py, hp, -, rfl⟩ := (hpixels w).1 hw
    exact ⟨c, px, py, rfl, hp⟩
  refine ⟨_, hexec, rfl, fun a => exec_readByte_of_not_inStorage hwf hexec, fun px py hp => ?_⟩
  rw [getPixel_setMem_applyWrites hwf hon hp, lastColour_uniform (c := c)]
  · have hdrawn : Write.pixel c px py ∈ ws ↔ drawn px py := by
      rw [hpixels]
      constructor
      · rintro ⟨_, _, -, hdrawn, heq⟩; cases heq; exact hdrawn
      · exact fun hdrawn => ⟨px, py, hp, hdrawn, rfl⟩
    simp only [hdrawn]
  · intro c' x y hw
    obtain ⟨_, _, -, -, heq⟩ := (hpixels _).1 hw
    exact (Write.pixel.inj heq).1

end Image

/-! ### The byte-aligned run fill -/

section RunFill

variable {cfg : Config} {m : Memory} {c : Colour} {y px py lo hi : Int}

/-- A run inside its row (R150's precondition) sets the pixels of its span. -/
theorem pixelAt_applyWrites_run (hwf : cfg.wf = true)
    (hpre : lo < hi → (0 ≤ y ∧ y < cfg.height) ∧ 0 ≤ lo ∧ hi ≤ cfg.width) (hp : inCanvas cfg px py) :
    pixelAt cfg (applyWrites cfg (run c lo y hi) m) px py =
      if py = y ∧ lo ≤ px ∧ px < hi then c else pixelAt cfg m px py := by
  rw [pixelAt_applyWrites_uniform hwf (run_onCanvas c hpre) m hp (c := c)]
  · have hmem : Write.pixel c px py ∈ run c lo y hi ↔ py = y ∧ lo ≤ px ∧ px < hi := by
      simp only [mem_run, Write.pixel.injEq, true_and]
      constructor
      · rintro ⟨xx, hx, rfl, rfl⟩; exact ⟨rfl, hx⟩
      · rintro ⟨rfl, hx⟩; exact ⟨px, hx, rfl, rfl⟩
    simp only [hmem]
  · intro c' x' y' hw
    obtain ⟨xx, -, heq⟩ := mem_run.1 hw
    exact (Write.pixel.inj heq).1

/-- Each pixel of a solid byte has the byte's colour (R151, `c * 0x55`). -/
theorem getPixelBits_solidByte (c : Colour) (x : Int) : getPixelBits (solidByte c) (pixShift x) = c := by
  have hplace : (x % 4).toNat < 4 := by omega
  rw [pixShift]
  generalize (x % 4).toNat = n at hplace
  revert c
  interval_cases n <;> decide

/-- The byte writes of an aligned stretch of a row, as `runFast` makes them. -/
def byteFill (cfg : Config) (c : Colour) (lo y hi : Int) : List Write :=
  (intRange ((cfg.width * y + lo) / 4) ((cfg.width * y + hi) / 4)).map (fun i => .fbByte i.toNat (solidByte c))

/-- In row-major order a stretch of row y holds pixels of row y only. -/
theorem rowMajor_stretch_iff (h0 : 0 ≤ lo) (hw : hi ≤ cfg.width) (hp : inCanvas cfg px py) :
    (cfg.width * y + lo ≤ (cfg.width : Int) * py + px ∧ (cfg.width : Int) * py + px < cfg.width * y + hi) ↔
      py = y ∧ lo ≤ px ∧ px < hi := by
  obtain ⟨⟨hx0, hx1⟩, -⟩ := hp
  rcases lt_trichotomy py y with habove | rfl | hbelow
  · have hrow : (cfg.width : Int) * (py + 1) ≤ cfg.width * y := mul_le_mul_of_nonneg_left habove (by omega)
    rw [mul_add_one] at hrow
    omega
  · omega
  · have hrow : (cfg.width : Int) * (y + 1) ≤ cfg.width * py := mul_le_mul_of_nonneg_left hbelow (by omega)
    rw [mul_add_one] at hrow
    omega

/-- A row starts on a byte (00_scope.md R7). -/
theorem row_starts_on_byte (hwf : cfg.wf = true) (y : Int) : 4 ∣ (cfg.width : Int) * y := by
  have hwidth : (4 : Int) ∣ cfg.width := by exact_mod_cast Nat.dvd_of_mod_eq_zero (Config.wf_width_mod hwf)
  exact hwidth.mul_right y

/-- The bytes of an aligned stretch are those of its pixels: no byte holds pixels of two rows. -/
theorem pixByte_mem_stretch_iff (hwf : cfg.wf = true) (hlo : lo % 4 = 0) (hhi : hi % 4 = 0) (h0 : 0 ≤ lo)
    (hw : hi ≤ cfg.width) (hp : inCanvas cfg px py) :
    ((cfg.width * y + lo) / 4 ≤ (pixByte cfg px py : Int) ∧ (pixByte cfg px py : Int) < (cfg.width * y + hi) / 4) ↔
      py = y ∧ lo ≤ px ∧ px < hi := by
  have hindex := (pixelIndex_bounds hp).1
  obtain ⟨r, hy⟩ := row_starts_on_byte hwf y
  rw [← rowMajor_stretch_iff h0 hw hp, pixByte, hy]
  omega

/-- Every byte filled on an aligned stretch inside its row holds a pixel of the row. -/
theorem mem_byteFill (hwf : cfg.wf = true) (hlo : lo % 4 = 0) (hhi : hi % 4 = 0)
    {w : Write} (h : w ∈ byteFill cfg c lo y hi) :
    ∃ px, (lo ≤ px ∧ px < hi) ∧ w.byteIndex cfg = pixByte cfg px y := by
  obtain ⟨i, hi', rfl⟩ := List.mem_map.1 h
  rw [mem_intRange] at hi'
  obtain ⟨r, hy⟩ := row_starts_on_byte hwf y
  rw [hy] at hi'
  refine ⟨4 * i - 4 * r, by omega, ?_⟩
  rw [pixByte, Write.byteIndex, hy]
  omega

/-- A byte after a fill of solid bytes. -/
theorem memRead_applyWrites_byteFill (hlo : 0 ≤ cfg.width * y + lo) (i : Nat) :
    memRead (applyWrites cfg (byteFill cfg c lo y hi) m) (cfg.fbBase + i) =
      if (cfg.width * y + lo) / 4 ≤ (i : Int) ∧ (i : Int) < (cfg.width * y + hi) / 4 then solidByte c
      else memRead m (cfg.fbBase + i) := by
  have hfill : byteFill cfg c lo y hi =
      ((intRange ((cfg.width * y + lo) / 4) ((cfg.width * y + hi) / 4)).map Int.toNat).map
        (.fbByte · (solidByte c)) := by rw [List.map_map]; rfl
  split
  case isTrue hin =>
    rw [hfill]
    refine memRead_applyWrites_fbByte cfg _ ?_ m
    exact List.mem_map.2 ⟨i, mem_intRange.2 hin, Int.toNat_natCast i⟩
  case isFalse hout =>
    refine memRead_applyWrites_of_ne cfg fun w hw haddr => hout ?_
    obtain ⟨j, hj, rfl⟩ := List.mem_map.1 hw
    rw [mem_intRange] at hj
    have hij : i = j.toNat := Nat.add_left_cancel haddr
    omega

/-- A fill of solid bytes does to a canvas pixel what the run over the same stretch does. -/
theorem pixelAt_applyWrites_byteFill (hwf : cfg.wf = true) (hlo : lo % 4 = 0) (hhi : hi % 4 = 0) (h0 : 0 ≤ lo)
    (hw : hi ≤ cfg.width) (hy : 0 ≤ y) (hp : inCanvas cfg px py) :
    pixelAt cfg (applyWrites cfg (byteFill cfg c lo y hi) m) px py =
      if py = y ∧ lo ≤ px ∧ px < hi then c else pixelAt cfg m px py := by
  have hstart : 0 ≤ (cfg.width : Int) * y + lo := by positivity
  rw [pixelAt, memRead_applyWrites_byteFill hstart]
  simp only [pixByte_mem_stretch_iff hwf hlo hhi h0 hw hp]
  rw [apply_ite (getPixelBits · (pixShift px)), getPixelBits_solidByte]
  rfl

end RunFill

/-- A run with an aligned middle of at least a byte is filled in three parts, any other pixel by pixel (R151). -/
theorem runFast_cases (cfg : Config) (c : Colour) (sx y ex : Int) :
    runFast cfg c sx y ex = run c sx y ex ∨
    ∃ lo hi, sx ≤ lo ∧ lo < hi ∧ hi ≤ ex ∧ lo % 4 = 0 ∧ hi % 4 = 0 ∧
      runFast cfg c sx y ex = run c sx y lo ++ byteFill cfg c lo y hi ++ run c hi y ex := by
  unfold runFast
  dsimp only
  split
  case isTrue hlong =>
    exact .inr ⟨min ((sx + 3) / 4 * 4) (ex - ex % 4), ex - ex % 4,
      by omega, by omega, by omega, by omega, by omega, rfl⟩
  case isFalse => exact .inl rfl

/-- Settles O19: the three parts of a filled run set the pixels of the whole span, and both forms store in the pixel
storage only. -/
theorem runFastEqualsRun : Obligations.RunFastEqualsRun := by
  intro cfg m c sx y ex hwf hpre
  obtain heq | ⟨lo, hi, hlo, hlt, hhi, hlo4, hhi4, heq⟩ := runFast_cases cfg c sx y ex
  · rw [heq]; exact fun _ => rfl
  obtain ⟨hy0, hy1, hx0, hx1⟩ := hpre (by omega)
  have hrow : 0 ≤ y ∧ y < cfg.height := ⟨hy0, hy1⟩
  refine read_ext hwf (fun px py hp => ?pixel) (fun a ha => ?frame)
  case pixel =>
    rw [heq, applyWrites_append, applyWrites_append,
      pixelAt_applyWrites_run hwf (fun _ => ⟨hrow, by omega, hx1⟩) hp,
      pixelAt_applyWrites_byteFill hwf hlo4 hhi4 (by omega) (by omega) hy0 hp,
      pixelAt_applyWrites_run hwf (fun _ => ⟨hrow, hx0, by omega⟩) hp,
      pixelAt_applyWrites_run hwf (fun _ => ⟨hrow, hx0, hx1⟩) hp]
    rw [← ite_or, ← ite_or]
    exact if_congr (by omega) rfl rfl
  case frame =>
    have hrun : ∀ lo hi, sx ≤ lo → hi ≤ ex → ∀ w ∈ run c lo y hi, a ≠ w.address cfg := fun lo hi h h' w hw haddr =>
      ha (haddr ▸ (run_onCanvas c fun _ => ⟨hrow, by omega, by omega⟩).inStorage hwf hw)
    have hfill : ∀ w ∈ byteFill cfg c lo y hi, a ≠ w.address cfg := fun w hw haddr => by
      obtain ⟨px, hpx, hbyte⟩ := mem_byteFill hwf hlo4 hhi4 hw
      have hlt := pixByte_lt hwf (x := px) (y := y) ⟨by omega, hrow⟩
      rw [Write.address, hbyte] at haddr
      omega
    rw [heq, applyWrites_append, applyWrites_append, memRead_applyWrites_of_ne cfg (hrun hi ex (by omega) le_rfl),
      memRead_applyWrites_of_ne cfg hfill, memRead_applyWrites_of_ne cfg (hrun sx lo le_rfl (by omega)),
      memRead_applyWrites_of_ne cfg (hrun sx ex le_rfl le_rfl)]

/-! ### HLINE and VLINE -/

/-- HLINE's writes are for the canvas pixels of its span (R153). -/
theorem mem_hlineWrites {s : State} {w : Write} :
    w ∈ hlineWrites s ↔ ∃ px py, inCanvas s.config px py ∧
      (nibble s.dcl 0 ≠ 0 ∧ py = s.s32 1 ∧ s.s32 0 ≤ px ∧ px < s.s32 0 + s.s32 2) ∧
      w = .pixel (colour (nibble s.dcl 0)) px py := by
  simp only [hlineWrites]
  split
  case isTrue hon =>
    rw [mem_runClipped]
    constructor
    · rintro ⟨px, hspan, hp, rfl⟩; exact ⟨px, _, hp, ⟨hon, rfl, hspan⟩, rfl⟩
    · rintro ⟨px, py, hp, ⟨-, rfl, hspan⟩, rfl⟩; exact ⟨px, hspan, hp, rfl⟩
  case isFalse hoff =>
    exact iff_of_false List.not_mem_nil fun ⟨_, _, _, ⟨hon, _⟩, _⟩ => hoff hon

/-- Settles O20: the span's pixels are HLINE's writes, all in dc0's colour. -/
theorem hlineDrawsClippedSpan : Obligations.HlineDrawsClippedSpan :=
  ⟨decode_encode .hline, fun s hwf => exec_draws_one_colour hwf (execHline_eq s) fun _ => mem_hlineWrites⟩

/-- VLINE's writes are for the canvas pixels of its column (R154). -/
theorem mem_vlineWrites {s : State} {w : Write} :
    w ∈ vlineWrites s ↔ ∃ px py, inCanvas s.config px py ∧
      (nibble s.dcl 0 ≠ 0 ∧ px = s.s32 0 ∧ s.s32 1 ≤ py ∧ py < s.s32 1 + s.s32 2) ∧
      w = .pixel (colour (nibble s.dcl 0)) px py := by
  simp only [vlineWrites]
  split
  case isTrue hon =>
    split
    case isTrue houtside =>
      refine iff_of_false List.not_mem_nil fun ⟨px, _, hp, hspan, _⟩ => ?_
      omega
    case isFalse hinside =>
      rw [mem_column]
      constructor
      · rintro ⟨py, hrows, rfl⟩; exact ⟨_, py, by omega, ⟨hon, rfl, by omega⟩, rfl⟩
      · rintro ⟨px, py, hp, ⟨-, rfl, hspan⟩, rfl⟩; exact ⟨py, by omega, rfl⟩
  case isFalse hoff =>
    exact iff_of_false List.not_mem_nil fun ⟨_, _, _, ⟨hon, _⟩, _⟩ => hoff hon

/-- Settles O21: the column's pixels are VLINE's writes, all in dc0's colour. -/
theorem vlineDrawsClippedColumn : Obligations.VlineDrawsClippedColumn :=
  ⟨decode_encode .vline, fun s hwf => exec_draws_one_colour hwf (execVline_eq s) fun _ => mem_vlineWrites⟩

/-! ### RECT -/

section Rect

variable {cfg : Config} {n0 n1 : Nibble} {x y width height px py : Int}

/-- `(px, py)` lies in RECT's filled box (R157). -/
def inFillBox (cfg : Config) (n1 : Nibble) (b : RectBounds) (px py : Int) : Prop :=
  ((rectFillBox cfg n1 b).1 ≤ px ∧ px < (rectFillBox cfg n1 b).2.2.1) ∧
    ((rectFillBox cfg n1 b).2.1 ≤ py ∧ py < (rectFillBox cfg n1 b).2.2.2)

/-- The filled box in the operands, by the two readings of R157. -/
theorem inFillBox_iff {off : Int} (hoff : off = if enabled n1 then 1 else 0) :
    inFillBox cfg n1 (rectBounds cfg x y width height) px py ↔
      if cfg.rectInsetAfterClamp then
        max 0 x + off ≤ px ∧ px < min (x + width) cfg.width - off ∧
          max 0 y + off ≤ py ∧ py < min (y + height) cfg.height - off
      else inCanvas cfg px py ∧ x + off ≤ px ∧ px < x + width - off ∧ y + off ≤ py ∧ py < y + height - off := by
  by_cases hafter : cfg.rectInsetAfterClamp = true
  · simp only [inFillBox, rectFillBox, rectBounds, ← hoff, if_pos hafter, and_assoc]
  · simp only [inFillBox, rectFillBox, rectBounds, ← hoff, if_neg hafter]
    omega

/-- `(px, py)` lies on a stroked edge of RECT (R158, R159). -/
def onStroke (cfg : Config) (b : RectBounds) (px py : Int) : Prop :=
  (px = b.x ∧ (0 ≤ b.x ∧ b.x < cfg.width) ∧ b.startY ≤ py ∧ py < rectVEnd cfg b) ∨
  (px = b.endXU - 1 ∧ (0 < b.endXU ∧ b.endXU ≤ cfg.width) ∧ b.startY ≤ py ∧ py < rectVEnd cfg b) ∨
  (py = b.y ∧ (0 ≤ b.y ∧ b.y < cfg.height) ∧ b.startX ≤ px ∧ px < b.endX) ∨
  (py = b.endYU - 1 ∧ (0 < b.endYU ∧ b.endYU ≤ cfg.height) ∧ b.startX ≤ px ∧ px < b.endX)

theorem pixel_mem_rectFill {b : RectBounds} {c : Colour} :
    Write.pixel c px py ∈ rectFill cfg n0 n1 b ↔ c = colour n0 ∧ enabled n0 ∧ inFillBox cfg n1 b px py := by
  rw [mem_rectFill]
  constructor
  · rintro ⟨hn0, _, _, hx, hy, heq⟩; cases heq; exact ⟨rfl, hn0, hx, hy⟩
  · rintro ⟨rfl, hn0, hx, hy⟩; exact ⟨hn0, px, py, hx, hy, rfl⟩

theorem pixel_mem_rectStroke {b : RectBounds} {c : Colour} :
    Write.pixel c px py ∈ rectStroke cfg n1 b ↔ c = colour n1 ∧ enabled n1 ∧ onStroke cfg b px py := by
  rw [mem_rectStroke]
  constructor
  · rintro ⟨hn1, _, _, heq, hedge⟩; cases heq; exact ⟨rfl, hn1, hedge⟩
  · rintro ⟨rfl, hn1, hedge⟩; exact ⟨hn1, px, py, rfl, hedge⟩

/-- With a stroke requested the filled box misses all four edges, under either reading (R160). -/
theorem not_onStroke_of_inFillBox (hn1 : enabled n1)
    (hfill : inFillBox cfg n1 (rectBounds cfg x y width height) px py) :
    ¬ onStroke cfg (rectBounds cfg x y width height) px py := by
  rw [inFillBox_iff (if_pos hn1).symm] at hfill
  unfold onStroke rectBounds
  dsimp only
  split at hfill <;> omega

/-- The rectangle `[x, x1) × [y, y1)` has a canvas pixel: the clamped box of R156 is not empty. -/
def MeetsCanvas (cfg : Config) (x y x1 y1 : Int) : Prop := max 0 x < min x1 cfg.width ∧ max 0 y < min y1 cfg.height

/-- A pixel of RECT's outline in the operands, the verticals up to `vEnd` (R158, R159). -/
def OnOutline (x y x1 y1 vEnd px py : Int) : Prop :=
  x < x1 ∧ y < y1 ∧ x ≤ px ∧ px < x1 ∧ y ≤ py ∧ py < y1 ∧
    (((px = x ∨ px = x1 - 1) ∧ py < vEnd) ∨ py = y ∨ py = y1 - 1)

/-- A pixel of RECT's interior in the operands, inset by `off` before or after the clamp (R157). -/
def InInterior (cfg : Config) (x y x1 y1 off px py : Int) : Prop :=
  x < x1 ∧ y < y1 ∧
    (if cfg.rectInsetAfterClamp then
      max 0 x + off ≤ px ∧ px < min x1 cfg.width - off ∧ max 0 y + off ≤ py ∧ py < min y1 cfg.height - off
    else x + off ≤ px ∧ px < x1 - off ∧ y + off ≤ py ∧ py < y1 - off)

theorem meetsCanvas_of_onOutline {x1 y1 vEnd : Int} (hp : inCanvas cfg px py)
    (h : OnOutline x y x1 y1 vEnd px py) : MeetsCanvas cfg x y x1 y1 := by
  obtain ⟨-, -, hx0, hx1, hy0, hy1, -⟩ := h
  unfold MeetsCanvas
  omega

theorem meetsCanvas_of_inInterior {x1 y1 off : Int} (hoff : 0 ≤ off) (hp : inCanvas cfg px py)
    (h : InInterior cfg x y x1 y1 off px py) : MeetsCanvas cfg x y x1 y1 := by
  obtain ⟨-, -, hbox⟩ := h
  unfold MeetsCanvas
  split at hbox <;> omega

theorem onStroke_iff_onOutline {vEnd : Int} (hmeets : MeetsCanvas cfg x y (x + width) (y + height))
    (hvEnd : vEnd = rectVEnd cfg (rectBounds cfg x y width height)) (hp : inCanvas cfg px py) :
    onStroke cfg (rectBounds cfg x y width height) px py ↔ OnOutline x y (x + width) (y + height) vEnd px py := by
  obtain ⟨hwidth, hheight⟩ := hmeets
  have hlast : vEnd ≤ min (y + height) cfg.height := by
    rw [hvEnd, rectVEnd, rectBounds]
    split
    · exact sub_le_self _ (by decide)
    · exact le_rfl
  rw [onStroke, ← hvEnd, OnOutline]
  simp only [rectBounds]
  omega

theorem inFillBox_iff_inInterior {off : Int} (hmeets : MeetsCanvas cfg x y (x + width) (y + height))
    (hoff : off = if enabled n1 then 1 else 0) (hp : inCanvas cfg px py) :
    inFillBox cfg n1 (rectBounds cfg x y width height) px py ↔
      InInterior cfg x y (x + width) (y + height) off px py := by
  obtain ⟨hwidth, hheight⟩ := hmeets
  rw [inFillBox_iff hoff, InInterior]
  split <;> omega

/-- What RECT's writes do to a canvas pixel: the stroke comes after the fill (R160), and there is none of either when
the clamped box is empty (R156). -/
theorem lastColour_rect {b : RectBounds} {off vEnd : Int} {old : Colour}
    {_ : Decidable (enabled n1 ∧ OnOutline x y (x + width) (y + height) vEnd px py)}
    {_ : Decidable (enabled n0 ∧ InInterior cfg x y (x + width) (y + height) off px py)}
    (hb : b = rectBounds cfg x y width height) (hoff : off = if enabled n1 then 1 else 0)
    (hvEnd : vEnd = rectVEnd cfg b) (hp : inCanvas cfg px py) :
    lastColour (if b.endX ≤ b.startX ∨ b.endY ≤ b.startY then [] else rectFill cfg n0 n1 b ++ rectStroke cfg n1 b)
        px py old =
      if enabled n1 ∧ OnOutline x y (x + width) (y + height) vEnd px py then colour n1
      else if enabled n0 ∧ InInterior cfg x y (x + width) (y + height) off px py then colour n0 else old := by
  subst hb
  have hinset : 0 ≤ off := by rw [hoff]; split <;> decide
  split
  case isTrue hempty =>
    have hmisses : ¬ MeetsCanvas cfg x y (x + width) (y + height) := fun hmeets =>
      hempty.elim hmeets.1.not_ge hmeets.2.not_ge
    rw [if_neg fun h => hmisses (meetsCanvas_of_onOutline hp h.2),
      if_neg fun h => hmisses (meetsCanvas_of_inInterior hinset hp h.2)]
    rfl
  case isFalse hbox =>
    have hmeets : MeetsCanvas cfg x y (x + width) (y + height) := (not_or.1 hbox).imp lt_of_not_ge lt_of_not_ge
    rw [lastColour_append, lastColour_uniform fun _ _ _ hw => (pixel_mem_rectStroke.1 hw).1,
      lastColour_uniform fun _ _ _ hw => (pixel_mem_rectFill.1 hw).1]
    simp only [pixel_mem_rectStroke, pixel_mem_rectFill, true_and, onStroke_iff_onOutline hmeets hvEnd hp,
      inFillBox_iff_inInterior hmeets hoff hp]

end Rect

/-- Settles O22: the writes are those of the operands' rectangle, and its outline and interior are the statement's. -/
theorem rectDrawsFillAndStroke : Obligations.RectDrawsFillAndStroke := by
  have hexec : ∀ s, exec .rect s = .next (s.setMem (applyWrites s.config (rectWrites s) s.mem)) := execRect_eq
  refine ⟨decode_encode .rect, fun s hwf => ⟨_, hexec s, rfl, fun a =>
    exec_readByte_of_not_inStorage hwf (hexec s), ?image⟩⟩
  rintro px py x y x1 y1 off vEnd hp rfl rfl rfl rfl hoff hvEnd
  rw [getPixel_setMem_applyWrites hwf (rectWrites_onCanvas s) hp]
  exact lastColour_rect rfl hoff hvEnd hp

/-- Settles O23: a pixel of both lists lies in the filled box and on a stroked edge. -/
theorem rectFillAndStrokeAreDisjoint : Obligations.RectFillAndStrokeAreDisjoint := by
  intro cfg n0 n1 x y width height px py c c' hfill hstroke
  obtain ⟨-, -, hbox⟩ := pixel_mem_rectFill.1 hfill
  obtain ⟨-, hn1, hedge⟩ := pixel_mem_rectStroke.1 hstroke
  exact not_onStroke_of_inFillBox hn1 hbox hedge

end Sys2Proof.Machine
end

section
/-! PROOFS. LINE (42_shapes.md R166 to R168): the k-th point of the loop in closed form, and what follows from it. -/

namespace Sys2Proof.Machine

/-! ### Steps of the minor axis -/

section MinorSteps

variable {major minor k m : Int}

/-- The error after k steps of the major axis and m of the minor one, from `major` (R167). -/
def lineError (major minor k m : Int) : Int := major - 2 * minor * k + 2 * major * m

/-- How many of the first k steps of a line move its minor axis: the count that keeps the error in `[0, 2*major)`. -/
def minorSteps (major minor k : Int) : Int := (2 * minor * k + major - 1) / (2 * major)

theorem lineError_succ_major : lineError major minor (k + 1) m = lineError major minor k m - 2 * minor := by
  unfold lineError; ring

theorem lineError_succ_minor : lineError major minor k (m + 1) = lineError major minor k m + 2 * major := by
  unfold lineError; ring

theorem minorSteps_eq_iff (hmajor : 0 < major) :
    minorSteps major minor k = m ↔ 0 ≤ lineError major minor k m ∧ lineError major minor k m < 2 * major := by
  rw [minorSteps, Int.ediv_eq_iff_of_pos (by omega), lineError, mul_comm m]
  generalize 2 * minor * k = steps, 2 * major * m = back
  omega

theorem minorSteps_zero (hmajor : 0 ≤ major) : minorSteps major minor 0 = 0 := by
  rcases hmajor.eq_or_lt with rfl | hpos
  · rw [minorSteps, mul_zero, mul_zero, Int.ediv_zero]
  · rw [minorSteps_eq_iff hpos, lineError]; omega

/-- After the last step of the major axis the minor axis has made all its steps. -/
theorem minorSteps_last (hmajor : 0 ≤ major) (hminor : 0 ≤ minor) (hle : minor ≤ major) :
    minorSteps major minor major = minor := by
  rcases hmajor.eq_or_lt with rfl | hpos
  · rw [minorSteps_zero le_rfl]; omega
  · rw [minorSteps_eq_iff hpos, lineError, mul_right_comm]; omega

/-- A step moves the minor axis exactly when the error is below `2*minor` (R166). -/
theorem minorSteps_succ (hmajor : 0 < major) (hminor : 0 ≤ minor) (hle : minor ≤ major) :
    minorSteps major minor (k + 1) = minorSteps major minor k +
      if lineError major minor k (minorSteps major minor k) < 2 * minor then 1 else 0 := by
  obtain ⟨hlo, hhi⟩ := (minorSteps_eq_iff (minor := minor) (k := k) hmajor).1 rfl
  rw [minorSteps_eq_iff hmajor]
  split
  · rw [lineError_succ_minor, lineError_succ_major]; omega
  · rw [add_zero, lineError_succ_major]; omega

theorem minorSteps_nonneg (hmajor : 0 ≤ major) (hminor : 0 ≤ minor) (hk : 0 ≤ k) : 0 ≤ minorSteps major minor k := by
  rcases hmajor.eq_or_lt with rfl | hpos
  · rw [minorSteps, mul_zero, Int.ediv_zero]
  · refine Int.ediv_nonneg ?_ (by omega)
    have hsteps : 0 ≤ 2 * minor * k := by positivity
    omega

end MinorSteps

/-! ### The loop -/

/-- The k-th point of a line from (xa, ya) with dx columns in direction sx and dy rows: one step of the longer axis per
point. -/
def linePoint (xa ya sx dx dy k : Int) : Int × Int :=
  if dy < dx then (xa + sx * k, ya + minorSteps dx dy k) else (xa + sx * minorSteps dy dx k, ya + k)

section Loop

variable {xa ya xb yb sx dx dy : Int}

/-- The loop of a line with more columns than rows: E is the error, so x moves at every step. -/
theorem lineLoop_of_shallow (hdy : 0 ≤ dy) (hlt : dy < dx) (hsx : sx ≠ 0) (n : Nat) :
    ∀ k : Nat, (k + n : Int) = dx + 1 →
      lineLoop n (xa + sx * k) (ya + minorSteps dx dy k) (xa + sx * dx) (ya + dy) dx sx dy
          (lineError dx dy k (minorSteps dx dy k)) =
        (List.range' k n).map (fun j : Nat => (xa + sx * j, ya + minorSteps dx dy j)) := by
  have hdx : 0 < dx := by omega
  induction n with
  | zero => exact fun _ _ => rfl
  | succ n ih =>
    intro k hk
    rw [lineLoop, List.range'_succ, List.map_cons]
    by_cases hlast : (k : Int) = dx
    · obtain rfl : n = 0 := by omega
      rw [if_pos ⟨by rw [hlast], by rw [hlast, minorSteps_last hdx.le hdy hlt.le]⟩]
      rfl
    · have hmore : ¬ xa + sx * k = xa + sx * dx := fun h => hlast (mul_left_cancel₀ hsx (add_left_cancel h))
      obtain ⟨hlo, -⟩ := (minorSteps_eq_iff (minor := dy) (k := k) hdx).1 rfl
      have hnext := ih (k + 1) (by push_cast at hk ⊢; omega)
      rw [if_neg fun h => hmore h.1, if_pos (by omega), ← hnext]
      push_cast
      rw [minorSteps_succ hdx hdy hlt.le, lineError_succ_major]
      split
      · rw [lineError_succ_minor, add_sub_right_comm, mul_add_one, add_assoc, add_assoc]
      · rw [add_zero, mul_add_one, add_assoc]

/-- The loop of a line with at least as many rows as columns: -E is the error, so y moves at every step. -/
theorem lineLoop_of_steep (hdx : 0 ≤ dx) (hle : dx ≤ dy) (n : Nat) :
    ∀ k : Nat, (k + n : Int) = dy + 1 →
      lineLoop n (xa + sx * minorSteps dy dx k) (ya + k) (xa + sx * dx) (ya + dy) dx sx dy
          (-lineError dy dx k (minorSteps dy dx k)) =
        (List.range' k n).map (fun j : Nat => (xa + sx * minorSteps dy dx j, ya + j)) := by
  induction n with
  | zero => exact fun _ _ => rfl
  | succ n ih =>
    intro k hk
    rw [lineLoop, List.range'_succ, List.map_cons]
    by_cases hlast : (k : Int) = dy
    · obtain rfl : n = 0 := by omega
      rw [if_pos ⟨by rw [hlast, minorSteps_last (by omega) hdx hle], by rw [hlast]⟩]
      rfl
    · have hdy : 0 < dy := by omega
      obtain ⟨hlo, -⟩ := (minorSteps_eq_iff (minor := dx) (k := k) hdy).1 rfl
      have hnext := ih (k + 1) (by push_cast at hk ⊢; omega)
      have hrow : -lineError dy dx k (minorSteps dy dx k) < 2 * dy := by omega
      rw [if_neg fun h => hlast (add_left_cancel h.2), if_pos hrow, if_pos hrow, ← hnext]
      push_cast
      rw [minorSteps_succ hdy hdx hle, lineError_succ_major]
      by_cases hcolumn : lineError dy dx k (minorSteps dy dx k) < 2 * dx
      · rw [if_pos hcolumn, if_pos (by omega), lineError_succ_minor, mul_add_one, add_assoc, add_assoc]
        congr 2
        ring
      · rw [if_neg hcolumn, if_neg (by omega), add_zero, add_assoc, neg_sub', sub_neg_eq_add]

/-- The loop from the first point with the error R166 starts it with. -/
theorem lineLoop_eq {n : Nat} (hdx : 0 ≤ dx) (hdy : 0 ≤ dy) (hsx : 0 < dx → sx ≠ 0) (hn : (n : Int) = max dx dy + 1) :
    lineLoop n xa ya (xa + sx * dx) (ya + dy) dx sx dy (if dx > dy then dx else -dy) =
      (List.range n).map (fun k : Nat => linePoint xa ya sx dx dy k) := by
  unfold linePoint
  rw [List.range_eq_range']
  rcases lt_or_ge dy dx with hshallow | hsteep
  · simp only [if_pos hshallow, gt_iff_lt]
    rw [← lineLoop_of_shallow hdy hshallow (hsx (by omega)) n 0 (by omega)]
    simp only [Nat.cast_zero, minorSteps_zero hdx, mul_zero, add_zero, lineError, sub_zero]
  · simp only [if_neg hsteep.not_gt, gt_iff_lt]
    rw [← lineLoop_of_steep hdx hsteep n 0 (by omega)]
    simp only [Nat.cast_zero, minorSteps_zero hdy, mul_zero, add_zero, lineError, sub_zero]

/-- A line with columns has a direction. -/
theorem sign_ne_zero_of_abs_pos {d : Int} (h : 0 < |d|) : d.sign ≠ 0 :=
  fun hzero => abs_pos.1 h (Int.sign_eq_zero_iff_zero.1 hzero)

/-- The points of a line that goes down are the closed form's, `max(dx, dy) + 1` of them (R168). -/
theorem linePointsDown_eq (hdown : ya ≤ yb) (hdx : dx = |xb - xa|) (hdy : dy = yb - ya) (hsx : sx = (xb - xa).sign) :
    linePointsDown xa ya xb yb = (List.range (max (xb - xa).natAbs (yb - ya).natAbs + 1)).map
      (fun k : Nat => linePoint xa ya sx dx dy k) := by
  have hx : xb = xa + sx * dx := by rw [hsx, hdx, Int.sign_mul_abs, add_sub_cancel]
  have hy : yb = ya + dy := by omega
  have hsx0 : 0 < dx → sx ≠ 0 := by rw [hdx, hsx]; exact sign_ne_zero_of_abs_pos
  rw [Int.abs_eq_natAbs] at hdx
  rw [← lineLoop_eq (by omega) (by omega) hsx0 (by omega), ← hx, ← hy, hdx, hdy, hsx]
  rfl

/-- LINE's points in the closed form, from the upper endpoint to the lower one (R166). -/
theorem linePoints_eq {x1 y1 x2 y2 : Int}
    (hends : (y1 ≤ y2 ∧ xa = x1 ∧ ya = y1 ∧ xb = x2 ∧ yb = y2) ∨ (y2 < y1 ∧ xa = x2 ∧ ya = y2 ∧ xb = x1 ∧ yb = y1))
    (hdx : dx = |xb - xa|) (hdy : dy = yb - ya) (hsx : sx = (xb - xa).sign) :
    linePoints x1 y1 x2 y2 = (List.range (max (x2 - x1).natAbs (y2 - y1).natAbs + 1)).map
      (fun k : Nat => linePoint xa ya sx dx dy k) := by
  rcases hends with ⟨hle, rfl, rfl, rfl, rfl⟩ | ⟨hlt, rfl, rfl, rfl, rfl⟩
  · rw [linePoints, if_neg hle.not_gt, linePointsDown_eq hle hdx hdy hsx]
  · have hcount : max (xa - xb).natAbs (ya - yb).natAbs = max (xb - xa).natAbs (yb - ya).natAbs := by omega
    rw [linePoints, if_pos hlt, linePointsDown_eq hlt.le hdx hdy hsx, hcount]

end Loop

/-! ### The k-th point -/

section Point

variable {xa ya sx dx dy : Int}

theorem linePoint_of_shallow (h : dy < dx) (k : Int) :
    linePoint xa ya sx dx dy k = (xa + sx * k, ya + minorSteps dx dy k) := if_pos h

theorem linePoint_of_steep (h : dx ≤ dy) (k : Int) :
    linePoint xa ya sx dx dy k = (xa + sx * minorSteps dy dx k, ya + k) := if_neg h.not_gt

theorem linePoint_zero (hdx : 0 ≤ dx) (hdy : 0 ≤ dy) : linePoint xa ya sx dx dy 0 = (xa, ya) := by
  unfold linePoint
  split
  · rw [minorSteps_zero hdx, mul_zero, add_zero, add_zero]
  · rw [minorSteps_zero hdy, mul_zero, add_zero, add_zero]

theorem linePoint_last (hdx : 0 ≤ dx) (hdy : 0 ≤ dy) :
    linePoint xa ya sx dx dy (max dx dy) = (xa + sx * dx, ya + dy) := by
  rcases lt_or_ge dy dx with hshallow | hsteep
  · rw [linePoint_of_shallow hshallow, max_eq_left hshallow.le, minorSteps_last hdx hdy hshallow.le]
  · rw [linePoint_of_steep hsteep, max_eq_right hsteep, minorSteps_last hdy hdx hsteep]

/-- Two points of a line differ, in the axis that moves at every step. -/
theorem linePoint_injective (hsx : 0 < dx → sx ≠ 0) (hdy : 0 ≤ dy) {j k : Int}
    (h : linePoint xa ya sx dx dy j = linePoint xa ya sx dx dy k) : j = k := by
  rcases lt_or_ge dy dx with hshallow | hsteep
  · rw [linePoint_of_shallow hshallow, linePoint_of_shallow hshallow, Prod.mk.injEq] at h
    exact mul_left_cancel₀ (hsx (by omega)) (add_left_cancel h.1)
  · rw [linePoint_of_steep hsteep, linePoint_of_steep hsteep, Prod.mk.injEq] at h
    exact add_left_cancel h.2

/-- A step moves x by at most 1 and y by 0 or +1 (R168). -/
theorem linePoint_succ (hsx : sx.natAbs ≤ 1) (hdx : 0 ≤ dx) (hdy : 0 ≤ dy) {k : Int} (hk : 0 ≤ k)
    (hlast : k < max dx dy) :
    ((linePoint xa ya sx dx dy (k + 1)).1 - (linePoint xa ya sx dx dy k).1).natAbs ≤ 1 ∧
      ((linePoint xa ya sx dx dy (k + 1)).2 = (linePoint xa ya sx dx dy k).2 ∨
        (linePoint xa ya sx dx dy (k + 1)).2 = (linePoint xa ya sx dx dy k).2 + 1) := by
  rcases lt_or_ge dy dx with hshallow | hsteep
  · rw [linePoint_of_shallow hshallow, linePoint_of_shallow hshallow]
    have hminor := minorSteps_succ (k := k) (show 0 < dx by omega) hdy hshallow.le
    rw [hminor, mul_add_one]
    dsimp only
    split <;> omega
  · rw [linePoint_of_steep hsteep, linePoint_of_steep hsteep]
    have hminor := minorSteps_succ (k := k) (show 0 < dy by omega) hdx hsteep
    rw [hminor]
    dsimp only
    split
    · rw [mul_add_one]; omega
    · rw [add_zero]; omega

/-- The k-th point is fixed by the error (R166, R167). -/
theorem linePoint_error {k x y : Int} (hk : 0 ≤ k) (hdx : 0 ≤ dx) (hdy : 0 ≤ dy)
    (h : linePoint xa ya sx dx dy k = (x, y)) :
    (dy < dx → x = xa + sx * k ∧ 0 ≤ dx - 2 * dy * k + 2 * dx * (y - ya) ∧
        dx - 2 * dy * k + 2 * dx * (y - ya) < 2 * dx) ∧
      (dx ≤ dy → y = ya + k ∧ ∃ m : Nat, x = xa + sx * m ∧
        (0 < dy → -(2 * dy) < -dy - 2 * dy * m + 2 * dx * k ∧ -dy - 2 * dy * m + 2 * dx * k ≤ 0)) := by
  constructor
  · intro hshallow
    rw [linePoint_of_shallow hshallow, Prod.mk.injEq] at h
    obtain ⟨rfl, rfl⟩ := h
    rw [add_sub_cancel_left]
    exact ⟨rfl, (minorSteps_eq_iff (by omega)).1 rfl⟩
  · intro hsteep
    rw [linePoint_of_steep hsteep, Prod.mk.injEq] at h
    obtain ⟨rfl, rfl⟩ := h
    obtain ⟨m, hm⟩ := Int.eq_ofNat_of_zero_le (minorSteps_nonneg hdy hdx hk)
    refine ⟨rfl, m, by rw [hm], fun hdy0 => ?_⟩
    obtain ⟨hlo, hhi⟩ := (minorSteps_eq_iff hdy0).1 hm
    rw [lineError] at hlo hhi
    omega

end Point

/-- Settles O28: LINE's points are `linePoint` at 0, 1, … up to the longer axis. -/
theorem lineWalksBetweenEndpoints : Obligations.LineWalksBetweenEndpoints := by
  intro x1 y1 x2 y2 xa ya xb yb dx dy sx hends hdx hdy hsx
  have hdx0 : 0 ≤ dx := hdx ▸ abs_nonneg _
  have hdy0 : 0 ≤ dy := by omega
  have hsx0 : 0 < dx → sx ≠ 0 := by rw [hdx, hsx]; exact sign_ne_zero_of_abs_pos
  have hsx1 : sx.natAbs ≤ 1 := by rw [hsx, Int.natAbs_sign]; split <;> decide
  have hend : (xa + sx * dx, ya + dy) = (xb, yb) := by
    rw [hsx, hdx, hdy, Int.sign_mul_abs, add_sub_cancel, add_sub_cancel]
  have hlast : ((max (x2 - x1).natAbs (y2 - y1).natAbs : Nat) : Int) = max dx dy := by
    rw [Int.abs_eq_natAbs] at hdx; omega
  rw [linePoints_eq hends hdx hdy hsx]
  generalize max (x2 - x1).natAbs (y2 - y1).natAbs = last at hlast
  have hget : ∀ {k p}, ((List.range (last + 1)).map fun k : Nat => linePoint xa ya sx dx dy k)[k]? = some p →
      k ≤ last ∧ linePoint xa ya sx dx dy k = p := by
    intro k p h
    obtain ⟨hk, rfl⟩ := List.getElem?_eq_some_iff.1 h
    rw [List.length_map, List.length_range] at hk
    rw [List.getElem_map, List.getElem_range]
    exact ⟨Nat.le_of_lt_succ hk, rfl⟩
  refine ⟨?step, ?length, ?nodup, ?head, ?last, ?error⟩
  case step =>
    intro k p q hp hq
    obtain ⟨-, rfl⟩ := hget hp
    obtain ⟨hk, rfl⟩ := hget hq
    rw [Nat.cast_succ]
    exact linePoint_succ hsx1 hdx0 hdy0 (by omega) (by omega)
  case length => rw [List.length_map, List.length_range]
  case nodup =>
    exact List.Nodup.map (fun j k h => Int.ofNat_inj.1 (linePoint_injective hsx0 hdy0 h)) List.nodup_range
  case head => simp [List.head?_range, linePoint_zero hdx0 hdy0]
  case last => simp [List.range_succ, hlast, linePoint_last hdx0 hdy0, hend]
  case error =>
    intro k x y hp
    obtain ⟨-, hpoint⟩ := hget hp
    exact linePoint_error (by omega) hdx0 hdy0 hpoint

/-! ### The image -/

/-- LINE's writes are for the canvas pixels its loop visits (R166). -/
theorem mem_lineWrites {s : State} {w : Write} :
    w ∈ lineWrites s ↔ ∃ px py, inCanvas s.config px py ∧
      (nibble s.dcl 0 ≠ 0 ∧ (px, py) ∈ linePoints (s.s32 0) (s.s32 1) (s.s32 2) (s.s32 3)) ∧
      w = .pixel (colour (nibble s.dcl 0)) px py := by
  simp only [lineWrites]
  split
  case isTrue hon =>
    simp only [List.mem_flatMap, mem_putPixelClipped]
    constructor
    · rintro ⟨p, hvisited, hp, rfl⟩; exact ⟨p.1, p.2, hp, ⟨hon, hvisited⟩, rfl⟩
    · rintro ⟨px, py, hp, ⟨-, hvisited⟩, rfl⟩; exact ⟨(px, py), hvisited, hp, rfl⟩
  case isFalse hoff =>
    exact iff_of_false List.not_mem_nil fun ⟨_, _, _, ⟨hon, _⟩, _⟩ => hoff hon

/-- Settles O29: the visited canvas pixels are LINE's writes, all in dc0's colour. -/
theorem lineDrawsItsPoints : Obligations.LineDrawsItsPoints :=
  fun s hwf => exec_draws_one_colour hwf (execLine_eq s) fun _ => mem_lineWrites

end Sys2Proof.Machine
end

section
/-! PROOFS. OVAL (42_shapes.md R161 to R165): when it draws, the symmetry of its image, and two worked images. -/

namespace Sys2Proof.Machine

/-! ### When it draws -/

/-- Under the sentinel or without a positive semi-axis OVAL has no write (R162). -/
theorem ovalWrites_eq_nil {s : State} (h : nibble s.dcl 1 = 0xF ∨ s.s32 2 < 2 ∨ s.s32 3 < 2) : ovalWrites s = [] := by
  unfold ovalWrites
  split
  case isTrue => rfl
  case isFalse hsentinel =>
    have haxes : (ovalShape s).a ≤ 0 ∨ (ovalShape s).b ≤ 0 := by
      have hsmall := h.resolve_left hsentinel
      simp only [ovalShape]
      omega
    exact if_pos haxes

/-- Otherwise its writes are the ellipse's (R161). -/
theorem ovalWrites_eq_ellipse {s : State} (hsentinel : nibble s.dcl 1 ≠ 0xF) (hwidth : 2 ≤ s.s32 2)
    (hheight : 2 ≤ s.s32 3) : ovalWrites s = ellipse s.config (ovalShape s) := by
  have haxes : ¬ ((ovalShape s).a ≤ 0 ∨ (ovalShape s).b ≤ 0) := by
    simp only [ovalShape]
    omega
  rw [ovalWrites, if_neg hsentinel, if_neg haxes]

/-- Settles O24: the guards, and `ovalShape` is the shape of the statement. -/
theorem ovalDrawsEllipse : Obligations.OvalDrawsEllipse := by
  constructor
  · intro s hguard
    rw [exec, execOval_eq, ovalWrites_eq_nil hguard, applyWrites_nil, State.setMem]
  · rintro s o hsentinel hwidth hheight rfl
    have hwrites := ovalWrites_eq_ellipse hsentinel hwidth hheight
    constructor
    · intro w hw
      exact ovalWrites_onCanvas s w (hwrites ▸ hw)
    · rw [exec, execOval_eq, hwrites]
      rfl

/-! ### Symmetry -/

section Symmetry

variable {cfg : Config} {o : OvalShape} {ws vs : List Write} {px py qx qy : Int}

/-- Two canvas pixels that mirror each other about the centre column or the centre row. -/
structure Mirrored (cfg : Config) (o : OvalShape) (px py qx qy : Int) : Prop where
  left : inCanvas cfg px py
  right : inCanvas cfg qx qy
  mirror : (qx = 2 * o.x0 - px ∧ qy = py) ∨ (qx = px ∧ qy = 2 * o.y0 - py)

/-- Writes that do to one pixel what they do to the other. -/
def PaintsAlike (ws : List Write) (px py qx qy : Int) : Prop := ∀ old, lastColour ws px py old = lastColour ws qx qy old

theorem PaintsAlike.nil : PaintsAlike [] px py qx qy := fun _ => rfl

theorem PaintsAlike.append (h : PaintsAlike ws px py qx qy) (h' : PaintsAlike vs px py qx qy) :
    PaintsAlike (ws ++ vs) px py qx qy := fun old => by rw [lastColour_append, lastColour_append, h old, h' _]

theorem ovalPoints_paintsAlike (h : Mirrored cfg o px py qx qy) (X Y : Int) :
    PaintsAlike (ovalPoints cfg o X Y) px py qx qy := by
  obtain ⟨hp, hq, hmirror⟩ := h
  intro old
  rw [lastColour_ovalPoints _ _ _ _ _ _ _ hp, lastColour_ovalPoints _ _ _ _ _ _ _ hq]
  exact if_congr (by omega) rfl rfl

/-- A span of R161 reaches as far to the left of the centre as to the right. -/
theorem ovalSpans_paintsAlike (h : Mirrored cfg o px py qx qy) {lo hi : Int} (hhi : hi = lo + 1) (Y : Int) :
    PaintsAlike (ovalSpans cfg o lo hi Y) px py qx qy := by
  obtain ⟨hp, hq, hmirror⟩ := h
  intro old
  rw [lastColour_ovalSpans _ _ _ _ _ _ _ _ hp, lastColour_ovalSpans _ _ _ _ _ _ _ _ hq]
  exact if_congr (and_congr_right fun _ => by omega) rfl rfl

theorem ovalRegion1_paintsAlike (h : Mirrored cfg o px py qx qy) (n : Nat) :
    ∀ X Y dx dy sx sy e, PaintsAlike (ovalRegion1 cfg o n X Y dx dy sx sy e) px py qx qy := by
  induction n with
  | zero => exact fun _ _ _ _ _ _ _ => .nil
  | succ n ih =>
    intro X Y dx dy sx sy e
    rw [ovalRegion1]
    split
    · refine ((ovalPoints_paintsAlike h X Y).append (ovalSpans_paintsAlike h (by omega) Y)).append ?_
      split
      · exact ih _ _ _ _ _ _ _
      · exact ih _ _ _ _ _ _ _
    · exact .nil

theorem ovalRegion2_paintsAlike (h : Mirrored cfg o px py qx qy) (n : Nat) :
    ∀ X Y dx dy sx sy e ddx, PaintsAlike (ovalRegion2 cfg o n X Y dx dy sx sy e ddx) px py qx qy := by
  induction n with
  | zero => exact fun _ _ _ _ _ _ _ _ => .nil
  | succ n ih =>
    intro X Y dx dy sx sy e ddx
    rw [ovalRegion2]
    split
    · refine (ovalPoints_paintsAlike h X Y).append ?_
      split
      · exact (ovalSpans_paintsAlike h rfl Y).append (ih _ _ _ _ _ _ _ _)
      · exact ih _ _ _ _ _ _ _ _
    · exact .nil

theorem ovalWrites_paintsAlike {s : State} (h : Mirrored s.config (ovalShape s) px py qx qy) :
    PaintsAlike (ovalWrites s) px py qx qy := by
  unfold ovalWrites
  split
  · exact .nil
  · split
    · exact .nil
    · exact (ovalRegion1_paintsAlike h _ _ _ _ _ _ _ _).append (ovalRegion2_paintsAlike h _ _ _ _ _ _ _ _ _)

end Symmetry

/-- Settles O26: every part of the loop paints mirrored pixels alike. -/
theorem ovalIsSymmetric : Obligations.OvalIsSymmetric := by
  intro s t hwf hexec px py qx qy hp hq hmirror hsame
  obtain rfl : t = s.setMem (applyWrites s.config (ovalWrites s) s.mem) := eq_of_paint_eq_next hexec
  rw [getPixel_setMem_applyWrites hwf (ovalWrites_onCanvas s) hp,
    getPixel_setMem_applyWrites hwf (ovalWrites_onCanvas s) hq, hsame]
  exact ovalWrites_paintsAlike ⟨hp, hq, hmirror⟩ _

/-! ### Two worked images -/

section Images

variable {cfg : Config} {o : OvalShape}

/-- A span that ends left of its start draws nothing. -/
theorem ovalSpans_eq_nil {lo hi : Int} (h : hi ≤ -lo) (Y : Int) : ovalSpans cfg o lo hi Y = [] := by
  have hempty : ∀ y, runClipped cfg o.fill (o.x0 - lo) y (o.x0 + hi) = [] := fun y =>
    List.eq_nil_iff_forall_not_mem.2 fun w hw => by
      obtain ⟨xx, hxx, -⟩ := mem_runClipped.1 hw
      omega
  rw [ovalSpans, hempty, hempty, List.append_nil, ite_self]

/-- The loop run by hand with semi-axes 2 and 2; its one span of region 2 is empty. -/
theorem ellipse_two_two (ha : o.a = 2) (hb : o.b = 2) : ellipse cfg o =
    ovalPoints cfg o 2 0 ++ ovalSpans cfg o 1 2 0 ++ ovalPoints cfg o 2 1 ++ ovalSpans cfg o 1 2 1 ++
      ovalPoints cfg o 0 2 ++ ovalPoints cfg o 1 2 := by
  simp [ellipse, ovalFuel1, ovalFuel2, OvalShape.aa2, OvalShape.bb2, ha, hb, ovalRegion1, ovalRegion2,
    ovalSpans_eq_nil (lo := -1) (hi := 0)]

/-- The loop run by hand with semi-axes 3 and 2; the first span of region 2 is empty, its second is filled again. -/
theorem ellipse_three_two (ha : o.a = 3) (hb : o.b = 2) : ellipse cfg o =
    ovalPoints cfg o 3 0 ++ ovalSpans cfg o 2 3 0 ++ ovalPoints cfg o 3 1 ++ ovalSpans cfg o 2 3 1 ++
      ovalPoints cfg o 0 2 ++ ovalPoints cfg o 1 2 ++ ovalPoints cfg o 2 1 ++ ovalSpans cfg o 1 2 1 := by
  simp [ellipse, ovalFuel1, ovalFuel2, OvalShape.aa2, OvalShape.bb2, ha, hb, ovalRegion1, ovalRegion2,
    ovalSpans_eq_nil (lo := -1) (hi := 0)]

variable {px py i j X Y lo hi : Int} {old : Colour}

/-- The four points of a step by the distances from the centre column and row. -/
theorem lastColour_ovalPoints_natAbs (hX : 0 ≤ X) (hY : 0 ≤ Y) (hp : inCanvas cfg px py) (hi : i = px - o.x0)
    (hj : j = py - o.y0) : lastColour (ovalPoints cfg o X Y) px py old =
      if (i.natAbs : Int) = X ∧ (j.natAbs : Int) = Y then o.stroke else old := by
  rw [lastColour_ovalPoints _ _ _ _ _ _ _ hp]
  exact if_congr (by omega) rfl rfl

/-- The two spans of a step by the distances from the centre column and row. -/
theorem lastColour_ovalSpans_natAbs (hhi : hi = lo + 1) (hY : 0 ≤ Y) (hfilled : o.filled = true)
    (hp : inCanvas cfg px py) (hi' : i = px - o.x0) (hj : j = py - o.y0) :
    lastColour (ovalSpans cfg o lo hi Y) px py old =
      if (i.natAbs : Int) ≤ lo ∧ (j.natAbs : Int) = Y then o.fill else old := by
  rw [lastColour_ovalSpans _ _ _ _ _ _ _ _ hp]
  exact if_congr ((and_iff_right hfilled).trans (by omega)) rfl rfl

/-- The 5 by 5 disc about the centre, by the distances from its column and row. -/
theorem lastColour_ellipse_two_two (ha : o.a = 2) (hb : o.b = 2) (hfilled : o.filled = true)
    (hp : inCanvas cfg px py) (hi : i = px - o.x0) (hj : j = py - o.y0) :
    lastColour (ellipse cfg o) px py old =
      if i.natAbs ≤ 2 ∧ j.natAbs ≤ 2 ∧ ¬ (i.natAbs = 2 ∧ j.natAbs = 2) then
        if i.natAbs = 2 ∨ j.natAbs = 2 then o.stroke else o.fill
      else old := by
  simp (disch := decide) only [ellipse_two_two ha hb, lastColour_append,
    lastColour_ovalPoints_natAbs _ _ hp hi hj, lastColour_ovalSpans_natAbs _ _ hfilled hp hi hj]
  clear hi hj
  generalize i.natAbs = di, j.natAbs = dj
  split_ifs
  any_goals rfl
  all_goals omega

/-- The 7 by 5 ellipse about the centre, by the distances from its column and row. -/
theorem lastColour_ellipse_three_two (ha : o.a = 3) (hb : o.b = 2) (hfilled : o.filled = true)
    (hp : inCanvas cfg px py) (hi : i = px - o.x0) (hj : j = py - o.y0) :
    lastColour (ellipse cfg o) px py old =
      if (j.natAbs = 2 ∧ i.natAbs ≤ 1) ∨ (j.natAbs = 1 ∧ (i.natAbs = 2 ∨ i.natAbs = 3)) ∨
          (j.natAbs = 0 ∧ i.natAbs = 3) then o.stroke
      else if (j.natAbs = 1 ∧ i.natAbs ≤ 1) ∨ (j.natAbs = 0 ∧ i.natAbs ≤ 2) then o.fill
      else old := by
  simp (disch := decide) only [ellipse_three_two ha hb, lastColour_append,
    lastColour_ovalPoints_natAbs _ _ hp hi hj, lastColour_ovalSpans_natAbs _ _ hfilled hp hi hj]
  clear hi hj
  generalize i.natAbs = di, j.natAbs = dj
  split_ifs
  any_goals rfl
  all_goals omega

end Images

/-- The ellipse an OVAL of even width `2 * a` and height `2 * b` names. -/
def evenOval (s : State) (a b : Int) : OvalShape where
  stroke := colour (nibble s.dcl 1)
  fill := colour (nibble s.dcl 0)
  filled := decide (enabled (nibble s.dcl 0))
  x0 := s.s32 0 + a
  y0 := s.s32 1 + b
  a := a
  b := b

theorem ovalShape_eq_evenOval {s : State} {a b : Int} (hwidth : s.s32 2 = 2 * a) (hheight : s.s32 3 = 2 * b) :
    ovalShape s = evenOval s a b := by
  have ha : s.s32 2 / 2 = a := by omega
  have hb : s.s32 3 / 2 = b := by omega
  rw [ovalShape, ha, hb, evenOval]

/-- An OVAL of even width and height completes and leaves its ellipse's image. -/
theorem exec_oval_of_even {s : State} {a b : Int} (hwf : s.config.wf = true) (hsentinel : nibble s.dcl 1 ≠ 0xF)
    (ha : 0 < a) (hb : 0 < b) (hwidth : s.s32 2 = 2 * a) (hheight : s.s32 3 = 2 * b) :
    ∃ t, exec .oval s = .next t ∧ t = { s with mem := t.mem } ∧ ∀ px py, inCanvas s.config px py →
      t.getPixel px py = lastColour (ellipse s.config (evenOval s a b)) px py (s.getPixel px py) := by
  refine ⟨_, execOval_eq s, rfl, fun px py hp => ?_⟩
  rw [getPixel_setMem_applyWrites hwf (ovalWrites_onCanvas s) hp,
    ovalWrites_eq_ellipse hsentinel (by omega) (by omega), ovalShape_eq_evenOval hwidth hheight]

/-- Settles O25: the two images, about the centre of the operands. -/
theorem ovalOfFourIsTheDisc : Obligations.OvalOfFourIsTheDisc := by
  intro s hwf hsentinel hfill
  have hfilled : decide (enabled (nibble s.dcl 0)) = true := decide_eq_true hfill
  constructor
  · intro hwidth hheight
    obtain ⟨t, hexec, hframe, himage⟩ := exec_oval_of_even (a := 2) (b := 2) hwf hsentinel (by decide) (by decide)
      (congrArg BitVec.toInt hwidth) (congrArg BitVec.toInt hheight)
    refine ⟨t, hexec, hframe, fun px py i j hp hi hj => (himage px py hp).trans ?_⟩
    refine (lastColour_ellipse_two_two rfl rfl hfilled hp (hi.trans (sub_sub ..)) (hj.trans (sub_sub ..))).trans ?_
    exact if_congr (by omega) (if_congr (by omega) rfl rfl) rfl
  · intro hwidth hheight
    obtain ⟨t, hexec, hframe, himage⟩ := exec_oval_of_even (a := 3) (b := 2) hwf hsentinel (by decide) (by decide)
      (congrArg BitVec.toInt hwidth) (congrArg BitVec.toInt hheight)
    refine ⟨t, hexec, hframe, fun px py i j hp hi hj => (himage px py hp).trans ?_⟩
    refine (lastColour_ellipse_three_two rfl rfl hfilled hp (hi.trans (sub_sub ..)) (hj.trans (sub_sub ..))).trans ?_
    exact if_congr (by omega) rfl (if_congr (by omega) rfl rfl)

end Sys2Proof.Machine
end

section
/-! PROOFS. The sprite blitter, BLIT (43_sprite.md R200 to R212): which cells a blit visits, the sample each takes, where
each lands, and the image of the command. -/

namespace Sys2Proof.Machine

/-! ### The cells -/

/-- Settles O31: each clip bound is the tighter of the rectangle's and the canvas's. -/
theorem blitClipsToTheCanvas : Obligations.BlitClipsToTheCanvas := by
  intro cfg b u v
  rw [mem_cells, Blit.columns, Blit.rows, Blit.dest]
  cases b.rot
  case false => simp only [Bool.false_eq_true, reduceIte]; omega
  case true => simp only [reduceIte]; omega

/-! ### The sample -/

section Sample

variable {b : Blit}

theorem byteOffset_of_bpp2 (h : b.bpp2 = true) (p : Int) : b.byteOffset p = p / 4 := if_pos h

theorem byteOffset_of_bpp1 (h : b.bpp2 = false) (p : Int) : b.byteOffset p = p / 8 := if_neg (by simp [h])

/-- A 2-bit sample is a digit of its byte in base 4 (R206, R207). -/
theorem toNat_index_of_bpp2 (h : b.bpp2 = true) (byte : Byte) (p : Int) :
    (b.index byte p).toNat = byte.toNat / 4 ^ (3 - (p % 4).toNat) % 4 := by
  have hshift : 6 - 2 * (p % 4).toNat = 2 * (3 - (p % 4).toNat) := by omega
  rw [Blit.index, if_pos h, BitVec.toNat_setWidth, BitVec.toNat_ushiftRight, Nat.shiftRight_eq_div_pow, hshift,
    Nat.pow_mul]

/-- A 1-bit sample is a digit of its byte in base 2 (R206, R208). -/
theorem toNat_index_of_bpp1 (h : b.bpp2 = false) (byte : Byte) (p : Int) :
    (b.index byte p).toNat = byte.toNat / 2 ^ (7 - (p % 8).toNat) % 2 := by
  rw [Blit.index, if_neg (by simp [h]), BitVec.toNat_setWidth_of_le (by decide), BitVec.toNat_setWidth,
    BitVec.toNat_ushiftRight, Nat.shiftRight_eq_div_pow, Nat.pow_one]

/-- The sample at either depth. -/
theorem toNat_index (byte : Byte) (p : Int) : (b.index byte p).toNat =
    if b.bpp2 then byte.toNat / 4 ^ (3 - (p % 4).toNat) % 4 else byte.toNat / 2 ^ (7 - (p % 8).toNat) % 2 := by
  split
  case isTrue h => exact toNat_index_of_bpp2 h byte p
  case isFalse h => exact toNat_index_of_bpp1 (Bool.eq_false_iff.2 h) byte p

end Sample

/-- Settles O32: the offset and the digit of each depth. -/
theorem samplesAreMsbFirst : Obligations.SamplesAreMsbFirst := fun _ byte p =>
  ⟨fun h => ⟨byteOffset_of_bpp2 h p, toNat_index_of_bpp2 h byte p⟩,
    fun h => ⟨byteOffset_of_bpp1 h p, toNat_index_of_bpp1 h byte p⟩⟩

/-! ### Each pixel once -/

/-- The pixels a blit writes, in order, are among the destinations of its cells, in order: a cell has one write or
none. -/
theorem blitLoop_pixels_sublist {draw : Nat → Byte} {cfg : Config} {m : Memory} {dcl : DrawColours} {b : Blit}
    {pixel : Write → Int × Int} (hpixel : ∀ c x y, pixel (.pixel c x y) = (x, y)) (cs : List (Int × Int)) (d : Nat) :
    ((blitLoop draw cfg m dcl b cs d).1.map pixel).Sublist (cs.map fun cell => b.dest cell.1 cell.2) := by
  induction cs generalizing d with
  | nil => exact List.Sublist.slnil
  | cons cell cs ih =>
    obtain ⟨u, v⟩ := cell
    rw [blitLoop, List.map_append, List.map_cons, Blit.plot]
    dsimp only
    split
    case isTrue => rw [List.map_singleton, hpixel]; exact (ih _).cons_cons _
    case isFalse => exact (ih _).cons _

/-- Settles O33: no cell is visited twice, and no two cells have one destination. -/
theorem blitWritesEachPixelOnce : Obligations.BlitWritesEachPixelOnce := by
  intro draw cfg m dcl b d
  refine (blitLoop_pixels_sublist (fun _ _ _ => rfl) (b.cells cfg) d).nodup ?_
  exact (cells_nodup cfg b).map fun _ _ h => Prod.ext_iff.2 (dest_inj h)

/-! ### Mirror and rotation -/

/-- On a whole axis the three readings of the mirror agree (R205). -/
theorem mirror_of_unclipped (fm : FlipMirror) (size u : Int) : mirror fm 0 size size u = size - 1 - u := by
  cases fm
  case clipRange => rw [mirror, zero_add]
  case clipMax => rfl
  case full => rfl

/-- The local columns of a rotated blit whose destination rows are all on the canvas (R202). -/
theorem columns_of_rot_unclipped {cfg : Config} {b : Blit} (hrot : b.rot = true) (htop : 0 ≤ b.dstY)
    (hbottom : b.dstY + b.width ≤ cfg.height) : b.columns cfg = (0, b.width) := by
  rw [Blit.columns, if_pos hrot, max_eq_right htop, sub_self, min_eq_left (by omega)]

theorem row_of_not_flipY {cfg : Config} {b : Blit} (h : b.flipY = false) (v : Int) : b.row cfg v = v :=
  if_neg (by simp [h])

theorem dest_of_rot {b : Blit} (h : b.rot = true) (u v : Int) : b.dest u v = (b.dstX + v, b.dstY + u) := by
  rw [Blit.dest, if_pos h, if_pos h]

/-- Settles O34: sprite row r is local row r, and sprite column c is the local column that the mirror of `flipX xor rot`
takes to it. -/
theorem rotationGeometry : Obligations.RotationGeometry := by
  intro cfg b c r hrot hflipY hc0 hc1 hr0 hr1 hleft hright htop hbottom
  have hcell : ∀ u, 0 ≤ u → u < b.width → (u, r) ∈ b.cells cfg := fun u hu0 hu1 => by
    rw [blitClipsToTheCanvas, dest_of_rot hrot]
    omega
  constructor
  · intro hflipX
    refine ⟨b.width - 1 - c, r, hcell _ (by omega) (by omega), ?_, row_of_not_flipY hflipY r, ?_⟩
    · have hmirrored : (b.flipX ^^ b.rot) = true := by rw [hflipX, hrot]; rfl
      rw [Blit.col, if_pos hmirrored, columns_of_rot_unclipped hrot htop hbottom, mirror_of_unclipped, sub_sub_cancel]
    · rw [dest_of_rot hrot, Prod.mk.injEq]
      exact ⟨rfl, by omega⟩
  · intro hflipX
    have hplain : ¬ (b.flipX ^^ b.rot) = true := by rw [hflipX, hrot]; decide
    exact ⟨c, r, hcell _ hc0 hc1, if_neg hplain, row_of_not_flipY hflipY r, dest_of_rot hrot c r⟩

/-! ### The image -/

/-- A canvas pixel after a command of point writes holds the colour of the last of its writes to it. -/
theorem getPixel_of_exec {i : Instr} {s t : State} {px py : Int} (hwf : s.config.wf = true) (hi : i ≠ .clear)
    (h : exec i s = .next t) (hp : inCanvas s.config px py) :
    t.getPixel px py = lastColour (writesOf i s) px py (s.getPixel px py) := by
  rw [(exec_cases h).1]
  exact pixelAt_applyWrites hwf (writesWith_onCanvas Config.draw hi s) s.mem hp

section Image

variable {draw : Nat → Byte} {cfg : Config} {m : Memory} {dcl : DrawColours} {b : Blit} {d : Nat} {old : Colour}

/-- A pixel outside a blit's rectangle, whose sides `rot` exchanges, keeps its colour (R201, R202). -/
theorem lastColour_blitBody_of_outside {px py : Int}
    (h : ¬ (b.dstX ≤ px ∧ px < b.dstX + (if b.rot then b.height else b.width) ∧
      b.dstY ≤ py ∧ py < b.dstY + (if b.rot then b.width else b.height))) :
    lastColour (blitBody draw cfg m dcl b d).1 px py old = old := by
  refine lastColour_blitLoop_of_not_dest fun u v hcell hdest => h ?_
  obtain ⟨hu0, hu1, hv0, hv1, -⟩ := (blitClipsToTheCanvas cfg b u v).1 hcell
  rw [Blit.dest, Prod.mk.injEq] at hdest
  obtain ⟨rfl, rfl⟩ := hdest
  cases b.rot
  case false => simp only [Bool.false_eq_true, reduceIte]; omega
  case true => simp only [reduceIte]; omega

/-- A canvas pixel of the rectangle takes the colour its sample selects (R209). -/
theorem lastColour_blitBody_of_cell {u v px py p : Int} {byte : Byte} (hu : 0 ≤ u ∧ u < b.width)
    (hv : 0 ≤ v ∧ v < b.height) (hdest : b.dest u v = (px, py)) (hp : inCanvas cfg px py)
    (hlinear : b.linear cfg u v = p) (hbyte : sourceByte? cfg m b.src (b.byteOffset p) = some byte) :
    lastColour (blitBody draw cfg m dcl b d).1 px py old =
      if nibble dcl (b.index byte p).toNat ≠ 0 then colour (nibble dcl (b.index byte p).toNat) else old := by
  obtain ⟨rfl, rfl⟩ := Prod.ext_iff.1 hdest
  subst hlinear
  have hcell := (blitClipsToTheCanvas cfg b u v).2 ⟨hu.1, hu.2, hv.1, hv.2, hp⟩
  exact lastColour_blitLoop_dest (cells_nodup cfg b) hcell hbyte

end Image

/-- The clip range of the columns, bound by bound (R201, R202). -/
theorem columns_eq (cfg : Config) (b : Blit) : b.columns cfg =
    (if b.rot then max 0 b.dstY - b.dstY else max 0 b.dstX - b.dstX,
      if b.rot then min b.width (cfg.height - b.dstY) else min b.width (cfg.width - b.dstX)) := by
  rw [Blit.columns]
  split
  case isTrue => rfl
  case isFalse => rfl

/-- The clip range of the rows, bound by bound (R201, R202). -/
theorem rows_eq (cfg : Config) (b : Blit) : b.rows cfg =
    (if b.rot then max 0 b.dstX - b.dstX else max 0 b.dstY - b.dstY,
      if b.rot then min b.height (cfg.width - b.dstX) else min b.height (cfg.height - b.dstY)) := by
  rw [Blit.rows]
  split
  case isTrue => rfl
  case isFalse => rfl

/-- The column is mirrored when `flipX` and `rot` differ (R203). -/
theorem col_eq (cfg : Config) (b : Blit) (u : Int) : b.col cfg u =
    if b.flipX = b.rot then u
    else mirror cfg.flipMirror (b.columns cfg).1 (b.columns cfg).2 b.width u := by
  rw [Blit.col]
  cases b.flipX
  case false => cases b.rot; all_goals rfl
  case true => cases b.rot; all_goals rfl

/-- The pixel an enabled or a disabled nibble leaves (R209; 41_draw_color.md R141, R142), by the nibble's value. -/
theorem toNat_colour_or_kept {n : Nibble} {value : Nat} {c old : Colour} (hvalue : value = n.toNat)
    (hc : c = if n ≠ 0 then colour n else old) :
    (value = 0 → c = old) ∧ (value ≠ 0 → c.toNat = (value - 1) % 4) := by
  have hzero : value = 0 ↔ n = 0 := by rw [hvalue, BitVec.toNat_eq]; rfl
  subst hc
  constructor
  · intro h
    rw [if_neg (not_not.2 (hzero.1 h))]
  · intro h
    have hon : n ≠ 0 := fun hn => h (hzero.2 hn)
    rw [if_pos hon, toNat_colour hon, hvalue]

/-- Settles O30: outside the rectangle no cell lands, and inside it the sample of the pixel's cell decides; the clip
bounds, the mirrors and the digits are those of the statement. -/
theorem blitSamplesTheSprite : Obligations.BlitSamplesTheSprite := by
  rintro bpp2 flipX flipY rot s _ _ _ _ _ _ _ _ _ hwf rfl rfl rfl rfl rfl rfl rfl rfl rfl
  have hexec : exec (.blit bpp2 flipX flipY rot) s = _ := execBlit_eq bpp2 flipX flipY rot s
  have himage := fun {px py} => getPixel_of_exec (px := px) (py := py) hwf Instr.noConfusion hexec
  refine ⟨_, hexec, rfl, fun a => exec_readByte_of_not_inStorage hwf hexec, fun px py hp hout => ?outside, ?cell⟩
  case outside =>
    rw [himage hp]
    exact lastColour_blitBody_of_outside (b := blitOf bpp2 flipX flipY rot s) hout
  case cell =>
    rintro u v tx ty _ _ _ _ col row p k byte idx nib hu0 hu1 hv0 hv1 htx hty hp rfl rfl rfl rfl hcol hrow hlinear hk
      hk0 hklen hkmem hkstorage hbyte hidx hnib
    have hcol' : (blitOf bpp2 flipX flipY rot s).col s.config u = col := by rw [hcol, col_eq, columns_eq]; rfl
    have hrow' : (blitOf bpp2 flipX flipY rot s).row s.config v = row := by rw [hrow, Blit.row, rows_eq]; rfl
    have hlinear' : (blitOf bpp2 flipX flipY rot s).linear s.config u v = p := by
      rw [hlinear, Blit.linear, hcol', hrow']; rfl
    have hoffset : (blitOf bpp2 flipX flipY rot s).byteOffset p = k := hk.symm
    have hidx' : idx = ((blitOf bpp2 flipX flipY rot s).index byte p).toNat := by rw [hidx, toNat_index]; rfl
    have hsource : sourceByte? s.config s.mem (.mem s.larg[0].toNat s.larg[1].toNat) k = some byte := by
      rw [hbyte]; exact sourceByte?_mem_of_reads ⟨hk0, hklen, hkmem, hkstorage⟩
    refine toNat_colour_or_kept (n := nibble s.dcl idx) (hnib.trans (toNat_nibble s.dcl idx).symm) ?_
    rw [hidx', himage hp]
    refine lastColour_blitBody_of_cell ⟨hu0, hu1⟩ ⟨hv0, hv1⟩ ?_ hp hlinear' (by rw [hoffset]; exact hsource)
    rw [htx, hty]; rfl

end Sys2Proof.Machine
end

section
/-! PROOFS. TEXT (43_sprite.md R213 to R217): what one code does to the loop, the codes 0 and 10, and the row of glyphs
it draws. -/

namespace Sys2Proof.Machine

/-! ### One plan after another -/

/-- Writes and draws of one part of a command, then those of the next part, which goes on from the count of draws. -/
def planThen (first : List Write × Nat) (rest : Nat → List Write × Nat) : List Write × Nat :=
  (first.1 ++ (rest first.2).1, (rest first.2).2)

theorem planThen_assoc (first : List Write × Nat) (second third : Nat → List Write × Nat) :
    planThen (planThen first second) third = planThen first fun d => planThen (second d) third :=
  Prod.ext (List.append_assoc ..) rfl

theorem lastColour_planThen (first : List Write × Nat) (rest : Nat → List Write × Nat) (px py : Int) (old : Colour) :
    lastColour (planThen first rest).1 px py old =
      lastColour (rest first.2).1 px py (lastColour first.1 px py old) := lastColour_append ..

/-! ### The codes of a string -/

/-- Code `k` of the string, read from memory, is a glyph's: neither 0 nor 10 (R214). -/
structure GlyphCode (cfg : Config) (m : Memory) (ptr len k : Nat) (code : Byte) : Prop where
  read : sourceByte? cfg m (.mem ptr len) k = some code
  ne_zero : code ≠ 0
  ne_newline : code ≠ 10

/-- Part of a string, read where memory is the same but for the pixel storage, has the string's codes. -/
theorem sourceByte?_substring {cfg : Config} {m m' : Memory} {ptr a len len' k : Nat} (hlen : a + len' ≤ len)
    (hk : k < len') (hm : ∀ a, ¬ inStorage cfg a → memRead m' a = memRead m a) :
    sourceByte? cfg m' (.mem (ptr + a) len') k = sourceByte? cfg m (.mem ptr len) (a + k : Nat) := by
  simp only [sourceByte?, Int.toNat_natCast, Nat.add_assoc]
  by_cases haddr : ptr + (a + k) < cfg.memSize ∧ ¬ inStorage cfg (ptr + (a + k))
  · rw [if_pos ⟨by omega, by omega, haddr⟩, if_pos ⟨by omega, by omega, haddr⟩, hm _ haddr.2]
  · rw [if_neg fun h => haddr h.2.2, if_neg fun h => haddr h.2.2]

theorem srcByte_congr {draw : Nat → Byte} {cfg : Config} {m m' : Memory} {src src' : Source} {k k' : Int}
    (h : sourceByte? cfg m' src' k' = sourceByte? cfg m src k) (d : Nat) :
    srcByte draw cfg m' src' k' d = srcByte draw cfg m src k d := by
  rw [srcByte, h, srcByte]

/-! ### The loop, code by code -/

section Loop

variable {draw : Nat → Byte} {cfg : Config} {m : Memory} {dcl : DrawColours} {ptr len : Nat} {x : Int}
  {n i : Nat} {cx cy : Int} {d : Nat}

/-- Code 0 ends the string (R214). -/
theorem textLoop_of_zero (h : sourceByte? cfg m (.mem ptr len) i = some 0) :
    textLoop draw cfg m dcl ptr len x n i cx cy d = ([], d) := by
  cases n with
  | zero => rfl
  | succ n => rw [textLoop, srcByte_of_eq_some h]; rfl

/-- Code 10 moves the cursor to the starting column of the next line (R214). -/
theorem textLoop_of_newline (h : sourceByte? cfg m (.mem ptr len) i = some 10) :
    textLoop draw cfg m dcl ptr len x (n + 1) i cx cy d =
      textLoop draw cfg m dcl ptr len x n (i + 1) x (cy + 8) d := by
  rw [textLoop, srcByte_of_eq_some h]; rfl

/-- Any other code draws its glyph and moves the cursor past it (R213). -/
theorem textLoop_of_glyph {code : Byte} (h : GlyphCode cfg m ptr len i code) :
    textLoop draw cfg m dcl ptr len x (n + 1) i cx cy d =
      planThen (blitBody draw cfg m dcl (glyphBlit code cx cy) d)
        (textLoop draw cfg m dcl ptr len x n (i + 1) (cx + 8) cy) := by
  rw [textLoop, srcByte_of_eq_some h.read]
  exact (if_neg h.ne_zero).trans (if_neg h.ne_newline)

/-- The loop depends on memory, and on where the string stands in it, only through the codes it may come to. -/
theorem textLoop_congr_codes {m' : Memory} {ptr' len' i' : Nat} (h : ∀ k, k < n →
      sourceByte? cfg m' (.mem ptr' len') (i' + k : Nat) = sourceByte? cfg m (.mem ptr len) (i + k : Nat)) :
    textLoop draw cfg m' dcl ptr' len' x n i' cx cy d = textLoop draw cfg m dcl ptr len x n i cx cy d := by
  induction n generalizing i i' cx cy d with
  | zero => rfl
  | succ n ih =>
    have hcode : srcByte draw cfg m' (.mem ptr' len') i' d = srcByte draw cfg m (.mem ptr len) i d :=
      srcByte_congr (h 0 n.succ_pos) d
    have hglyph : ∀ code cx cy d, blitBody draw cfg m' dcl (glyphBlit code cx cy) d =
        blitBody draw cfg m dcl (glyphBlit code cx cy) d := fun _ _ _ d => blitBody_congr d fun _ => rfl
    have hrest : ∀ cx cy d, textLoop draw cfg m' dcl ptr' len' x n (i' + 1) cx cy d =
        textLoop draw cfg m dcl ptr len x n (i + 1) cx cy d := fun cx cy d => ih fun k hk => by
      rw [Nat.add_assoc, Nat.add_assoc, Nat.add_comm 1 k]
      exact h (k + 1) (Nat.succ_lt_succ hk)
    simp only [textLoop, hcode, hglyph, hrest]

/-- Nothing after a code 0 is looked at, whatever the codes before it are. -/
theorem textLoop_add_of_zero {j : Nat} (hj : j = i + n) (h : sourceByte? cfg m (.mem ptr len) j = some 0) (r : Nat) :
    textLoop draw cfg m dcl ptr len x (n + r) i cx cy d = textLoop draw cfg m dcl ptr len x n i cx cy d := by
  induction n generalizing i cx cy d with
  | zero =>
    subst hj
    rw [textLoop_of_zero h, textLoop]
  | succ n ih =>
    have hrest := fun cx cy d => ih (i := i + 1) (cx := cx) (cy := cy) (d := d) (by omega)
    rw [Nat.add_right_comm]
    simp only [textLoop, hrest]

/-- A stretch of glyphs is drawn in one row, and the loop goes on from the cursor it leaves (R213). -/
theorem textLoop_add_of_glyphs (h : ∀ k, i ≤ k → k < i + n → ∃ code, GlyphCode cfg m ptr len k code) (r : Nat) :
    textLoop draw cfg m dcl ptr len x (n + r) i cx cy d =
      planThen (textLoop draw cfg m dcl ptr len x n i cx cy d)
        (textLoop draw cfg m dcl ptr len x r (i + n) (cx + 8 * n) cy) := by
  induction n generalizing i cx d with
  | zero => simp [textLoop, planThen]
  | succ n ih =>
    obtain ⟨code, hcode⟩ := h i le_rfl (by omega)
    have hcursor : cx + 8 * ((n + 1 : Nat) : Int) = cx + 8 + 8 * n := by omega
    have hrest := fun d => ih (i := i + 1) (cx := cx + 8) (d := d) fun k hk hkn => h k (by omega) (by omega)
    rw [Nat.add_right_comm, textLoop_of_glyph hcode, textLoop_of_glyph hcode, planThen_assoc, hcursor,
      ← Nat.add_assoc, Nat.add_right_comm i]
    exact congrArg (planThen _) (funext hrest)

end Loop

/-! ### The codes 0 and 10 -/

section Codes

variable {draw : Nat → Byte} {s : State} {j : Nat}

/-- TEXT of the first j codes of a string runs the whole string's loop for j codes. -/
theorem textPlan_of_first_codes {s' : State} (hj : j ≤ s.u32 1)
    (hs' : s' = { s with larg := s.larg.set 1 (BitVec.ofNat 32 j) }) : textPlan draw s' =
      textLoop draw s.config s.mem s.dcl (s.u32 0) (s.u32 1) (s.s32 2) j 0 (s.s32 2) (s.s32 3) s.draws := by
  have hlen : (BitVec.ofNat 32 j).toNat = j := by
    rw [BitVec.toNat_ofNat]; exact Nat.mod_eq_of_lt (hj.trans_lt s.larg[1].isLt)
  have hplan : textPlan draw s' =
      textLoop draw s.config s.mem s.dcl (s.u32 0) j (s.s32 2) j 0 (s.s32 2) (s.s32 3) s.draws := by
    simp [hs', textPlan, State.u32, State.s32, hlen]
  rw [hplan]
  refine textLoop_congr_codes fun k hk => ?_
  have hcode := sourceByte?_substring (cfg := s.config) (m := s.mem) (ptr := s.u32 0) ((Nat.zero_add j).trans_le hj) hk
    fun _ _ => rfl
  rw [Nat.zero_add] at hcode ⊢
  exact hcode

/-- TEXT of a string with the code 0 at j runs its loop for j codes (R214). -/
theorem textPlan_of_zero (hj : j ≤ s.u32 1)
    (h : sourceByte? s.config s.mem (.mem (s.u32 0) (s.u32 1)) j = some 0) : textPlan draw s =
      textLoop draw s.config s.mem s.dcl (s.u32 0) (s.u32 1) (s.s32 2) j 0 (s.s32 2) (s.s32 3) s.draws := by
  obtain ⟨r, hr⟩ := Nat.exists_eq_add_of_le hj
  rw [← textLoop_add_of_zero (Nat.zero_add j).symm h r, ← hr]
  rfl

/-- TEXT of a string with glyphs before a code 10 at j runs its loop for j codes, and then from the next line's start
for the codes after the newline (R213, R214). -/
theorem textPlan_of_newline {r : Nat} (hr : s.u32 1 = j + (r + 1))
    (hglyphs : ∀ k, k < j → ∃ code, GlyphCode s.config s.mem (s.u32 0) (s.u32 1) k code)
    (h : sourceByte? s.config s.mem (.mem (s.u32 0) (s.u32 1)) j = some 10) : textPlan draw s =
      planThen (textLoop draw s.config s.mem s.dcl (s.u32 0) (s.u32 1) (s.s32 2) j 0 (s.s32 2) (s.s32 3) s.draws)
        (textLoop draw s.config s.mem s.dcl (s.u32 0) (s.u32 1) (s.s32 2) r (j + 1) (s.s32 2) (s.s32 3 + 8)) := by
  have hrow : ∀ k, 0 ≤ k → k < 0 + j → ∃ code, GlyphCode s.config s.mem (s.u32 0) (s.u32 1) k code :=
    fun k _ hk => hglyphs k (by omega)
  have hplan := textLoop_add_of_glyphs (draw := draw) (dcl := s.dcl) (x := s.s32 2) (cx := s.s32 2) (cy := s.s32 3)
    (d := s.draws) hrow (r + 1)
  rw [← hr, Nat.zero_add] at hplan
  exact hplan.trans (congrArg (planThen _) (funext fun _ => textLoop_of_newline h))

/-- TEXT of the last r codes of a string, in a state with the string's codes, runs the string's loop from there. -/
theorem textPlan_of_last_codes {s' : State} {r : Nat} (hr : s.u32 1 = j + r) (hconfig : s'.config = s.config)
    (hdcl : s'.dcl = s.dcl) (hcodes : ∀ a, ¬ inStorage s.config a → s'.readByte a = s.readByte a)
    (hptr : s'.u32 0 = s.u32 0 + j) (hlen : s'.u32 1 = r) : textPlan draw s' =
      textLoop draw s.config s.mem s.dcl (s.u32 0) (s.u32 1) (s'.s32 2) r j (s'.s32 2) (s'.s32 3) s'.draws := by
  rw [textPlan, hconfig, hdcl, hptr, hlen]
  refine textLoop_congr_codes fun k hk => ?_
  rw [Nat.zero_add]
  exact sourceByte?_substring hr.ge hk hcodes

end Codes

/-- Settles O36: both runs are the loop up to the code 0. -/
theorem textStopsAtZero : Obligations.TextStopsAtZero := by
  intro s s' j hj hzero hs'
  refine ⟨_, _, execText_eq s, execText_eq s', ?_⟩
  rw [textPlan_of_zero hj.le hzero, textPlan_of_first_codes hj.le hs', hs']

/-- Settles O37: the first TEXT runs the loop to the newline, and leaves the codes after it as they were, so the second
runs the loop's rest. -/
theorem textNewlineStartsNextLine : Obligations.TextNewlineStartsNextLine := by
  intro s s1 s2 j hwf hj hcodes hnewline hs1
  have hglyphs : ∀ k, k < j → ∃ code, GlyphCode s.config s.mem (s.u32 0) (s.u32 1) k code := fun k hk => by
    obtain ⟨code, hread, hzero, hnotNewline⟩ := hcodes k hk
    exact ⟨code, hread, hzero, hnotNewline⟩
  obtain ⟨t1, ht1, hfirst⟩ : ∃ t1 : State, t1 = _ ∧ exec .text s1 = .next t1 := ⟨_, rfl, execText_eq s1⟩
  refine ⟨t1, hfirst, fun hs2 hptr hlen hx hy => ⟨_, execText_eq s2, (execText_eq s).trans ?_⟩⟩
  have hlen' : s2.u32 1 + j + 1 = s.u32 1 := hlen
  have hx' : s2.s32 2 = s.s32 2 := congrArg BitVec.toInt hx
  have hy' : s2.s32 3 = s.s32 3 + 8 := hy
  have hconfig : s2.config = s.config := by rw [hs2, ht1, hs1]
  have hdcl : s2.dcl = s.dcl := by rw [hs2, ht1, hs1]
  have hcodes' : ∀ a, ¬ inStorage s.config a → s2.readByte a = s.readByte a := fun a ha => by
    calc s2.readByte a = t1.readByte a := by rw [hs2]; rfl
      _ = s1.readByte a := exec_readByte_of_not_inStorage (by rw [hs1]; exact hwf) hfirst (by rw [hs1]; exact ha)
      _ = s.readByte a := by rw [hs1]; rfl
  have hrest := textPlan_of_last_codes (draw := Config.draw) (j := j + 1) (by omega) hconfig hdcl hcodes' hptr rfl
  rw [textPlan_of_first_codes hj.le hs1] at ht1
  rw [textPlan_of_newline (r := s2.u32 1) (by omega) hglyphs hnewline, hrest, hx', hy', planThen, applyWrites_append,
    hs2, ht1, hs1]

/-! ### A row of glyphs -/

section Row

variable {draw : Nat → Byte} {cfg : Config} {m : Memory} {dcl : DrawColours} {ptr len : Nat} {x : Int}
  {code : Byte} {n i d : Nat} {cx cy px py : Int} {old : Colour}

/-- The font holds the code's glyph, eight bytes from `8 * (code - 32)` (R215). -/
structure InFont (cfg : Config) (code : Byte) : Prop where
  first : 32 ≤ code.toNat
  last : 8 * (code.toNat - 32) + 8 ≤ cfg.fontLen

/-- A blit whose cells all find their source byte takes no draws. -/
theorem blitLoop_draws {b : Blit} {cs : List (Int × Int)} (h : ∀ u v, (u, v) ∈ cs →
      ∃ byte, sourceByte? cfg m b.src (b.byteOffset (b.linear cfg u v)) = some byte) :
    (blitLoop draw cfg m dcl b cs d).2 = d := by
  induction cs generalizing d with
  | nil => rfl
  | cons cell cs ih =>
    obtain ⟨byte, hbyte⟩ := h cell.1 cell.2 List.mem_cons_self
    rw [blitLoop, srcByte_of_eq_some hbyte]
    exact ih fun u v hcell => h u v (List.mem_cons_of_mem _ hcell)

/-- Row v of a glyph is one byte of the font, and column u its bit `7 - u` (R215). -/
theorem glyph_linear (hcode : 32 ≤ code.toNat) (u v : Int) :
    (glyphBlit code cx cy).linear cfg u v = 8 * (8 * (code.toNat - 32 : Nat) + v) + u := by
  have hlinear : (glyphBlit code cx cy).linear cfg u v = (((code.toNat : Int) - 32) * 8 + v) * 8 + (0 + u) := rfl
  omega

/-- The source byte of a glyph's cell. -/
theorem glyph_sourceByte? (hcode : InFont cfg code) {u v : Int} (hu : 0 ≤ u ∧ u < 8) (hv : 0 ≤ v ∧ v < 8) :
    sourceByte? cfg m (glyphBlit code cx cy).src
        ((glyphBlit code cx cy).byteOffset ((glyphBlit code cx cy).linear cfg u v)) =
      cfg.font[8 * (code.toNat - 32) + v.toNat]? := by
  obtain ⟨hfirst, hlast⟩ := hcode
  have hoffset : (glyphBlit code cx cy).byteOffset ((glyphBlit code cx cy).linear cfg u v) =
      (8 * (code.toNat - 32) + v.toNat : Nat) := by
    rw [byteOffset_of_bpp1 rfl, glyph_linear hfirst]
    omega
  rw [hoffset]
  exact sourceByte?_font_of_inside (by omega) (by omega)

/-- A glyph in the font takes no draws. -/
theorem glyph_draws (hwf : cfg.wf = true) (hcode : InFont cfg code) :
    (blitBody draw cfg m dcl (glyphBlit code cx cy) d).2 = d := by
  obtain ⟨-, -, -, -, -, -, hfont⟩ := (Config.wf_iff cfg).1 hwf
  refine blitLoop_draws fun u v hcell => ?_
  obtain ⟨hu0, hu1, hv0, hv1, -⟩ := (blitClipsToTheCanvas cfg _ u v).1 hcell
  have hu8 : u < 8 := hu1
  have hv8 : v < 8 := hv1
  have hlast := hcode.last
  rw [glyph_sourceByte? hcode ⟨hu0, hu8⟩ ⟨hv0, hv8⟩]
  exact ⟨_, List.getElem?_eq_getElem (by omega)⟩

/-- A pixel outside a glyph's 8 by 8 square keeps its colour. -/
theorem lastColour_glyph_of_outside (h : ¬ (cx ≤ px ∧ px < cx + 8 ∧ cy ≤ py ∧ py < cy + 8)) :
    lastColour (blitBody draw cfg m dcl (glyphBlit code cx cy) d).1 px py old = old :=
  lastColour_blitBody_of_outside (b := glyphBlit code cx cy) h

/-- A pixel of a glyph takes dc0 or dc1 by its bit of the font (R215). -/
theorem lastColour_glyph_of_bit (hcode : InFont cfg code) {c r : Nat} {row : Byte} (hc : c < 8) (hr : r < 8)
    (hx : px = cx + c) (hy : py = cy + r) (hp : inCanvas cfg px py)
    (hrow : cfg.font[8 * (code.toNat - 32) + r]? = some row) :
    lastColour (blitBody draw cfg m dcl (glyphBlit code cx cy) d).1 px py old =
      if nibble dcl (if row.getLsbD (7 - c) then 1 else 0) ≠ 0
      then colour (nibble dcl (if row.getLsbD (7 - c) then 1 else 0)) else old := by
  have hindex : ((glyphBlit code cx cy).index row ((glyphBlit code cx cy).linear cfg c r)).toNat =
      if row.getLsbD (7 - c) then 1 else 0 := by
    have hbit : (((glyphBlit code cx cy).linear cfg c r) % 8).toNat = c := by
      rw [glyph_linear hcode.first]
      omega
    rw [toNat_index_of_bpp1 rfl, hbit, BitVec.getLsbD, Nat.testBit_eq_decide_div_mod_eq]
    simp only [decide_eq_true_eq]
    split
    case isTrue hone => exact hone
    case isFalse hzero => exact (Nat.mod_two_eq_zero_or_one _).resolve_right hzero
  have hu : 0 ≤ (c : Int) ∧ (c : Int) < 8 := by omega
  have hv : 0 ≤ (r : Int) ∧ (r : Int) < 8 := by omega
  have hbyte := (glyph_sourceByte? (m := m) (cx := cx) (cy := cy) hcode hu hv).trans hrow
  rw [← hindex]
  exact lastColour_blitBody_of_cell (b := glyphBlit code cx cy) hu hv (by rw [hx, hy]; rfl) hp rfl hbyte

/-- A row of glyphs in the font takes no draws. -/
theorem textLoop_draws (hwf : cfg.wf = true)
    (h : ∀ k, i ≤ k → k < i + n → ∃ code, GlyphCode cfg m ptr len k code ∧ InFont cfg code) :
    (textLoop draw cfg m dcl ptr len x n i cx cy d).2 = d := by
  induction n generalizing i cx d with
  | zero => rfl
  | succ n ih =>
    obtain ⟨code, hglyph, hfont⟩ := h i le_rfl (by omega)
    rw [textLoop_of_glyph hglyph, planThen, ih fun k hk hkn => h k (by omega) (by omega), glyph_draws hwf hfont]

/-- A pixel outside a row of n glyphs, 8 n by 8 pixels, keeps its colour. -/
theorem lastColour_row_of_outside (h : ∀ k, i ≤ k → k < i + n → ∃ code, GlyphCode cfg m ptr len k code)
    (hout : ¬ (cx ≤ px ∧ px < cx + 8 * n ∧ cy ≤ py ∧ py < cy + 8)) :
    lastColour (textLoop draw cfg m dcl ptr len x n i cx cy d).1 px py old = old := by
  induction n generalizing i cx d old with
  | zero => rfl
  | succ n ih =>
    obtain ⟨code, hglyph⟩ := h i le_rfl (by omega)
    rw [textLoop_of_glyph hglyph, lastColour_planThen,
      ih (fun k hk hkn => h k (by omega) (by omega)) (by omega), lastColour_glyph_of_outside (by omega)]

/-- A pixel of glyph k of a row takes the colour of its bit: what is drawn before and after lies beside its square. -/
theorem lastColour_row_of_bit (h : ∀ k, i ≤ k → k < i + n → ∃ code, GlyphCode cfg m ptr len k code) {k : Nat}
    (hk : k < n) (hglyph : GlyphCode cfg m ptr len (i + k) code) (hcode : InFont cfg code) {c r : Nat} {row : Byte}
    (hc : c < 8) (hr : r < 8) (hx : px = cx + 8 * k + c) (hy : py = cy + r) (hp : inCanvas cfg px py)
    (hrow : cfg.font[8 * (code.toNat - 32) + r]? = some row) :
    lastColour (textLoop draw cfg m dcl ptr len x n i cx cy d).1 px py old =
      if nibble dcl (if row.getLsbD (7 - c) then 1 else 0) ≠ 0
      then colour (nibble dcl (if row.getLsbD (7 - c) then 1 else 0)) else old := by
  obtain ⟨after, rfl⟩ : ∃ after, n = k + (after + 1) := ⟨n - k - 1, by omega⟩
  rw [textLoop_add_of_glyphs fun j hj hjk => h j hj (by omega), lastColour_planThen, textLoop_of_glyph hglyph,
    lastColour_planThen, lastColour_row_of_outside (n := k) (fun j hj hjk => h j hj (by omega)) (by omega),
    lastColour_row_of_outside (n := after) (fun j hj hjr => h j (by omega) (by omega)) (by omega)]
  exact lastColour_glyph_of_bit hcode hc hr hx hy hp hrow

end Row

/-- Settles O35: TEXT's writes are one row of glyphs, beside which it has none. -/
theorem textDrawsRowOfGlyphs : Obligations.TextDrawsRowOfGlyphs := by
  intro s codes hwf hlength hcodes
  have hlen : codes.length = s.u32 1 := hlength
  have hcode : ∀ (k : Nat) (code : Byte), codes[k]? = some code →
      GlyphCode s.config s.mem (s.u32 0) (s.u32 1) k code ∧ InFont s.config code := fun k code hk => by
    obtain ⟨hread, hzero, hnewline, hfirst, hlast⟩ := hcodes k code hk
    exact ⟨⟨hread, hzero, hnewline⟩, hfirst, hlast⟩
  have hrow : ∀ k, 0 ≤ k → k < 0 + s.u32 1 →
      ∃ code, GlyphCode s.config s.mem (s.u32 0) (s.u32 1) k code ∧ InFont s.config code := fun k _ hk =>
    ⟨codes[k]'(by omega), hcode k _ (List.getElem?_eq_getElem _)⟩
  have hglyphs := fun k h0 hk => (hrow k h0 hk).imp fun _ h => h.1
  have hexec := execText_eq s
  have hdraws : (textPlan Config.draw s).2 = s.draws := textLoop_draws hwf hrow
  rw [hdraws] at hexec
  refine ⟨_, hexec, rfl, fun a => exec_readByte_of_not_inStorage (i := .text) hwf hexec, fun px py hp => ?_⟩
  rw [getPixel_of_exec (i := .text) hwf Instr.noConfusion hexec hp, hlen]
  constructor
  · exact fun hout => lastColour_row_of_outside hglyphs hout
  · rintro k c r code row n hk hc hr hx hy hfont rfl
    obtain ⟨hglyph, hinFont⟩ := hcode k code hk
    have hklen : k < s.u32 1 := hlen ▸ (List.getElem?_eq_some_iff.1 hk).1
    rw [← Nat.zero_add k] at hglyph
    exact lastColour_row_of_bit hglyphs hklen hglyph hinFont hc hr hx hy hp hfont

end Sys2Proof.Machine
end

section
/-! PROOFS. What the core has in place of exceptions (60_exceptions.md): no event stops the machine (R240, R243), ILL is
set at issue alone and is sticky (R241, R242), and an idle Engine keeps all state (R251). -/

namespace Sys2Proof.Machine

section Exceptions

variable {s t : State} {w : Word}

/-! ### No step stops -/

/-- The model's only assertion about a host turn is that its address exists (log 16). -/
theorem hostTurn_goes {act : HostAction} (hexists : (Turn.host act).addressExists s.config) :
    ∃ t, hostTurn act s = .next t := by
  cases act with
  | regRead r => exact ⟨_, hostTurn_regRead r s⟩
  | regWrite r v => exact ⟨_, hostTurn_regWrite r v s⟩
  | memRead a =>
    have ha : a < s.config.memSize := hexists
    rw [hostTurn, hostMemRead, if_pos ha]
    split <;> exact ⟨_, rfl⟩
  | memWrite a v =>
    have ha : a < s.config.memSize := hexists
    rw [hostTurn, hostMemWrite, if_pos ha]
    split <;> exact ⟨_, rfl⟩

/-- No step of the Engine is enabled while BUSY = 0 (R251; 30_encoding.md R102). -/
theorem engineTurn_of_idle (hidle : s.busy = false) : engineTurn s = .next s :=
  if_neg (by simp [hidle])

/-- A busy Engine holds a legal word, which decodes to a command that completes (R240; 30_encoding.md R101). -/
theorem engineTurn_goes (hinv : Inv s) : ∃ t, engineTurn s = .next t := by
  cases hbusy : s.busy with
  | false => exact ⟨s, engineTurn_of_idle hbusy⟩
  | true =>
    obtain ⟨i, hdecode, hwellFormed⟩ := decode_of_legal (hinv.latched hbusy)
    rw [engineTurn, if_pos hbusy]
    exact complete_next hdecode hwellFormed

theorem runTurn_goes {u : Turn} (hinv : Inv s) (hexists : u.addressExists s.config) : ∃ t, runTurn u s = .next t := by
  cases u with
  | engine => exact engineTurn_goes hinv
  | host act => exact hostTurn_goes hexists
  | reset => exact ⟨_, rfl⟩

/-- One step from the invariant goes on when its turn names only addresses that exist. -/
theorem goes_of_inv (hinv : Inv s) (hnext : s.nextTurnExists) : Goes s := by
  unfold Goes
  rw [step_eq hinv.config]
  cases hturns : s.turns with
  | nil => exact engineTurn_goes hinv
  | cons u ts => exact runTurn_goes (takeTurn_keeps_inv hinv ts) (hnext u (by simp [hturns]))

/-- The turns left after a step still name only addresses that exist. -/
theorem step_keeps_addressExists (h : step s = .next t) (hexist : ∀ u ∈ s.turns, u.addressExists s.config) :
    ∀ u ∈ t.turns, u.addressExists t.config := by
  rw [step_turns h, configurationNeverChanges s t h]
  exact fun u hu => hexist u (List.mem_of_mem_tail hu)

/-! ### The ILL bit -/

/-- Legality denied, in plain arithmetic: the rows of the ILL table for an idle Engine (R241). -/
theorem legal_eq_false_iff {a : Operands} : legal w a = false ↔
    (w.toNat % 16 = 0 ∨ 11 ≤ w.toNat % 16) ∨ w.toNat / 256 ≠ 0 ∨ (w.toNat % 16 ≠ 9 ∧ w.toNat / 16 % 16 ≠ 0) ∨
      (w.toNat % 16 = 2 ∧ 3 < a[2].toNat) := by
  rw [← Bool.not_eq_true, legal_iff]
  omega

/-- An issue sets ILL exactly when it is rejected (30_encoding.md R100). -/
theorem issue_ill_iff (hclear : s.ill = false) : (issue w s).ill = true ↔ s.busy = true ∨ legal w s.args = false := by
  by_cases hrejected : s.busy = true ∨ legal w s.args = false
  · rw [issue_of_rejected hrejected]
    exact iff_of_true rfl hrejected
  · obtain ⟨hidle, hlegal⟩ := not_or.1 hrejected
    rw [issue_of_accepted (Bool.eq_false_of_not_eq_true hidle) (Bool.eq_true_of_not_eq_false hlegal)]
    exact iff_of_false (by simp [State.accept, hclear]) hrejected

/-- A command leaves ILL alone (R241). -/
theorem exec_ill {i : Instr} (h : exec i s = .next t) : t.ill = s.ill := by rw [exec_frame h]

/-- A host turn that clears ILL is a write of STATUS with bit 1 = 1 (R242; 10_state.md R38). -/
theorem hostTurn_clears_ill {act : HostAction} (h : hostTurn act s = .next t) (hset : s.ill = true)
    (hclear : t.ill = false) : ∃ v : Word, v.getLsbD 1 = true ∧ act = .regWrite .status v := by
  have hne : t.ill ≠ s.ill := by simp [hset, hclear]
  rcases hostTurn_cases h with ⟨_, -, rfl⟩ | ⟨_, -, -, -, rfl⟩ | ⟨_, -, -, rfl⟩ | ⟨v, hact, rfl⟩ | ⟨_, _, -, rfl⟩ |
    ⟨_, _, -, -, rfl⟩ | ⟨_, _, -, -, rfl⟩ | ⟨_, -, -, hread⟩
  · exact absurd rfl hne
  · exact absurd rfl hne
  · cases hclear
  · exact ⟨v, by simpa [hset] using hclear, hact⟩
  · exact absurd rfl hne
  · exact absurd rfl hne
  · exact absurd rfl hne
  · rw [hread] at hne; exact absurd rfl hne

end Exceptions

/-- Settles O59: by induction on the length of the run; each step goes on and keeps the invariant. -/
theorem runsNeverStop : Obligations.RunsNeverStop := by
  intro n
  induction n with
  | zero => exact fun _ _ _ => trivial
  | succ n ih =>
    intro s hinv hexist
    obtain ⟨t, hstep⟩ := goes_of_inv hinv fun u hu => hexist u (List.mem_of_mem_head? hu)
    exact ⟨t, hstep, ih t (everyStepKeepsInv s t hinv hstep) (step_keeps_addressExists hstep hexist)⟩

/-- Settles O6: a rejected issue is a busy or an illegal one, and a command's frame leaves ILL out. -/
theorem illIsSetExactlyWhen : Obligations.IllIsSetExactlyWhen := by
  constructor
  · intro s w hclear
    refine ⟨issue w s, rfl, ?_⟩
    rw [issue_ill_iff hclear, legal_eq_false_iff]
  · exact fun _ _ _ => exec_ill

/-- Settles O7: the rejected issue, and of the ways a step goes on only a STATUS write and a reset clear ILL. -/
theorem illIsStickyAndChangesNothingElse : Obligations.IllIsStickyAndChangesNothingElse := by
  refine ⟨fun s w hrejected => congrArg Host.Outcome.next (issue_of_rejected hrejected), ?sticky⟩
  case sticky =>
    intro s t h hset hclear
    have hne : t.ill ≠ s.ill := by simp [hset, hclear]
    obtain ⟨-, ⟨-, -, rfl⟩ | ⟨ts, -, -, rfl⟩ | ⟨ts, -, -, hcomplete⟩ | ⟨ts, act, hturns, hhost⟩ | ⟨ts, hturns, -⟩⟩ :=
      step_cases h
    · exact absurd rfl hne
    · exact absurd rfl hne
    · exact absurd (congrArg State.ill (complete_frame hcomplete)) hne
    · obtain ⟨v, hbit, rfl⟩ := hostTurn_clears_ill hhost hset hclear
      exact ⟨ts, .inr ⟨v, hbit, hturns⟩⟩
    · exact ⟨ts, .inl hturns⟩

/-- Settles O39: a command with well-formed operands goes on, and what it may then change is said once for all ten. -/
theorem everyCommandCompletes : Obligations.EveryCommandCompletes := by
  intro i s hwellFormed
  obtain ⟨t, hexec⟩ := exec_goes hwellFormed
  exact ⟨t, hexec, exec_cases hexec⟩

/-- Settles O44: either way the step is the turn of an idle Engine, which passes. -/
theorem idleKeepsAllState : Obligations.IdleKeepsAllState := by
  intro s hwf hidle
  constructor
  · intro hnone
    rw [step_eq hwf, hnone]
    exact engineTurn_of_idle hidle
  · intro ts hengine
    rw [step_of_engine_turn hwf (.inl hengine)]
    exact engineTurn_of_idle (s := s.takeTurn ts) hidle

end Sys2Proof.Machine
end

section
/-! PROOFS. Reset and hazards (70_reset_and_hazards.md): OVAL's loops end (R270), the host's byte accesses (R271), the
single-owner rule with the outcomes of permitted and of forbidden host writes (R263 to R265), and reset (R260, R261). -/

namespace Sys2Proof.Machine

/-! ### The loops end -/

/-- Fuel one above `n / d` lasts for steps of `d` from 0 past `n`. -/
theorem lt_mul_fuel {n d : Int} (hn : 0 ≤ n) (hd : 0 < d) : n < d * ((n / d).toNat + 1 : Nat) := by
  have hquotient : ((n / d).toNat : Int) = n / d := Int.toNat_of_nonneg (Int.ediv_nonneg hn hd.le)
  rw [Nat.cast_succ, hquotient, mul_add, mul_one]
  exact Int.lt_mul_ediv_self_add hd

/-- Settles O27: the fuel of each region lasts until the loop's guard fails, and more changes nothing. -/
theorem ovalLoopsEnd : Obligations.OvalLoopsEnd := by
  intro cfg o k ha hb
  have haa2 : 0 < o.aa2 := mul_pos (mul_pos two_pos ha) ha
  have hbb2 : 0 < o.bb2 := mul_pos (mul_pos two_pos hb) hb
  constructor
  · refine ovalRegion1_fuel cfg o hbb2.le _ k _ _ _ _ _ _ _ ?_
    rw [sub_zero]
    exact lt_mul_fuel (mul_pos hbb2 ha).le haa2
  · refine ovalRegion2_fuel cfg o haa2.le _ k _ _ _ _ _ _ _ _ ?_
    rw [sub_zero]
    exact lt_mul_fuel (mul_pos haa2 hb).le hbb2

/-! ### The host's byte accesses -/

section ByteAccess

variable {s : State} {a : Nat}

/-- A permitted read returns the byte. -/
theorem hostTurn_memRead_of_permitted (ha : a < s.config.memSize) (hpermitted : ¬ forbiddenRead s a = true) :
    hostTurn (.memRead a) s = .next { s with readData := (s.readByte a).setWidth 32 } := by
  rw [hostTurn, hostMemRead, if_pos ha, if_neg hpermitted]

/-- A forbidden read returns a free byte (R265). -/
theorem hostTurn_memRead_of_forbidden (ha : a < s.config.memSize) (hforbidden : forbiddenRead s a = true) :
    hostTurn (.memRead a) s =
      .next { s with readData := (Config.freeByte s.frees).setWidth 32, frees := s.frees + 1 } := by
  rw [hostTurn, hostMemRead, if_pos ha, if_pos hforbidden]

/-- A permitted write stores the byte. -/
theorem hostTurn_memWrite_of_permitted (ha : a < s.config.memSize) (hpermitted : forbiddenWrite s a = false)
    (v : Byte) : hostTurn (.memWrite a v) s = .next (s.writeByte a v) := by
  rw [hostTurn, hostMemWrite, if_pos ha, hpermitted, if_neg Bool.false_ne_true]

/-- A forbidden write is noted and stores the byte (R265; log 11). -/
theorem hostTurn_memWrite_of_forbidden (ha : a < s.config.memSize) (hforbidden : forbiddenWrite s a = true)
    (v : Byte) : hostTurn (.memWrite a v) s = .next ((s.noteOverwrite a).writeByte a v) := by
  rw [hostTurn, hostMemWrite, if_pos ha, if_pos hforbidden]

/-- The reads the single-owner rule forbids (R265). -/
theorem forbiddenRead_iff : forbiddenRead s a = true ↔ s.busy = true ∧ inStorage s.config a := by
  rw [forbiddenRead, Bool.and_eq_true, decide_eq_true_iff]

/-- The source range is a running BLIT's or TEXT's (R265). -/
theorem inSource_iff : inSource s a = true ↔
    (decode s.lcmd = .ok .text ∨ ∃ b c d e, decode s.lcmd = .ok (.blit b c d e)) ∧
      s.u32 0 ≤ a ∧ a < s.u32 0 + s.u32 1 := by
  unfold inSource
  split
  case h_1 hdecode => simp [hdecode]
  case h_2 hdecode => simp [hdecode]
  case h_3 i hblit htext hdecode =>
    simp only [hdecode, Bool.false_eq_true, false_iff]
    rintro ⟨hi | ⟨b, c, d, e, hi⟩, -⟩
    · cases hi; exact htext rfl
    · cases hi; exact hblit _ _ _ _ rfl
  case h_4 hdecode => simp [hdecode]

/-- The writes the single-owner rule forbids (R265). -/
theorem forbiddenWrite_iff : forbiddenWrite s a = true ↔ s.busy = true ∧ (inStorage s.config a ∨
    (decode s.lcmd = .ok .text ∨ ∃ b c d e, decode s.lcmd = .ok (.blit b c d e)) ∧
      s.u32 0 ≤ a ∧ a < s.u32 0 + s.u32 1) := by
  rw [forbiddenWrite, Bool.and_eq_true, Bool.or_eq_true, decide_eq_true_iff, inSource_iff]

end ByteAccess

/-- Settles O48: one equation per kind of access, the single-owner rule's two tests, and the model's own assertion. -/
theorem hostByteAccesses : Obligations.HostByteAccesses := by
  intro s a v
  refine ⟨fun ha hpermitted => ?read, fun ha hbusy hlo hhi => ?forbidden, fun ha hpermitted => ?write,
    forbiddenWrite_iff, fun ha => ?missing⟩
  case read =>
    refine ⟨_, hostTurn_memRead_of_permitted ha ?_, rfl, BitVec.toNat_setWidth_of_le (by decide)⟩
    rwa [forbiddenRead_iff]
  case forbidden =>
    have hforbidden : forbiddenRead s a = true := forbiddenRead_iff.2 ⟨hbusy, hlo, hhi⟩
    exact ⟨_, s.frees, hostTurn_memRead_of_forbidden ha hforbidden, rfl, BitVec.toNat_setWidth_of_le (by decide)⟩
  case write =>
    exact ⟨_, hostTurn_memWrite_of_permitted ha hpermitted v, rfl, fun b => s.readByte_writeByte a b v⟩
  case missing => exact ⟨if_neg ha.not_gt, if_neg ha.not_gt⟩

/-! ### What a command depends on -/

section SameBytes

variable {s s' u : State} (hconfig : s'.config = s.config) (hlarg : s'.larg = s.larg) (hdcl : s'.dcl = s.dcl)
  (hdraws : s'.draws = s.draws) (hbytes : ∀ a, s'.readByte a = s.readByte a)

include hconfig hlarg hdcl hdraws hbytes

/-- A command's writes depend on the configuration, the latches, the draws and the bytes of memory alone (R103). -/
theorem writesWith_of_same_bytes (draw : Nat → Byte) (i : Instr) : writesWith draw i s' = writesWith draw i s := by
  rw [← writesWith_congr draw i s hbytes]
  obtain ⟨⟩ := s
  obtain ⟨⟩ := s'
  subst hconfig hlarg hdcl hdraws
  cases i <;> rfl

/-- So do its RESULT and the draws it takes. -/
theorem exec_of_same_bytes {i : Instr} (hresult : s'.result = s.result) (h : exec i s = .next u) :
    ∃ u', exec i s' = .next u' ∧ u'.result = u.result ∧ u'.draws = u.draws := by
  obtain ⟨m, hm⟩ := exec_setMem hbytes h
  refine ⟨_, exec_congr (s := s.setMem s'.mem) hconfig hlarg hdcl rfl hdraws hm, ?_, rfl⟩
  by_cases hi : i = .pixr
  · exact if_pos hi
  · exact (if_neg hi).trans (hresult.trans ((exec_cases h).2.1 hi).symm)

end SameBytes

/-! ### ARG while a command runs -/

/-- The same machine with other ARG registers (10_state.md R40). -/
def State.withArgs (s : State) (args : Operands) : State := { s with args := args }

section Args

variable {i : Instr} {s t : State} (args : Operands)

/-- A command takes ARG along and does not depend on it (R264). -/
theorem exec_withArgs (h : exec i s = .next t) : exec i (s.withArgs args) = .next (t.withArgs args) := by
  have hresult : (if i = .pixr then t.result else s.result) = t.result := by
    split
    case isTrue => rfl
    case isFalse hi => exact ((exec_cases h).2.1 hi).symm
  calc exec i (s.withArgs args) = .next { s.withArgs args with
          mem := t.mem, draws := t.draws, result := if i = .pixr then t.result else s.result } :=
        exec_congr (s := s) (s' := s.withArgs args) rfl rfl rfl rfl rfl h
    _ = .next { s.withArgs args with mem := t.mem, draws := t.draws, result := t.result } := by rw [hresult]
    _ = .next (t.withArgs args) := congrArg (fun u => Host.Outcome.next (u.withArgs args)) (exec_frame h).symm

/-- So does a completion, after a forbidden write too. -/
theorem complete_withArgs (h : complete s = .next t) : complete (s.withArgs args) = .next (t.withArgs args) := by
  obtain ⟨i, u, hdecode, hexec, rfl⟩ := complete_cases h
  have hany : anyAtCompletion i (s.withArgs args) = anyAtCompletion i s :=
    congrArg (addressesWritten s.config · ++ _)
      (writesWith_of_same_bytes (s := s.atIssue) rfl rfl rfl rfl (fun _ => rfl) Config.draw i)
  have hfreed : (freeBytes (anyAtCompletion i s) (s.withArgs args)).mem = (freeBytes (anyAtCompletion i s) s).mem :=
    freeBytes_mem_congr rfl rfl
  rw [complete_eq (s := s.withArgs args) hdecode (exec_withArgs args hexec), hany, hfreed]
  rfl

end Args

/-- Settles O45: the write changes ARG alone, and a completion does not depend on it. -/
theorem argWritesDoNotReachRunningCommand : Obligations.ArgWritesDoNotReachRunningCommand := by
  intro s t k v _ hcomplete
  exact ⟨_, hostTurn_regWrite (.arg k) v s, complete_withArgs _ hcomplete, Vector.getElem_set_self k.isLt⟩

/-! ### Permitted writes while a command runs -/

/-- What a list of writes leaves in a byte depends on memory through that byte alone. -/
theorem memRead_applyWrites_congr {cfg : Config} {ws : List Write} {m m' : Memory} {b : Nat}
    (h : memRead m b = memRead m' b) : memRead (applyWrites cfg ws m) b = memRead (applyWrites cfg ws m') b := by
  induction ws generalizing m m' with
  | nil => exact h
  | cons w ws ih =>
    refine ih ?_
    cases w with
    | pixel c x y =>
      simp only [applyWrite, memRead_memSet]
      split
      case isTrue hb => rw [← hb, h]
      case isFalse => exact h
    | fbByte i v => simp only [applyWrite, memRead_memSet, h]

/-- A byte stored before a list of writes that leaves it alone stands there after them. -/
theorem memRead_applyWrites_memSet {cfg : Config} {ws : List Write} {a : Nat} (h : ∀ w ∈ ws, a ≠ w.address cfg)
    (m : Memory) (v : Byte) (b : Nat) :
    memRead (applyWrites cfg ws (memSet m a v)) b = if b = a then v else memRead (applyWrites cfg ws m) b := by
  split
  case isTrue hb => rw [hb, memRead_applyWrites_of_ne cfg h, memRead_memSet_self]
  case isFalse hb => exact memRead_applyWrites_congr (memRead_memSet_ne m v hb)

/-- A command that goes on has well-formed operands. -/
theorem wellFormed_of_exec {i : Instr} {s t : State} (h : exec i s = .next t) : i.wellFormed s.larg = true := by
  cases i with
  | pixw =>
    rw [exec, execPixw] at h
    split at h
    case isTrue hcolour => exact decide_eq_true hcolour
    case isFalse => cases h
  | _ => rfl

section Permitted

variable {i : Instr} {s u : State} {a : Nat} (hbusy : s.busy = true) (hdecode : decode s.lcmd = .ok i)
  (hpermitted : forbiddenWrite s a = false)

include hbusy hpermitted

/-- A permitted write while BUSY = 1 is not of the pixel storage. -/
theorem not_inStorage_of_permitted : ¬ inStorage s.config a := fun hstorage =>
  Bool.eq_false_iff.1 hpermitted (forbiddenWrite_iff.2 ⟨hbusy, .inl hstorage⟩)

/-- So it changes no canvas pixel. -/
theorem getPixel_of_permitted (hwf : s.config.wf = true) (v : Byte) {x y : Int} (h : inCanvas s.config x y) :
    (s.writeByte a v).getPixel x y = s.getPixel x y := by
  have hne : s.config.fbBase + pixByte s.config x y ≠ a := by
    rintro rfl
    have hbyte := pixByte_lt hwf h
    exact not_inStorage_of_permitted hbusy hpermitted ⟨by omega, by omega⟩
  exact congrArg (getPixelBits · (pixShift x)) (memRead_memSet_ne s.mem v hne)

/-- A permitted write changes no source byte of a running BLIT or TEXT. -/
theorem sourceByte?_of_permitted
    (hreads : decode s.lcmd = .ok .text ∨ ∃ b c d e, decode s.lcmd = .ok (.blit b c d e)) (v : Byte) (k : Int) :
    sourceByte? s.config (memSet s.mem a v) (.mem (s.u32 0) (s.u32 1)) k =
      sourceByte? s.config s.mem (.mem (s.u32 0) (s.u32 1)) k :=
  sourceByte?_memSet_of_not_mem fun hsource =>
    Bool.eq_false_iff.1 hpermitted (forbiddenWrite_iff.2 ⟨hbusy, .inr ⟨hreads, hsource⟩⟩)

theorem blitPlan_of_permitted {bpp2 flipX flipY rot : Bool} (hblit : decode s.lcmd = .ok (.blit bpp2 flipX flipY rot))
    (draw : Nat → Byte) (v : Byte) :
    blitPlan draw bpp2 flipX flipY rot (s.writeByte a v) = blitPlan draw bpp2 flipX flipY rot s :=
  blitBody_congr s.draws (sourceByte?_of_permitted hbusy hpermitted (.inr ⟨_, _, _, _, hblit⟩) v)

theorem textPlan_of_permitted (htext : decode s.lcmd = .ok .text) (draw : Nat → Byte) (v : Byte) :
    textPlan draw (s.writeByte a v) = textPlan draw s :=
  textLoop_congr (sourceByte?_of_permitted hbusy hpermitted (.inl htext) v) ..

include hdecode

/-- A permitted write leaves the running command's writes as they are. -/
theorem writesWith_of_permitted (draw : Nat → Byte) (v : Byte) :
    writesWith draw i (s.writeByte a v) = writesWith draw i s := by
  cases i with
  | blit b c d e => exact congrArg Prod.fst (blitPlan_of_permitted hbusy hpermitted hdecode draw v)
  | text => exact congrArg Prod.fst (textPlan_of_permitted hbusy hpermitted hdecode draw v)
  | _ => rfl

/-- A permitted write reaches neither RESULT nor the draws of the running command. -/
theorem exec_of_permitted (hwf : s.config.wf = true) (v : Byte) (h : exec i s = .next u) :
    ∃ u', exec i (s.writeByte a v) = .next u' ∧ u'.result = u.result ∧ u'.draws = u.draws := by
  obtain ⟨u', h'⟩ := exec_goes (s := s.writeByte a v) (wellFormed_of_exec (s := s) h)
  refine ⟨u', h', ?_⟩
  obtain ⟨-, hresult, hdraws⟩ := exec_cases h
  obtain ⟨-, hresult', hdraws'⟩ := exec_cases h'
  cases i with
  | pixr =>
    cases h
    cases h'
    refine ⟨?_, rfl⟩
    by_cases hcanvas : inCanvas s.config (s.s32 0) (s.s32 1)
    · exact (if_pos hcanvas).trans ((getPixel_of_permitted hbusy hpermitted hwf v hcanvas).trans (if_pos hcanvas).symm)
    · exact (if_neg hcanvas).trans (if_neg hcanvas).symm
  | blit b c d e =>
    refine ⟨(hresult' nofun).trans (hresult nofun).symm, ?_⟩
    rw [exec, execBlit_eq] at h h'
    cases h
    cases h'
    exact congrArg Prod.snd (blitPlan_of_permitted hbusy hpermitted hdecode Config.draw v)
  | text =>
    refine ⟨(hresult' nofun).trans (hresult nofun).symm, ?_⟩
    rw [exec, execText_eq] at h h'
    cases h
    cases h'
    exact congrArg Prod.snd (textPlan_of_permitted hbusy hpermitted hdecode Config.draw v)
  | _ => exact ⟨(hresult' nofun).trans (hresult nofun).symm, (hdraws' nofun nofun).trans (hdraws nofun nofun).symm⟩

/-- The running command's memory with a permitted write before it: the byte written, and the rest as without it. -/
theorem readByte_exec_of_permitted (hwf : s.config.wf = true) {u' : State} (v : Byte) (h : exec i s = .next u)
    (h' : exec i (s.writeByte a v) = .next u') (b : Nat) : u'.readByte b = if b = a then v else u.readByte b := by
  have hbeside : ∀ w ∈ writesOf i s, a ≠ w.address s.config := by
    rintro w hw rfl
    exact not_inStorage_of_permitted hbusy hpermitted (writesWith_inStorage hwf hw)
  have hmem : u'.mem = applyWrites s.config (writesOf i s) (memSet s.mem a v) := by
    rw [(exec_cases h').1, writesOf, writesWith_of_permitted hbusy hdecode hpermitted]; rfl
  have hmem₀ : u.mem = applyWrites s.config (writesOf i s) s.mem := congrArg State.mem (exec_cases h).1
  rw [State.readByte, State.readByte, hmem, hmem₀]
  exact memRead_applyWrites_memSet hbeside s.mem v b

end Permitted

/-- Settles O46: with no forbidden write made a completion is the command, which a permitted write reaches in that byte
alone. -/
theorem permittedWritesDoNotReachRunningCommand : Obligations.PermittedWritesDoNotReachRunningCommand := by
  intro s t a v hbusy hnone hwf ha hpermitted hcomplete
  obtain ⟨i, u, hdecode, hexec, rfl⟩ := complete_cases hcomplete
  rw [State.atIssue_of_nil hnone] at hexec
  obtain ⟨u', hexec', hresult, hdraws⟩ := exec_of_permitted hbusy hdecode hpermitted hwf v hexec
  have hissue : (s.writeByte a v).atIssue = s.writeByte a v := State.atIssue_of_nil hnone
  refine ⟨_, _, hostTurn_memWrite_of_permitted ha hpermitted v,
    complete_eq (s := s.writeByte a v) hdecode (hissue ▸ hexec'), ?rest, ?bytes⟩
  case rest => simp [hnone, hresult, hdraws]
  case bytes =>
    simp only [State.writeByte_overwritten, hnone, if_true]
    exact fun b => readByte_exec_of_permitted (u := u) hbusy hdecode hpermitted hwf v hexec hexec' b

/-! ### Forbidden writes while a command runs -/

/-- The machine after the first forbidden write since the issue: the byte is stored, and what it overwrote is noted
(R265; log 11). -/
def State.overwrite (s : State) (a : Nat) (v : Byte) : State :=
  { s with mem := memSet s.mem a v, overwritten := [(a, s.readByte a)] }

section Forbidden

variable {i : Instr} {s u : State} {a : Nat} {v : Byte}

/-- What the model does at a forbidden write is `overwrite` when none has been made before it. -/
theorem overwrite_eq (hnone : s.overwritten = []) (a : Nat) (v : Byte) :
    (s.noteOverwrite a).writeByte a v = s.overwrite a v := by
  rw [State.noteOverwrite, hnone]; rfl

/-- The byte a forbidden write changed is put back for the running command (R103). -/
theorem readByte_atIssue_overwrite (hnone : s.overwritten = []) (b : Nat) :
    (s.overwrite a v).atIssue.readByte b = s.readByte b := by
  rw [← overwrite_eq hnone, memRead_atIssue_write (hnone ▸ List.Pairwise.nil), State.atIssue_of_nil hnone]

/-- The bytes that hold any value when the command completes: S from the state at its issue, and the written byte. -/
theorem mem_anyAtCompletion_overwrite (hwf : s.config.wf = true) (hnone : s.overwritten = []) {b : Nat} :
    b ∈ anyAtCompletion i (s.overwrite a v) ↔ (∃ w ∈ writesOf i s, b = w.address s.config) ∨ b = a := by
  have hwrites : writesOf i (s.overwrite a v).atIssue = writesOf i s :=
    writesWith_of_same_bytes (s := s) (s' := (s.overwrite a v).atIssue) rfl rfl rfl rfl
      (readByte_atIssue_overwrite hnone) Config.draw i
  rw [anyAtCompletion, hwrites, List.mem_append]
  exact or_congr (mem_addressesWritten hwf) List.mem_singleton

/-- The completion after a forbidden write: RESULT and the draws are the command's own (R103), and memory is that after
the write but for the bytes that hold any value. -/
theorem complete_overwrite (hnone : s.overwritten = []) (hdecode : decode s.lcmd = .ok i) (h : exec i s = .next u) :
    complete (s.overwrite a v) = .next { s with
      mem := (freeBytes (anyAtCompletion i (s.overwrite a v)) (s.overwrite a v)).mem
      result := u.result, draws := u.draws
      frees := s.frees + (anyAtCompletion i (s.overwrite a v)).length
      busy := false, overwritten := [] } := by
  obtain ⟨u', hexec', hresult, hdraws⟩ :=
    exec_of_same_bytes (s := s) (s' := (s.overwrite a v).atIssue) rfl rfl rfl rfl
      (readByte_atIssue_overwrite hnone) rfl h
  have hnoted : (s.overwrite a v).overwritten ≠ [] := List.cons_ne_nil _ _
  rw [complete_eq (s := s.overwrite a v) hdecode hexec', hresult, hdraws, if_neg hnoted, if_neg hnoted]
  rfl

end Forbidden

/-- Settles O47: the write notes the byte, the command runs on memory as at its issue, and the bytes that then hold any
value are those of its writes and the written one. -/
theorem forbiddenWriteLeavesAnyValue : Obligations.ForbiddenWriteLeavesAnyValue := by
  intro s t₀ i a v hinv _ hnone hdecode ha hforbidden hcomplete
  obtain ⟨j, u, hj, hexec, rfl⟩ := complete_cases hcomplete
  obtain rfl : i = j := by simpa [hdecode] using hj
  rw [State.atIssue_of_nil hnone] at hexec
  have hhost := hostTurn_memWrite_of_forbidden ha hforbidden v
  rw [overwrite_eq hnone] at hhost
  refine ⟨s.overwrite a v, _, hhost, complete_overwrite hnone hdecode hexec, fun b => s.readByte_writeByte a b v,
    readByte_atIssue_overwrite hnone, rfl, fun b => ?_⟩
  rw [← mem_anyAtCompletion_overwrite (v := v) hinv.config hnone]
  refine ⟨readByte_freeBytes_of_mem, fun hkept => (readByte_freeBytes_of_not_mem hkept).trans ?_⟩
  have hne : b ≠ a := fun hb => hkept ((mem_anyAtCompletion_overwrite hinv.config hnone).2 (.inr hb))
  exact memRead_memSet_ne s.mem v hne

/-! ### Reset -/

/-- Settles O50: the reset's turn sets every register, and an idle Engine has no bytes to free. -/
theorem resetClearsRegisters : Obligations.ResetClearsRegisters := by
  intro s ts hwf hturns
  have hstep : step s = .next (resetTurn (s.takeTurn ts)) := by rw [step_eq hwf, hturns]; rfl
  refine ⟨_, hstep, rfl, rfl, rfl, rfl, fun k => Vector.getElem_replicate k.isLt, ?config, ?turns, fun hidle => ?mem⟩
  case config => rw [reset_eq]; rfl
  case turns => rw [reset_eq]; rfl
  case mem => rw [resetTurn, abandoned_of_idle (s := s.takeTurn ts) hidle]; rfl

/-- Settles O51: the bytes a reset frees are those of the command's writes from the state at its issue, with the reset's
own draws (log 25). -/
theorem resetAbandonsRunningCommand : Obligations.ResetAbandonsRunningCommand := by
  rintro s i ws hwf hbusy hdecode rfl
  refine ⟨State.atIssue_of_nil, fun hblit htext => writesWith_draw hblit htext _ _ s.atIssue, _, rfl, rfl, rfl, ?draws,
    fun b => ?bytes⟩
  case draws => rw [reset_eq]
  case bytes =>
    have hmem : b ∈ abandoned s ↔
        ∃ w ∈ writesWith (Config.abandonedDraw s.resets) i s.atIssue, b = w.address s.config := by
      rw [abandoned, if_pos hbusy, hdecode]
      exact mem_addressesWritten (s := s.atIssue) hwf
    refine ⟨fun hwritten => readByte_freeBytes_of_mem (hmem.2 hwritten), fun hbeside => ?_⟩
    refine readByte_freeBytes_of_not_mem fun hin => ?_
    obtain ⟨w, hw, haddr⟩ := hmem.1 hin
    exact hbeside w hw haddr

end Sys2Proof.Machine
end
